-- ==== Sys2Proof/Word.lean ====
section
/-! DEFINITION. The byte and the word of the core (00_scope.md R6): 8 and 32 unsigned bits, bit 0 least significant. -/

namespace Sys2Proof

/-- A byte: 8 bits, an unsigned number 0..255, also a polynomial over GF(2) (R6). -/
abbrev Byte := BitVec 8

/-- A word: 32 bits, an unsigned number (R6). -/
abbrev Word := BitVec 32

end Sys2Proof
end

