-- ==== Sys2Proof/Syntax.lean ====
section
/-! DEFINITION. The 25 commands of 30_encoding.md R64, one constructor a row of spec/opcode_table.json, in the table's
order. An operand is a byte 0..255 (R62). -/

namespace Sys2Proof

/-- A command of the core (R64). -/
inductive Instr where
  /-- 0x10 GFINIT: build the log/antilog tables (R88). -/
  | gfinit
  /-- 0x11 GFMUL a, b: field multiply (R89). -/
  | gfmul (a b : Byte)
  /-- 0x12 GFINV a: field inverse (R90). -/
  | gfinv (a : Byte)
  /-- 0x13 LOGRD a: read one entry of the log table (R91). -/
  | logrd (a : Byte)
  /-- 0x14 ILOGRD e: read one entry of the antilog table (R92). -/
  | ilogrd (e : Byte)
  /-- 0x20 SBINIT: build the S-box tables (R104). -/
  | sbinit
  /-- 0x21 SBOX a: read one entry of the forward S-box (R105). -/
  | sbox (a : Byte)
  /-- 0x22 ISBOX a: read one entry of the inverse S-box (R106). -/
  | isbox (a : Byte)
  /-- 0x30 KEYINIT: expand the key and install the context (R122). -/
  | keyinit
  /-- 0x31 KSRD i: read one schedule word (R123). -/
  | ksrd (i : Byte)
  /-- 0x32 CTXREL: release the context (R124). -/
  | ctxrel
  /-- 0x40 LDST n: load input block n into the state (R153). -/
  | ldst (n : Byte)
  /-- 0x41 STST n: read the state back to output block n (R154). -/
  | stst (n : Byte)
  /-- 0x42 ARK n: AddRoundKey with round n (R155). -/
  | ark (n : Byte)
  /-- 0x43 SUBB: SubBytes (R156). -/
  | subb
  /-- 0x44 SHR: ShiftRows (R157). -/
  | shr
  /-- 0x45 MIXC: MixColumns (R158). -/
  | mixc
  /-- 0x46 ISUBB: InvSubBytes (R159). -/
  | isubb
  /-- 0x47 ISHR: InvShiftRows (R160). -/
  | ishr
  /-- 0x48 IMIXC: InvMixColumns (R161). -/
  | imixc
  /-- 0x4E ENCBLK n: forward cipher on block n (R162). -/
  | encblk (n : Byte)
  /-- 0x4F DECBLK n: inverse cipher on block n (R163). -/
  | decblk (n : Byte)
  /-- 0x50 INITVEC: rebuild the tables (R170). -/
  | initvec
  /-- 0x51 ENC: encrypt the buffer (R172). -/
  | enc
  /-- 0x52 DEC: decrypt the buffer (R173). -/
  | dec
deriving DecidableEq, Repr

end Sys2Proof
end

