-- ==== Sys2Proof/Decode.lean ====
section
/-! DEFINITION. The command word (30_encoding.md R60, R61, R64 to R67): the opcode table, a total decoder that rejects by
name, and the encoder. -/

namespace Sys2Proof

/-- The three formats of R61: no operand, operand A, operands A and B. -/
inductive Format where
  | N
  | A
  | AB
deriving DecidableEq, Repr

/-- The mask column of R61: the bits of a word that a format fixes. -/
def Format.mask : Format → Word
  | .N => 0xFFFFFFFF
  | .A => 0xFFFF00FF
  | .AB => 0xFF0000FF

/-- One row of R64's table. -/
structure Row where
  mnemonic : String
  op : Byte
  format : Format
deriving DecidableEq, Repr

/-- The complete opcode table (R64): 25 rows. -/
def opcodeTable : List Row :=
  [⟨"GFINIT", 0x10, .N⟩, ⟨"GFMUL", 0x11, .AB⟩, ⟨"GFINV", 0x12, .A⟩, ⟨"LOGRD", 0x13, .A⟩, ⟨"ILOGRD", 0x14, .A⟩] ++
  [⟨"SBINIT", 0x20, .N⟩, ⟨"SBOX", 0x21, .A⟩, ⟨"ISBOX", 0x22, .A⟩] ++
  [⟨"KEYINIT", 0x30, .N⟩, ⟨"KSRD", 0x31, .A⟩, ⟨"CTXREL", 0x32, .N⟩] ++
  [⟨"LDST", 0x40, .A⟩, ⟨"STST", 0x41, .A⟩, ⟨"ARK", 0x42, .A⟩, ⟨"SUBB", 0x43, .N⟩, ⟨"SHR", 0x44, .N⟩, ⟨"MIXC", 0x45, .N⟩] ++
  [⟨"ISUBB", 0x46, .N⟩, ⟨"ISHR", 0x47, .N⟩, ⟨"IMIXC", 0x48, .N⟩, ⟨"ENCBLK", 0x4E, .A⟩, ⟨"DECBLK", 0x4F, .A⟩] ++
  [⟨"INITVEC", 0x50, .N⟩, ⟨"ENC", 0x51, .N⟩, ⟨"DEC", 0x52, .N⟩]

/-- A word encodes the command of a row exactly when `(w AND mask) = match`, `match` the row's opcode (R61). -/
def Row.accepts (row : Row) (w : Word) : Bool :=
  w &&& row.format.mask == row.op.setWidth 32

/-- Field OP, bits 7:0 (R60). -/
def opField (w : Word) : Byte := w.extractLsb' 0 8

/-- Field A, bits 15:8 (R60). -/
def aField (w : Word) : Byte := w.extractLsb' 8 8

/-- Field B, bits 23:16 (R60). -/
def bField (w : Word) : Byte := w.extractLsb' 16 8

/-- Field Z, bits 31:24 (R60). -/
def zField (w : Word) : Byte := w.extractLsb' 24 8

/-- Why a word is no command. -/
inductive Illegal where
  /-- OP is not one of the 25 values of R64 (R66). -/
  | unassignedOpcode
  /-- OP is assigned, but a must-be-zero field of its format is not zero (R65). -/
  | reservedBits
deriving DecidableEq, Repr

/-- Format N: A, B and Z must be zero (R61). -/
def decodeN (w : Word) (i : Instr) : Except Illegal Instr :=
  if aField w = 0 ∧ bField w = 0 ∧ zField w = 0 then .ok i else .error .reservedBits

/-- Format A: B and Z must be zero (R61). -/
def decodeA (w : Word) (i : Byte → Instr) : Except Illegal Instr :=
  if bField w = 0 ∧ zField w = 0 then .ok (i (aField w)) else .error .reservedBits

/-- Format AB: Z must be zero (R61). -/
def decodeAB (w : Word) (i : Byte → Byte → Instr) : Except Illegal Instr :=
  if zField w = 0 then .ok (i (aField w) (bField w)) else .error .reservedBits

/-- The decoder of R67, total on 32-bit words. -/
def decode (w : Word) : Except Illegal Instr :=
  match (opField w).toNat with
  | 0x10 => decodeN w .gfinit
  | 0x11 => decodeAB w .gfmul
  | 0x12 => decodeA w .gfinv
  | 0x13 => decodeA w .logrd
  | 0x14 => decodeA w .ilogrd
  | 0x20 => decodeN w .sbinit
  | 0x21 => decodeA w .sbox
  | 0x22 => decodeA w .isbox
  | 0x30 => decodeN w .keyinit
  | 0x31 => decodeA w .ksrd
  | 0x32 => decodeN w .ctxrel
  | 0x40 => decodeA w .ldst
  | 0x41 => decodeA w .stst
  | 0x42 => decodeA w .ark
  | 0x43 => decodeN w .subb
  | 0x44 => decodeN w .shr
  | 0x45 => decodeN w .mixc
  | 0x46 => decodeN w .isubb
  | 0x47 => decodeN w .ishr
  | 0x48 => decodeN w .imixc
  | 0x4E => decodeA w .encblk
  | 0x4F => decodeA w .decblk
  | 0x50 => decodeN w .initvec
  | 0x51 => decodeN w .enc
  | 0x52 => decodeN w .dec
  | _ => .error .unassignedOpcode

/-- The word of a format N command: `OP` (R61). -/
def encodeN (op : Nat) : Word := BitVec.ofNat 32 op

/-- The word of a format A command: `OP + A*0x100` (R61). -/
def encodeA (op : Nat) (a : Byte) : Word := BitVec.ofNat 32 (op + a.toNat * 0x100)

/-- The word of a format AB command: `OP + A*0x100 + B*0x10000` (R61). -/
def encodeAB (op : Nat) (a b : Byte) : Word := BitVec.ofNat 32 (op + a.toNat * 0x100 + b.toNat * 0x10000)

/-- The word of a command (R61, R64). -/
def encode : Instr → Word
  | .gfinit => encodeN 0x10
  | .gfmul a b => encodeAB 0x11 a b
  | .gfinv a => encodeA 0x12 a
  | .logrd a => encodeA 0x13 a
  | .ilogrd e => encodeA 0x14 e
  | .sbinit => encodeN 0x20
  | .sbox a => encodeA 0x21 a
  | .isbox a => encodeA 0x22 a
  | .keyinit => encodeN 0x30
  | .ksrd i => encodeA 0x31 i
  | .ctxrel => encodeN 0x32
  | .ldst n => encodeA 0x40 n
  | .stst n => encodeA 0x41 n
  | .ark n => encodeA 0x42 n
  | .subb => encodeN 0x43
  | .shr => encodeN 0x44
  | .mixc => encodeN 0x45
  | .isubb => encodeN 0x46
  | .ishr => encodeN 0x47
  | .imixc => encodeN 0x48
  | .encblk n => encodeA 0x4E n
  | .decblk n => encodeA 0x4F n
  | .initvec => encodeN 0x50
  | .enc => encodeN 0x51
  | .dec => encodeN 0x52

/-- The instruction the decoder reads from a table word of `nbits` bits (bit 0 the least significant bit of the
command word, R6); bits above `nbits` are 0, and a number that needs more than 32 bits is no command word. -/
def decodeTableWord (nbits w : Nat) : Option Instr :=
  if w % 2 ^ nbits < 2 ^ 32 then
    match decode (BitVec.ofNat 32 (w % 2 ^ nbits)) with
    | .ok i => some i
    | .error _ => none
  else none

end Sys2Proof
end

