-- ==== Sys2Proof/Config.lean ====
section
/-! DEFINITION. What this hardware fixes where the source leaves a choice: the parameters of 00_scope.md R5 that a model
may take as arguments, at the values R5 gives this hardware, and the reset contents of the byte windows (R35). -/

namespace Sys2Proof

/-- LOG0 (R5, R84): the content of `LOG[0]`, never written by the walk; 0x00 in this hardware (log 3). -/
def Config.log0 : Byte := 0x00

/-- ILOG255 (R5, R84): the content of `ILOG[255]`, never written by the walk; 0x00 in this hardware (log 3). -/
def Config.ilog255 : Byte := 0x00

/-- BUF_BYTES (R5): the size in bytes of IBUF and of OBUF; 4096 in this hardware (log 4). -/
def Config.bufBytes : Nat := 4096

/-- NBLK (R5): the number of 16-byte blocks in a buffer, BUF_BYTES / 16. -/
def Config.nblk : Nat := Config.bufBytes / 16

/-- KEY is a buffer of 32 bytes (R21). -/
def Config.keyBytes : Nat := 32

/-- What a byte of KEY, IBUF or OBUF that nothing has written reads as: its reset value 0x00 (R35). -/
def Config.unwritten : Byte := 0x00

/-- The size of the register block's window, offsets 0x0000..0x2FFF (R40). -/
def Config.windowBytes : Nat := 0x3000

end Sys2Proof
end

