-- ==== Sys2Proof/Machine/State.lean ====
section
/-! DEFINITION. The state of the core (10_state.md R10), the host's accesses (20_memory.md R42), the error kinds
(60_exceptions.md R186), the reasons a step can stop, and the state after reset (R35). -/

namespace Sys2Proof.Machine

/-- A table of 256 bytes: LOG, ILOG, SBOX, ISBOX (R11, R12, R14). -/
abbrev Table := Vector Byte 256

/-- The schedule storage: 60 words (R17, R18). -/
abbrev Schedule := Vector Word 60

/-- The block-state register, four rows of four bytes: entry `x` is row `x`, and entry `y` of it is column `y` (R19). -/
abbrev Matrix := Vector (Vector Byte 4) 4

/-- A byte window (KEY, IBUF, OBUF): the bytes that differ from their reset value, by offset in the window, in rising
order (log 11). -/
abbrev Memory := List Host.Cell

/-- The canonical form of a window: offsets strictly rising and at least `low`, no entry at the unwritten value. -/
def Memory.wfFrom (low : Nat) : Memory → Bool
  | [] => true
  | (a, v) :: rest => decide (low ≤ a) && v != Config.unwritten && Memory.wfFrom (a + 1) rest

/-- The canonical form of a window. -/
def Memory.wf (m : Memory) : Bool := Memory.wfFrom 0 m

/-- Every listed offset lies inside a window of `size` bytes. -/
def Memory.within (size : Nat) (m : Memory) : Bool := m.all (fun c => decide (c.1 < size))

/-- The accesses a host can present to the core (R42). -/
inductive HostAccess where
  /-- HostWriteReg(offset, v32): a 32-bit write. -/
  | writeReg (offset : Nat) (value : Word)
  /-- HostReadReg(offset): a 32-bit read. -/
  | readReg (offset : Nat)
  /-- HostWriteByte(offset, v8): an 8-bit write. -/
  | writeByte (offset : Nat) (value : Byte)
  /-- HostReadByte(offset): an 8-bit read. -/
  | readByte (offset : Nat)
  /-- An access of another width: no part of the interface (R42). -/
  | otherWidth (offset : Nat)
deriving DecidableEq, Repr

/-- The value a host read returns. -/
inductive HostReply where
  | word (value : Word)
  | byte (value : Byte)
deriving DecidableEq, Repr

/-- The error kinds of R186. -/
inductive ErrorKind where
  /-- Code 1, raised by KEYINIT. -/
  | invalidKeyLength
  /-- Code 2, reserved for the dispatch layer: no command raises it (R187). -/
  | invalidVersionSelector
  /-- Code 3, raised by ENC and DEC. -/
  | lengthMismatch
  /-- Code 4, raised by ENC and DEC. -/
  | invalidBlockAlignment
  /-- Code 5, reserved: storage is fixed and no command raises it (R187). -/
  | allocationFailure
  /-- Code 6, raised by every command that needs the context. -/
  | noActiveContext
  /-- Code 7, raised by the GF and S-box commands. -/
  | tablesNotReady
  /-- Code 8, raised by a CMD write whose word is no command. -/
  | illegalCommand
  /-- Code 9, raised by KSRD, LDST, STST, ARK, ENCBLK, DECBLK. -/
  | operandRange
  /-- Code 10, raised by ENC and DEC. -/
  | lengthExceedsBuffer
deriving DecidableEq, Repr

/-- The state of the core: the table of R10, then the two fields that stand for the host (log 1). -/
structure State where
  /-- LOG (R11). -/
  log : Table
  /-- ILOG (R12). -/
  ilog : Table
  /-- GF_VALID (R13). -/
  gfValid : Bool
  /-- SBOX (R14). -/
  sbox : Table
  /-- ISBOX (R14). -/
  isbox : Table
  /-- SB_VALID (R15). -/
  sbValid : Bool
  /-- CTX_VALID (R17). -/
  ctxValid : Bool
  /-- NK, 4 bits (R10, R17). -/
  nk : BitVec 4
  /-- R, 4 bits (R10, R17). -/
  r : BitVec 4
  /-- KS (R18). -/
  ks : Schedule
  /-- STATE (R19). -/
  state : Matrix
  /-- KEY, 32 bytes (R21). -/
  key : Memory
  /-- KEYLEN (R21). -/
  keylen : Word
  /-- IBUF, BUF_BYTES bytes (R22). -/
  ibuf : Memory
  /-- OBUF, BUF_BYTES bytes (R22). -/
  obuf : Memory
  /-- INLEN (R22). -/
  inlen : Word
  /-- OUTLEN (R22). -/
  outlen : Word
  /-- RESULT (R23). -/
  result : Word
  /-- STATUS.OK (R24). -/
  ok : Bool
  /-- STATUS.FAIL (R24). -/
  fail : Bool
  /-- ERR (R25). -/
  err : Word
  /-- The model's own: the accesses the host has not yet performed, oldest first. DESIGN CHOICE (log 1). -/
  pending : List HostAccess
  /-- The model's own: the values the host's reads have returned, oldest first. DESIGN CHOICE (log 1). -/
  replies : List HostReply
deriving DecidableEq, Repr

/-- Why the machine stops. -/
inductive Fault where
  /-- Raised by a host access whose offset lies outside the 12 KiB window of R40, where the core has no address.
  Safe: the model stops where another device of the platform would answer. DEDUCED (log 6). -/
  | offsetOutsideWindow (offset : Nat)
deriving DecidableEq, Repr

/-- Why the model gives a step no meaning. -/
inductive Refusal where
  /-- Raised by `exec` for a command that has no meaning yet; every command has one, so nothing raises it. Safe. -/
  | notModelled (mnemonic : String)
  /-- Raised by a host access that is neither 8 nor 32 bits wide (R42: refused). Safe. -/
  | unsupportedWidth (offset : Nat)
  /-- Raised by a 32-bit access at an offset that is not a multiple of 4 (R42: refused). Safe. -/
  | misalignedRegisterAccess (offset : Nat)
  /-- Raised by a 32-bit access into KEY, IBUF or OBUF (R42: refused). Safe. -/
  | wordAccessToByteWindow (offset : Nat)
  /-- Raised by an 8-bit access to a register (R42: refused). Safe. -/
  | byteAccessToRegister (offset : Nat)
deriving DecidableEq, Repr

/-- The outcome of a step or a command. -/
abbrev Outcome := Host.Outcome State Fault Refusal

/-- The state after reset (R35): every bit of storage zero, `LOG[0]` and `ILOG[255]` at their parameters (R84). No
access is waiting and none has been answered (log 1). -/
def State.reset : State where
  log := (Vector.replicate 256 0).set 0 Config.log0
  ilog := (Vector.replicate 256 0).set 255 Config.ilog255
  gfValid := false
  sbox := Vector.replicate 256 0
  isbox := Vector.replicate 256 0
  sbValid := false
  ctxValid := false
  nk := 0
  r := 0
  ks := Vector.replicate 60 0
  state := Vector.replicate 4 (Vector.replicate 4 0)
  key := []
  keylen := 0
  ibuf := []
  obuf := []
  inlen := 0
  outlen := 0
  result := 0
  ok := false
  fail := false
  err := 0
  pending := []
  replies := []

end Sys2Proof.Machine
end

