-- ==== Sys2Proof/Machine/Operands.lean ====
section
/-! DEFINITION. Operand forms: zero extension (00_scope.md R7), the byte lanes of a word (20_memory.md R49), block
addresses (R46), the byte-to-state mapping (R47), and the operand ranges (60_exceptions.md R187). -/

namespace Sys2Proof.Machine

/-- `zext_32(v)` of a byte (R7). -/
def zext32 (v : Byte) : Word := v.setWidth 32

/-- `byte(w, x)`: bits 8x+7:8x of a word (R6, R49). -/
def byteLane (w : Word) (x : Nat) : Byte := w.extractLsb' (8 * x) 8

/-- `word(b0, b1, b2, b3)`: the word whose byte `k` is `bk` (R6, R49). -/
def packWord (b0 b1 b2 b3 : Byte) : Word := b3 ++ b2 ++ b1 ++ b0

/-- The offset of byte `i` of block `n` in a buffer (R46). -/
def blockAddr (n i : Nat) : Nat := 16 * n + i

/-- The row of the state cell that holds block byte `i` (R47). -/
def rowOfByte (i : Nat) : Fin 4 := Fin.ofNat 4 (i % 4)

/-- The column of the state cell that holds block byte `i` (R47). -/
def colOfByte (i : Nat) : Fin 4 := Fin.ofNat 4 (i / 4)

/-- The block byte that the state cell at row `x`, column `y` holds (R47). -/
def byteOfCell (x y : Fin 4) : Nat := 4 * y.val + x.val

/-- The number of words of a schedule of `r` rounds, `4*(r+1)` (R115). -/
def scheduleLength (r : Nat) : Nat := 4 * (r + 1)

/-- The length in bytes of the key that KEYLEN may hold (R115). -/
def validKeyLength (len : Nat) : Bool := len == 16 || len == 24 || len == 32

/-- LDST, STST, ENCBLK, DECBLK: a block index must be below NBLK (R164). -/
def checkBlockIndex (n : Byte) : Option ErrorKind :=
  if n.toNat < Config.nblk then none else some .operandRange

/-- ARK: a round number must be at most R (R155). -/
def checkRound (n : Byte) (s : State) : Option ErrorKind :=
  if n.toNat ≤ s.r.toNat then none else some .operandRange

/-- KSRD: a schedule index must be below `4*(R+1)` (R123). -/
def checkScheduleIndex (i : Byte) (s : State) : Option ErrorKind :=
  if i.toNat < scheduleLength s.r.toNat then none else some .operandRange

/-- KEYINIT: KEYLEN must be 16, 24 or 32 (R115, R122). -/
def checkKeyLength (s : State) : Option ErrorKind :=
  if validKeyLength s.keylen.toNat then none else some .invalidKeyLength

end Sys2Proof.Machine
end

