-- ==== Sys2Proof/Machine/Flags.lean ====
section
/-! DEFINITION. The flags: error codes (60_exceptions.md R186), the preconditions on the validity flags (R189), and the
read-only views STATUS, CTXINFO and BUFSZ (10_state.md R24, R26, R27). -/

namespace Sys2Proof.Machine

/-- `code(E)` (R186). -/
def ErrorKind.code : ErrorKind → Word
  | .invalidKeyLength => 1
  | .invalidVersionSelector => 2
  | .lengthMismatch => 3
  | .invalidBlockAlignment => 4
  | .allocationFailure => 5
  | .noActiveContext => 6
  | .tablesNotReady => 7
  | .illegalCommand => 8
  | .operandRange => 9
  | .lengthExceedsBuffer => 10

/-- The GF tables must have been built (R13). -/
def checkGf (s : State) : Option ErrorKind := if s.gfValid then none else some .tablesNotReady

/-- The S-box tables must have been built (R15). -/
def checkSb (s : State) : Option ErrorKind := if s.sbValid then none else some .tablesNotReady

/-- A context must be active (R164). -/
def checkCtx (s : State) : Option ErrorKind := if s.ctxValid then none else some .noActiveContext

/-- STATUS: OK, FAIL, GF_VALID, SB_VALID, CTX_VALID in bits 0 to 4, zero above (R24). -/
def statusWord (s : State) : Word :=
  (BitVec.ofBool s.ctxValid ++ BitVec.ofBool s.sbValid ++ BitVec.ofBool s.gfValid ++ BitVec.ofBool s.fail ++
    BitVec.ofBool s.ok).setWidth 32

/-- CTXINFO: NK in bits 3:0, R in bits 7:4, `4*(R+1)` in bits 15:8 while a context is active, zero above (R26). -/
def ctxinfoWord (s : State) : Word :=
  ((if s.ctxValid then BitVec.ofNat 8 (scheduleLength s.r.toNat) else 0#8) ++ s.r ++ s.nk).setWidth 32

/-- BUFSZ reads BUF_BYTES (R27). -/
def bufszWord : Word := BitVec.ofNat 32 Config.bufBytes

end Sys2Proof.Machine
end

