-- ==== Sys2Proof/Machine/Ops.lean ====
section
/-! DEFINITION. The shared operations: tables, schedule, block state, byte windows, and the two ways a command ends,
`raise` and `succeed` (00_scope.md R7, 60_exceptions.md R188). A failure saves nothing, so there is no return from one
(R192). -/

namespace Sys2Proof.Machine

/-- `T[i]` of a 256-byte table (R7). -/
def tableRead (t : Table) (i : Byte) : Byte := t[i.toNat]'i.isLt

/-- `T[i] <- v` of a 256-byte table (R7). -/
def tableWrite (t : Table) (i v : Byte) : Table := t.set i.toNat v i.isLt

/-- `KS[i]` (R7). No command reads at or above 60 in a reachable state; the model reads 0 there (log 12). -/
def ksRead (ks : Schedule) (i : Nat) : Word := ks.getD i 0

/-- `KS[i] <- v` (R7). -/
def ksWrite (ks : Schedule) (i : Nat) (v : Word) : Schedule := ks.setIfInBounds i v

/-- `STATE[x][y]` (R7). -/
def cell (S : Matrix) (x y : Fin 4) : Byte := S[x][y]

/-- The state whose cell at row `x`, column `y` is `f x y`, all cells at once (R8). -/
def matrixOf (f : Fin 4 → Fin 4 → Byte) : Matrix :=
  #v[#v[f 0 0, f 0 1, f 0 2, f 0 3], #v[f 1 0, f 1 1, f 1 2, f 1 3], #v[f 2 0, f 2 1, f 2 2, f 2 3],
    #v[f 3 0, f 3 1, f 3 2, f 3 3]]

/-- The all-zero state. -/
def zeroMatrix : Matrix := matrixOf (fun _ _ => 0)

/-- Byte `i` of the state read in block order (R47). -/
def blockByte (S : Matrix) (i : Nat) : Byte := cell S (rowOfByte i) (colOfByte i)

/-- `MemRead(S, a, 1)` of a byte window (R7). -/
def memRead : Memory → Nat → Byte
  | [], _ => Config.unwritten
  | (b, v) :: m, a => if a = b then v else memRead m a

/-- `MemWrite(S, a, 1, v)` of a byte window (R7), keeping the canonical form. -/
def memWrite : Memory → Nat → Byte → Memory
  | [], a, v => if v = Config.unwritten then [] else [(a, v)]
  | (b, w) :: m, a, v =>
    if a < b then
      if v = Config.unwritten then (b, w) :: m else (a, v) :: (b, w) :: m
    else if a = b then
      if v = Config.unwritten then m else (a, v) :: m
    else (b, w) :: memWrite m a v

/-- Writes `count` bytes `f i, f (i+1), ...` at offsets `base + i, base + i + 1, ...` in ascending order. -/
def memWriteFrom (f : Nat → Byte) (base : Nat) : (count i : Nat) → Memory → Memory
  | 0, _, m => m
  | count + 1, i, m => memWriteFrom f base count (i + 1) (memWrite m (base + i) (f i))

/-- `raise E`: the failure record of R188, and nothing else. -/
def raise (e : ErrorKind) (s : State) : State :=
  { s with ok := false, fail := true, err := e.code }

/-- `succeed` (R188). -/
def succeed (s : State) : State :=
  { s with ok := true, fail := false, err := 0 }

/-- A command: the first failing check, if any, is raised before anything is written; otherwise the command has its
effect and succeeds (R7, R189). -/
def runCommand (failure : Option ErrorKind) (effect : State → State) (s : State) : Outcome :=
  match failure with
  | some e => .next (raise e s)
  | none => .next (succeed (effect s))

/-- RESULT receives a byte, zero-extended (R23). -/
def setResultByte (v : Byte) (s : State) : State := { s with result := zext32 v }

/-- RESULT receives a word (R23). -/
def setResultWord (v : Word) (s : State) : State := { s with result := v }

/-- The block-state register is replaced whole (R8). -/
def setMatrix (f : Matrix → Matrix) (s : State) : State := { s with state := f s.state }

/-- OBUF is replaced whole; `storeState` says by what (R141). -/
def setObuf (m : Memory) (s : State) : State := { s with obuf := m }

end Sys2Proof.Machine
end

