-- ==== Sys2Proof/Machine/Gf.lean ====
section
/-! DEFINITION. GF(2^8) arithmetic by log/antilog tables (41_gf_arithmetic.md): xtime, the slow multiplier, the table
walk, mul, inv, and GFINIT, GFMUL, GFINV, LOGRD, ILOGRD. -/

namespace Sys2Proof.Machine

/-- `xtime(a)`: multiplication by x modulo 0x11b (R81). -/
def xtime (a : Byte) : Byte := (a <<< 1) ^^^ (if a.getLsbD 7 then 0x1b else 0x00)

/-- The loop of R82 from bit `k` on, `count` bits left. -/
def mulSlowLoop (b : Byte) : (count k : Nat) → (a p : Byte) → Byte
  | 0, _, _, p => p
  | count + 1, k, a, p => mulSlowLoop b count (k + 1) (xtime a) (if b.getLsbD k then p ^^^ a else p)

/-- `mul_slow(a, b)`: the product of two field elements without tables (R82). -/
def mulSlow (a b : Byte) : Byte := mulSlowLoop b 8 0 a 0x00

/-- The loop of R83 from exponent `exp` (EXP) and power `val` (VAL) on, `count` iterations left; EXP and VAL are the
hidden registers of R31 (log 9). The full walk leaves LOG and ILOG inverse to each other (R93 (a)). -/
def gfWalk : (count exp : Nat) → (val : Byte) → Table × Table → Table × Table
  | 0, _, _, t => t
  | count + 1, exp, val, (log, ilog) =>
    gfWalk count (exp + 1) (mulSlow val 0x03)
      (tableWrite log val (BitVec.ofNat 8 exp), tableWrite ilog (BitVec.ofNat 8 (exp % 255)) val)

/-- LOG and ILOG are replaced, and GF_VALID is set (R83). -/
def setGfTables (t : Table × Table) (s : State) : State :=
  { s with log := t.1, ilog := t.2, gfValid := true }

/-- `BuildGfTables` (R83): 255 iterations from element 1; sets GF_VALID. -/
def buildGfTables (s : State) : State := setGfTables (gfWalk 255 0 0x01 (s.log, s.ilog)) s

/-- `mul(a, b)`: field multiply by table (R85). Over the tables of `gfWalk` it is
`mulSlow` and obeys R93 (b), (c), (e) and (f). -/
def gfMul (log ilog : Table) (a b : Byte) : Byte :=
  if a = 0x00 ∨ b = 0x00 then 0x00
  else tableRead ilog (BitVec.ofNat 8 (((tableRead log a).toNat + (tableRead log b).toNat) % 255))

/-- `inv(a)`: field inverse by table; the index `255 - LOG[a]` is exact in 8 bits and is not reduced (R86, R87). Over
the tables of `gfWalk` it obeys R93 (d) and (g). -/
def gfInv (log ilog : Table) (a : Byte) : Byte :=
  if a = 0x00 then 0x00 else tableRead ilog (255 - tableRead log a)

/-- GFINIT: build the log/antilog tables (R88). -/
def execGfinit (s : State) : Outcome :=
  runCommand none buildGfTables s

/-- GFMUL a, b: field multiply (R89). -/
def execGfmul (a b : Byte) (s : State) : Outcome :=
  runCommand (checkGf s) (setResultByte (gfMul s.log s.ilog a b)) s

/-- GFINV a: field inverse (R90). -/
def execGfinv (a : Byte) (s : State) : Outcome :=
  runCommand (checkGf s) (setResultByte (gfInv s.log s.ilog a)) s

/-- LOGRD a: read one entry of the log table (R91). -/
def execLogrd (a : Byte) (s : State) : Outcome :=
  runCommand (checkGf s) (setResultByte (tableRead s.log a)) s

/-- ILOGRD e: read one entry of the antilog table (R92). -/
def execIlogrd (e : Byte) (s : State) : Outcome :=
  runCommand (checkGf s) (setResultByte (tableRead s.ilog e)) s

end Sys2Proof.Machine
end

