-- ==== Sys2Proof/Machine/Sbox.lean ====
section
/-! DEFINITION. The S-box generator (42_sbox.md): the affine transform, the generator loop, the patch, and SBINIT, SBOX,
ISBOX. -/

namespace Sys2Proof.Machine

/-- Output bit `bi` of the affine transform: five bits of `v` and a bit of 0x63 (R100). -/
def affineBit (v : Byte) (bi : Nat) : Bool :=
  v.getLsbD bi ^^ v.getLsbD ((bi + 4) % 8) ^^ v.getLsbD ((bi + 5) % 8) ^^ v.getLsbD ((bi + 6) % 8) ^^
    v.getLsbD ((bi + 7) % 8) ^^ (0x63 : Byte).getLsbD bi

/-- `affine(v)`: the eight output bits packed into a byte, bit 0 least significant (R100). -/
def affine (v : Byte) : Byte :=
  BitVec.ofBool (affineBit v 7) ++ BitVec.ofBool (affineBit v 6) ++ BitVec.ofBool (affineBit v 5) ++
    BitVec.ofBool (affineBit v 4) ++ BitVec.ofBool (affineBit v 3) ++ BitVec.ofBool (affineBit v 2) ++
    BitVec.ofBool (affineBit v 1) ++ BitVec.ofBool (affineBit v 0)

/-- `BuildSboxLoop` from index `i` on, `count` iterations left, the index running upward (R101). -/
def sboxLoop (log ilog : Table) : (count i : Nat) → Table × Table → Table × Table
  | 0, _, t => t
  | count + 1, i, (sbox, isbox) =>
    let s := affine (gfInv log ilog (BitVec.ofNat 8 i))
    sboxLoop log ilog count (i + 1) (tableWrite sbox (BitVec.ofNat 8 i) s, tableWrite isbox s (BitVec.ofNat 8 i))

/-- The three writes of the patch, after the whole loop (R102). -/
def sboxPatch (t : Table × Table) : Table × Table :=
  (tableWrite t.1 0x01 0x7c, tableWrite (tableWrite t.2 0x7c 0x01) 0x63 0x00)

/-- SBOX and ISBOX are replaced, and SB_VALID is set (R102). -/
def setSboxTables (t : Table × Table) (s : State) : State :=
  { s with sbox := t.1, isbox := t.2, sbValid := true }

/-- `BuildSbox` (R102): the loop, the patch; sets SB_VALID. -/
def buildSbox (s : State) : State :=
  setSboxTables (sboxPatch (sboxLoop s.log s.ilog 256 0 (s.sbox, s.isbox))) s

/-- The table rebuild inside KEYINIT and INITVEC: `BuildGfTables`, then `BuildSbox` (R122, R170). -/
def rebuildTables (s : State) : State := buildSbox (buildGfTables s)

/-- SBINIT: build the S-box tables (R104). -/
def execSbinit (s : State) : Outcome :=
  runCommand (checkGf s) buildSbox s

/-- SBOX a: read one entry of the forward S-box (R105). -/
def execSbox (a : Byte) (s : State) : Outcome :=
  runCommand (checkSb s) (setResultByte (tableRead s.sbox a)) s

/-- ISBOX a: read one entry of the inverse S-box (R106). -/
def execIsbox (a : Byte) (s : State) : Outcome :=
  runCommand (checkSb s) (setResultByte (tableRead s.isbox a)) s

end Sys2Proof.Machine
end

