-- ==== Sys2Proof/Machine/KeySchedule.lean ====
section
/-! DEFINITION. Key expansion (43_key_schedule.md): head load, RotWord, SubWord, the expansion loop, and KEYINIT, KSRD,
CTXREL. -/

namespace Sys2Proof.Machine

/-- Word `j` of the key: bytes `KEY[4j .. 4j+3]` (R117). -/
def keyWord (key : Memory) (j : Nat) : Word :=
  packWord (memRead key (4 * j)) (memRead key (4 * j + 1)) (memRead key (4 * j + 2)) (memRead key (4 * j + 3))

/-- `LoadKeyHead` from word `j` on, `count` words left (R117). -/
def loadKeyHead (key : Memory) : (count j : Nat) → Schedule → Schedule
  | 0, _, ks => ks
  | count + 1, j, ks => loadKeyHead key count (j + 1) (ksWrite ks j (keyWord key j))

/-- `RotWord(w)`: the byte sequence (b0, b1, b2, b3) becomes (b1, b2, b3, b0) (R118). -/
def rotWord (w : Word) : Word :=
  packWord (byteLane w 1) (byteLane w 2) (byteLane w 3) (byteLane w 0)

/-- `SubWord(w)`: the S-box on each byte (R119). -/
def subWord (sbox : Table) (w : Word) : Word :=
  packWord (tableRead sbox (byteLane w 0)) (tableRead sbox (byteLane w 1)) (tableRead sbox (byteLane w 2))
    (tableRead sbox (byteLane w 3))

/-- The word XORed with `KS[KIDX-NK]` in iteration `kidx` of R121, from the word before it and RCON. -/
def expandTemp (sbox : Table) (nk kidx : Nat) (rcon : Byte) (prev : Word) : Word :=
  if kidx % nk = 0 then subWord sbox (rotWord prev) ^^^ zext32 rcon
  else if nk > 6 ∧ kidx % nk = 4 then subWord sbox prev
  else prev

/-- RCON after iteration `kidx`: advanced by a field multiplication by 2 when it was used (R120, R121). -/
def nextRcon (log ilog : Table) (nk kidx : Nat) (rcon : Byte) : Byte :=
  if kidx % nk = 0 then gfMul log ilog rcon 0x02 else rcon

/-- The loop of `ExpandKey` from `kidx` (KIDX) and `rcon` (RCON) on, `count` iterations left; KIDX and RCON are the hidden
registers of R31 (R121, log 9). -/
def expandLoop (log ilog sbox : Table) (nk : Nat) : (count kidx : Nat) → (rcon : Byte) → Schedule → Schedule
  | 0, _, _, ks => ks
  | count + 1, kidx, rcon, ks =>
    expandLoop log ilog sbox nk count (kidx + 1) (nextRcon log ilog nk kidx rcon)
      (ksWrite ks kidx (ksRead ks (kidx - nk) ^^^ expandTemp sbox nk kidx rcon (ksRead ks (kidx - 1))))

/-- `ExpandKey`: iterations `NK .. 4*(R+1)-1` from RCON 1 (R121). -/
def expandKey (log ilog sbox : Table) (nk r : Nat) (ks : Schedule) : Schedule :=
  expandLoop log ilog sbox nk (scheduleLength r - nk) nk 0x01 ks

/-- Clears the words at index `i` and above, `count` words left (R122, R124). -/
def ksClearFrom : (count i : Nat) → Schedule → Schedule
  | 0, _, ks => ks
  | count + 1, i, ks => ksClearFrom count (i + 1) (ksWrite ks i 0)

/-- The schedule KEYINIT leaves: key head, expansion, zeros above (R122). -/
def keySchedule (log ilog sbox : Table) (key : Memory) (nk : Nat) (ks : Schedule) : Schedule :=
  ksClearFrom (60 - scheduleLength (nk + 6)) (scheduleLength (nk + 6))
    (expandKey log ilog sbox nk (nk + 6) (loadKeyHead key nk 0 ks))

/-- A context with `nk` key words, `nk + 6` rounds, the schedule `ks` and a zero state becomes active (R115, R122). -/
def setContext (nk : Nat) (ks : Schedule) (s : State) : State :=
  { s with
    nk := BitVec.ofNat 4 nk
    r := BitVec.ofNat 4 (nk + 6)
    ks := ks
    state := zeroMatrix
    ctxValid := true }

/-- KEYINIT after its check, tables already rebuilt: expand the key and install the context (R122). -/
def expandAndInstall (s : State) : State :=
  let nk := s.keylen.toNat / 4
  setContext nk (keySchedule s.log s.ilog s.sbox s.key nk s.ks) s

/-- KEYINIT after its check: rebuild the tables, load and expand the key, clear the words above the schedule and the
state, install the context (R122). -/
def installContext (s : State) : State := expandAndInstall (rebuildTables s)

/-- CTXREL: the context is cleared to zero (R124). -/
def releaseContext (s : State) : State :=
  { s with ctxValid := false, nk := 0, r := 0, ks := ksClearFrom 60 0 s.ks, state := zeroMatrix }

/-- KEYINIT: validate the key length, rebuild the tables, expand the key, install the context (R122). -/
def execKeyinit (s : State) : Outcome :=
  runCommand (checkKeyLength s) installContext s

/-- KSRD i: read one schedule word (R123). -/
def execKsrd (i : Byte) (s : State) : Outcome :=
  runCommand ((checkCtx s).or (checkScheduleIndex i s)) (setResultWord (ksRead s.ks i.toNat)) s

/-- CTXREL: release the context (R124). -/
def execCtxrel (s : State) : Outcome :=
  runCommand none releaseContext s

end Sys2Proof.Machine
end

