-- ==== Sys2Proof/Machine/BlockTransform.lean ====
section
/-! DEFINITION. The block transform (44_block_transform.md): the state functions, the two ciphers, the round-control
sequencer, and LDST, STST, ARK, SUBB, SHR, MIXC, ISUBB, ISHR, IMIXC, ENCBLK, DECBLK. -/

namespace Sys2Proof.Machine

/-- The state that block `n` of a buffer maps to (R140, R47). -/
def loadMatrix (ibuf : Memory) (n : Nat) : Matrix :=
  matrixOf (fun x y => memRead ibuf (blockAddr n (byteOfCell x y)))

/-- `LoadState(n)` (R140). -/
def loadState (n : Nat) (s : State) : State := { s with state := loadMatrix s.ibuf n }

/-- `StoreState(n)`: bytes 0 to 15 of the block in that order (R141). -/
def storeState (n : Nat) (s : State) : State :=
  setObuf (memWriteFrom (blockByte s.state) (blockAddr n 0) 16 0 s.obuf) s

/-- `AddRoundKey(n)` (R142). -/
def addRoundKey (ks : Schedule) (n : Nat) (S : Matrix) : Matrix :=
  matrixOf (fun x y => cell S x y ^^^ byteLane (ksRead ks (4 * n + y.val)) x.val)

/-- `SubBytes` with SBOX (R143), `InvSubBytes` with ISBOX (R146). -/
def substitute (t : Table) (S : Matrix) : Matrix := matrixOf (fun x y => tableRead t (cell S x y))

/-- `ShiftRows`: row `x` takes from column `(y + x) mod 4` (R144). -/
def shiftRows (S : Matrix) : Matrix := matrixOf (fun x y => cell S x (y + x))

/-- `InvShiftRows`: row `x` takes from column `(y - x) mod 4` (R147). -/
def invShiftRows (S : Matrix) : Matrix := matrixOf (fun x y => cell S x (y - x))

/-- One column of `MixColumns` (R145). -/
def mixColumn (log ilog : Table) (c0 c1 c2 c3 : Byte) (x : Fin 4) : Byte :=
  match x with
  | 0 => gfMul log ilog 0x02 c0 ^^^ gfMul log ilog 0x03 c1 ^^^ c2 ^^^ c3
  | 1 => c0 ^^^ gfMul log ilog 0x02 c1 ^^^ gfMul log ilog 0x03 c2 ^^^ c3
  | 2 => c0 ^^^ c1 ^^^ gfMul log ilog 0x02 c2 ^^^ gfMul log ilog 0x03 c3
  | 3 => gfMul log ilog 0x03 c0 ^^^ c1 ^^^ c2 ^^^ gfMul log ilog 0x02 c3

/-- `MixColumns` (R145). -/
def mixColumns (log ilog : Table) (S : Matrix) : Matrix :=
  matrixOf (fun x y => mixColumn log ilog (cell S 0 y) (cell S 1 y) (cell S 2 y) (cell S 3 y) x)

/-- One column of `InvMixColumns` (R148). -/
def invMixColumn (log ilog : Table) (c0 c1 c2 c3 : Byte) (x : Fin 4) : Byte :=
  match x with
  | 0 => gfMul log ilog 0x0e c0 ^^^ gfMul log ilog 0x0b c1 ^^^ gfMul log ilog 0x0d c2 ^^^ gfMul log ilog 0x09 c3
  | 1 => gfMul log ilog 0x09 c0 ^^^ gfMul log ilog 0x0e c1 ^^^ gfMul log ilog 0x0b c2 ^^^ gfMul log ilog 0x0d c3
  | 2 => gfMul log ilog 0x0d c0 ^^^ gfMul log ilog 0x09 c1 ^^^ gfMul log ilog 0x0e c2 ^^^ gfMul log ilog 0x0b c3
  | 3 => gfMul log ilog 0x0b c0 ^^^ gfMul log ilog 0x0d c1 ^^^ gfMul log ilog 0x09 c2 ^^^ gfMul log ilog 0x0e c3

/-- `InvMixColumns` (R148). -/
def invMixColumns (log ilog : Table) (S : Matrix) : Matrix :=
  matrixOf (fun x y => invMixColumn log ilog (cell S 0 y) (cell S 1 y) (cell S 2 y) (cell S 3 y) x)

/-- Rounds `round` (ROUND, R31), `round + 1`, ... of the forward cipher, `count` of them (R149, log 9). -/
def encryptRounds (s : State) : (count round : Nat) → Matrix → Matrix
  | 0, _, S => S
  | count + 1, round, S =>
    encryptRounds s count (round + 1)
      (addRoundKey s.ks round (mixColumns s.log s.ilog (shiftRows (substitute s.sbox S))))

/-- The forward cipher between its load and its store (R149). It reads the tables, KS, R and its argument alone, and
`decryptMatrix` undoes it (R152). -/
def encryptMatrix (s : State) (S : Matrix) : Matrix :=
  addRoundKey s.ks s.r.toNat (shiftRows (substitute s.sbox
    (encryptRounds s (s.r.toNat - 1) 1 (addRoundKey s.ks 0 S))))

/-- `EncryptBlock(n)` (R149): the load overwrites STATE whole, and only block `n` of OBUF is stored (R152). -/
def encryptBlock (n : Nat) (s : State) : State :=
  storeState n (setMatrix (encryptMatrix s) (loadState n s))

/-- Rounds `round`, `round - 1`, ..., 1 of the inverse cipher (ROUND, R31) (R150, log 9). -/
def decryptRounds (s : State) : (round : Nat) → Matrix → Matrix
  | 0, S => S
  | round + 1, S =>
    decryptRounds s round
      (invMixColumns s.log s.ilog (addRoundKey s.ks (round + 1) (substitute s.isbox (invShiftRows S))))

/-- The inverse cipher between its load and its store (R150). It reads the tables, KS, R and its argument alone, and
`encryptMatrix` undoes it (R152). -/
def decryptMatrix (s : State) (S : Matrix) : Matrix :=
  addRoundKey s.ks 0 (substitute s.isbox (invShiftRows
    (decryptRounds s (s.r.toNat - 1) (addRoundKey s.ks s.r.toNat S))))

/-- `DecryptBlock(n)` (R150): the load overwrites STATE whole, and only block `n` of OBUF is stored (R152). -/
def decryptBlock (n : Nat) (s : State) : State :=
  storeState n (setMatrix (decryptMatrix s) (loadState n s))

/-- A step of the round-control sequencer (R151). -/
inductive SeqStep where
  | load
  | ark (round : Nat)
  | subb
  | shr
  | mixc
  | isubb
  | ishr
  | imixc
  | store
deriving DecidableEq, Repr

/-- What the sequencer does in one step on block `n` (R151). -/
def runSeqStep (n : Nat) (step : SeqStep) (s : State) : State :=
  match step with
  | .load => loadState n s
  | .ark round => setMatrix (addRoundKey s.ks round) s
  | .subb => setMatrix (substitute s.sbox) s
  | .shr => setMatrix shiftRows s
  | .mixc => setMatrix (mixColumns s.log s.ilog) s
  | .isubb => setMatrix (substitute s.isbox) s
  | .ishr => setMatrix invShiftRows s
  | .imixc => setMatrix (invMixColumns s.log s.ilog) s
  | .store => storeState n s

/-- A list of sequencer steps in order (R151). -/
def runSchedule (n : Nat) : List SeqStep → State → State
  | [], s => s
  | step :: rest, s => runSchedule n rest (runSeqStep n step s)

/-- The four steps of forward round `k` (R151). -/
def encryptRoundSteps (k : Nat) : List SeqStep := [.subb, .shr, .mixc, .ark k]

/-- The four steps of inverse round `k` (R151). -/
def decryptRoundSteps (k : Nat) : List SeqStep := [.ishr, .isubb, .ark k, .imixc]

/-- The steps of `EncryptBlock` for `r` rounds (R151). -/
def encryptSchedule (r : Nat) : List SeqStep :=
  .load :: .ark 0 :: List.append ((List.range' 1 (r - 1)).flatMap encryptRoundSteps) [.subb, .shr, .ark r, .store]

/-- The steps of `DecryptBlock` for `r` rounds (R151). -/
def decryptSchedule (r : Nat) : List SeqStep :=
  .load :: .ark r ::
    List.append ((List.range' 1 (r - 1)).reverse.flatMap decryptRoundSteps) [.ishr, .isubb, .ark 0, .store]

/-- LDST n: load input block n into the state (R153). -/
def execLdst (n : Byte) (s : State) : Outcome :=
  runCommand ((checkCtx s).or (checkBlockIndex n)) (loadState n.toNat) s

/-- STST n: read the state back to output block n (R154). -/
def execStst (n : Byte) (s : State) : Outcome :=
  runCommand ((checkCtx s).or (checkBlockIndex n)) (storeState n.toNat) s

/-- ARK n: AddRoundKey with round n (R155). -/
def execArk (n : Byte) (s : State) : Outcome :=
  runCommand ((checkCtx s).or (checkRound n s)) (setMatrix (addRoundKey s.ks n.toNat)) s

/-- SUBB: SubBytes (R156). -/
def execSubb (s : State) : Outcome :=
  runCommand (checkCtx s) (setMatrix (substitute s.sbox)) s

/-- SHR: ShiftRows (R157). -/
def execShr (s : State) : Outcome :=
  runCommand (checkCtx s) (setMatrix shiftRows) s

/-- MIXC: MixColumns (R158). -/
def execMixc (s : State) : Outcome :=
  runCommand (checkCtx s) (setMatrix (mixColumns s.log s.ilog)) s

/-- ISUBB: InvSubBytes (R159). -/
def execIsubb (s : State) : Outcome :=
  runCommand (checkCtx s) (setMatrix (substitute s.isbox)) s

/-- ISHR: InvShiftRows (R160). -/
def execIshr (s : State) : Outcome :=
  runCommand (checkCtx s) (setMatrix invShiftRows) s

/-- IMIXC: InvMixColumns (R161). -/
def execImixc (s : State) : Outcome :=
  runCommand (checkCtx s) (setMatrix (invMixColumns s.log s.ilog)) s

/-- ENCBLK n: forward cipher on block n (R162). -/
def execEncblk (n : Byte) (s : State) : Outcome :=
  runCommand ((checkCtx s).or (checkBlockIndex n)) (encryptBlock n.toNat) s

/-- DECBLK n: inverse cipher on block n (R163). -/
def execDecblk (n : Byte) (s : State) : Outcome :=
  runCommand ((checkCtx s).or (checkBlockIndex n)) (decryptBlock n.toNat) s

end Sys2Proof.Machine
end

