-- ==== Sys2Proof/Machine/Buffer.lean ====
section
/-! DEFINITION. Table re-arm and the buffer processor (45_context_buffer.md): INITVEC, the length checks, ENC, DEC. -/

namespace Sys2Proof.Machine

/-- The length checks of `CheckBuffer`, in the order of R171. -/
def checkLengths (s : State) : Option ErrorKind :=
  if s.inlen ≠ s.outlen then some .lengthMismatch
  else if s.inlen.toNat % 16 ≠ 0 then some .invalidBlockAlignment
  else if s.inlen.toNat > Config.bufBytes then some .lengthExceedsBuffer
  else none

/-- `CheckBuffer` (R171). -/
def checkBuffer (s : State) : Option ErrorKind := (checkCtx s).or (checkLengths s)

/-- Blocks `blk` (BLK, R31), `blk + 1`, ..., `count` of them, in block order (R172, log 9). -/
def blockLoop (process : Nat → State → State) : (count blk : Nat) → State → State
  | 0, _, s => s
  | count + 1, blk, s => blockLoop process count (blk + 1) (process blk s)

/-- INITVEC: rebuild the tables (R170). -/
def execInitvec (s : State) : Outcome :=
  runCommand none rebuildTables s

/-- ENC: encrypt the buffer (R172). -/
def execEnc (s : State) : Outcome :=
  runCommand (checkBuffer s) (blockLoop encryptBlock (s.inlen.toNat / 16) 0) s

/-- DEC: decrypt the buffer (R173). -/
def execDec (s : State) : Outcome :=
  runCommand (checkBuffer s) (blockLoop decryptBlock (s.inlen.toNat / 16) 0) s

end Sys2Proof.Machine
end

