-- ==== Sys2Proof/Machine/Dispatch.lean ====
section
/-! DEFINITION. One arm per command: the meaning each command of 30_encoding.md R64 has. -/

namespace Sys2Proof.Machine

def exec (i : Instr) (s : State) : Host.Outcome State Fault Refusal :=
  match i with
  | .gfinit => Sys2Proof.Machine.execGfinit s
  | .gfmul a b => Sys2Proof.Machine.execGfmul a b s
  | .gfinv a => Sys2Proof.Machine.execGfinv a s
  | .logrd a => Sys2Proof.Machine.execLogrd a s
  | .ilogrd e => Sys2Proof.Machine.execIlogrd e s
  | .sbinit => Sys2Proof.Machine.execSbinit s
  | .sbox a => Sys2Proof.Machine.execSbox a s
  | .isbox a => Sys2Proof.Machine.execIsbox a s
  | .keyinit => Sys2Proof.Machine.execKeyinit s
  | .ksrd k => Sys2Proof.Machine.execKsrd k s
  | .ctxrel => Sys2Proof.Machine.execCtxrel s
  | .ldst n => Sys2Proof.Machine.execLdst n s
  | .stst n => Sys2Proof.Machine.execStst n s
  | .ark n => Sys2Proof.Machine.execArk n s
  | .subb => Sys2Proof.Machine.execSubb s
  | .shr => Sys2Proof.Machine.execShr s
  | .mixc => Sys2Proof.Machine.execMixc s
  | .isubb => Sys2Proof.Machine.execIsubb s
  | .ishr => Sys2Proof.Machine.execIshr s
  | .imixc => Sys2Proof.Machine.execImixc s
  | .encblk n => Sys2Proof.Machine.execEncblk n s
  | .decblk n => Sys2Proof.Machine.execDecblk n s
  | .initvec => Sys2Proof.Machine.execInitvec s
  | .enc => Sys2Proof.Machine.execEnc s
  | .dec => Sys2Proof.Machine.execDec s

end Sys2Proof.Machine
end

