-- ==== Sys2Proof/Machine/HostPort.lean ====
section
/-! DEFINITION. The host port (20_memory.md R40 to R44): the address map, the four accesses, and the issue of a command
by a write to CMD (30_encoding.md R71). -/

namespace Sys2Proof.Machine

/-- The 32-bit registers of R41. -/
inductive HostReg where
  | cmd
  | status
  | err
  | result
  | keylen
  | inlen
  | outlen
  | ctxinfo
  | bufsz
deriving DecidableEq, Repr

/-- What lies at an offset of the register block (R41). -/
inductive Location where
  /-- A byte of a 32-bit register. -/
  | register (reg : HostReg)
  | keyByte (k : Nat)
  | ibufByte (a : Nat)
  | obufByte (a : Nat)
  | reserved
  /-- No offset of the window (R40). -/
  | outside
deriving DecidableEq, Repr

/-- The register that owns an offset below 0x0024, each four bytes wide (R41). -/
def registerAt (offset : Nat) : HostReg :=
  if offset < 0x04 then .cmd
  else if offset < 0x08 then .status
  else if offset < 0x0C then .err
  else if offset < 0x10 then .result
  else if offset < 0x14 then .keylen
  else if offset < 0x18 then .inlen
  else if offset < 0x1C then .outlen
  else if offset < 0x20 then .ctxinfo
  else .bufsz

/-- The address map (R41); what lies above the end of a byte window is reserved. -/
def locate (offset : Nat) : Location :=
  if offset < 0x0024 then .register (registerAt offset)
  else if offset < 0x0040 then .reserved
  else if offset < 0x0040 + Config.keyBytes then .keyByte (offset - 0x0040)
  else if offset < 0x1000 then .reserved
  else if offset < 0x1000 + Config.bufBytes then .ibufByte (offset - 0x1000)
  else if offset < 0x2000 then .reserved
  else if offset < 0x2000 + Config.bufBytes then .obufByte (offset - 0x2000)
  else if offset < Config.windowBytes then .reserved
  else .outside

/-- What a read of a register returns; CMD is write-only and reads 0 (R28, R43). -/
def readRegister (reg : HostReg) (s : State) : Word :=
  match reg with
  | .cmd => 0
  | .status => statusWord s
  | .err => s.err
  | .result => s.result
  | .keylen => s.keylen
  | .inlen => s.inlen
  | .outlen => s.outlen
  | .ctxinfo => ctxinfoWord s
  | .bufsz => bufszWord

/-- Executing a command: a word that is no command raises IllegalCommand (R71, R65, R66). -/
def issueCommand (w : Word) (s : State) : Outcome :=
  match decode w with
  | .ok i => exec i s
  | .error _ => .next (raise .illegalCommand s)

/-- A write to a register: CMD executes, the three length registers store, the read-only ones ignore (R43, R44). -/
def writeRegister (reg : HostReg) (v : Word) (s : State) : Outcome :=
  match reg with
  | .cmd => issueCommand v s
  | .keylen => .next { s with keylen := v }
  | .inlen => .next { s with inlen := v }
  | .outlen => .next { s with outlen := v }
  | .status | .err | .result | .ctxinfo | .bufsz => .next s

/-- The value of a read goes to the host; the core does not change (R44). -/
def reply (v : HostReply) (s : State) : Outcome := .next { s with replies := s.replies ++ [v] }

/-- HostReadReg (R42, R43): a register at its exact offset, 0 at a reserved offset. -/
def hostReadReg (offset : Nat) (s : State) : Outcome :=
  match locate offset with
  | .outside => .fault (.offsetOutsideWindow offset)
  | .register reg =>
    if offset % 4 = 0 then reply (.word (readRegister reg s)) s else .refused (.misalignedRegisterAccess offset)
  | .reserved => if offset % 4 = 0 then reply (.word 0) s else .refused (.misalignedRegisterAccess offset)
  | .keyByte _ | .ibufByte _ | .obufByte _ => .refused (.wordAccessToByteWindow offset)

/-- HostWriteReg (R42, R43): a register at its exact offset, ignored at a reserved offset. -/
def hostWriteReg (offset : Nat) (v : Word) (s : State) : Outcome :=
  match locate offset with
  | .outside => .fault (.offsetOutsideWindow offset)
  | .register reg => if offset % 4 = 0 then writeRegister reg v s else .refused (.misalignedRegisterAccess offset)
  | .reserved => if offset % 4 = 0 then .next s else .refused (.misalignedRegisterAccess offset)
  | .keyByte _ | .ibufByte _ | .obufByte _ => .refused (.wordAccessToByteWindow offset)

/-- HostReadByte (R42, R43): a byte of a window, 0 at a reserved offset (log 7). -/
def hostReadByte (offset : Nat) (s : State) : Outcome :=
  match locate offset with
  | .outside => .fault (.offsetOutsideWindow offset)
  | .register _ => .refused (.byteAccessToRegister offset)
  | .reserved => reply (.byte 0) s
  | .keyByte k => reply (.byte (memRead s.key k)) s
  | .ibufByte a => reply (.byte (memRead s.ibuf a)) s
  | .obufByte a => reply (.byte (memRead s.obuf a)) s

/-- HostWriteByte (R42, R43): KEY and IBUF store, OBUF and reserved offsets ignore (log 7). -/
def hostWriteByte (offset : Nat) (v : Byte) (s : State) : Outcome :=
  match locate offset with
  | .outside => .fault (.offsetOutsideWindow offset)
  | .register _ => .refused (.byteAccessToRegister offset)
  | .reserved => .next s
  | .keyByte k => .next { s with key := memWrite s.key k v }
  | .ibufByte a => .next { s with ibuf := memWrite s.ibuf a v }
  | .obufByte _ => .next s

/-- One host access (R42). -/
def perform (access : HostAccess) (s : State) : Outcome :=
  match access with
  | .writeReg offset v => hostWriteReg offset v s
  | .readReg offset => hostReadReg offset s
  | .writeByte offset v => hostWriteByte offset v s
  | .readByte offset => hostReadByte offset s
  | .otherWidth offset => .refused (.unsupportedWidth offset)

/-- The machine's next transition: the oldest access of the host, if there is one; with none the core is idle and keeps
all its state (R53, R71, R199; log 1, log 2). -/
def hostStep (s : State) : Outcome :=
  match s.pending with
  | [] => .next s
  | access :: rest => perform access { s with pending := rest }

end Sys2Proof.Machine
end

