-- ==== Sys2Proof/Machine/Step.lean ====
section
/-! DEFINITION. One step: the host's oldest access (log 1); a command is one atomic transition (00_scope.md R9). -/

namespace Sys2Proof.Machine

/-- One transition of the machine. -/
def step (s : State) : Host.Outcome State Fault Refusal := hostStep s

/-- The state in which the host's next access is the write of a table word to CMD, so that the next step decodes and
runs it; the word's bits are numbered as 30_encoding.md R60 numbers them (log 13). -/
def State.withFetchWord (s : State) (nbits w : Nat) : State :=
  { s with pending := .writeReg 0x0000 (BitVec.ofNat 32 (w % 2 ^ nbits)) :: s.pending }

end Sys2Proof.Machine
end

