-- ==== Sys2Proof/Safety.lean ====
section
/-! DEFINITION. The terms claims are made in: the finished tables as 95_test_vectors.md prints them, the invariant of
10_state.md R34, the accesses that belong to the host interface (20_memory.md R42), and runs of several commands. -/

namespace Sys2Proof

/-- The mnemonic of a command (30_encoding.md R64). -/
def Instr.mnemonic : Instr → String
  | .gfinit => "GFINIT"
  | .gfmul _ _ => "GFMUL"
  | .gfinv _ => "GFINV"
  | .logrd _ => "LOGRD"
  | .ilogrd _ => "ILOGRD"
  | .sbinit => "SBINIT"
  | .sbox _ => "SBOX"
  | .isbox _ => "ISBOX"
  | .keyinit => "KEYINIT"
  | .ksrd _ => "KSRD"
  | .ctxrel => "CTXREL"
  | .ldst _ => "LDST"
  | .stst _ => "STST"
  | .ark _ => "ARK"
  | .subb => "SUBB"
  | .shr => "SHR"
  | .mixc => "MIXC"
  | .isubb => "ISUBB"
  | .ishr => "ISHR"
  | .imixc => "IMIXC"
  | .encblk _ => "ENCBLK"
  | .decblk _ => "DECBLK"
  | .initvec => "INITVEC"
  | .enc => "ENC"
  | .dec => "DEC"

/-- The operands of a command in the order of its fields (30_encoding.md R61). -/
def Instr.operands : Instr → List Byte
  | .gfmul a b => [a, b]
  | .gfinv a | .logrd a | .ilogrd a | .sbox a | .isbox a | .ksrd a | .ldst a | .stst a | .ark a | .encblk a | .decblk a =>
    [a]
  | .gfinit | .sbinit | .keyinit | .ctxrel | .subb | .shr | .mixc | .isubb | .ishr | .imixc | .initvec | .enc | .dec => []

/-- The bits of the operand fields that a format uses (30_encoding.md R60, R61). -/
def Format.operandBits : Format → Word
  | .N => 0x00000000
  | .A => 0x0000FF00
  | .AB => 0x00FFFF00

/-- The operand fields of a word that a format uses (30_encoding.md R61). -/
def Format.operandsOf (w : Word) : Format → List Byte
  | .N => []
  | .A => [w.extractLsb' 8 8]
  | .AB => [w.extractLsb' 8 8, w.extractLsb' 16 8]

/-- The commands that need an active context (60_exceptions.md R186, the row of `NoActiveContext`). -/
def Instr.needsContext : Instr → Bool
  | .ksrd _ | .ldst _ | .stst _ | .ark _ | .subb | .shr | .mixc | .isubb | .ishr | .imixc | .encblk _ | .decblk _ | .enc
  | .dec => true
  | .gfinit | .gfmul _ _ | .gfinv _ | .logrd _ | .ilogrd _ | .sbinit | .sbox _ | .isbox _ | .keyinit | .ctxrel
  | .initvec => false

end Sys2Proof

namespace Sys2Proof.Machine

/-- `LOG` after GFINIT (95_test_vectors.md section 2.1); entry 0 is the never-written one. -/
def specLogEntries : List Nat :=
  [[0x00, 0x00, 0x19, 0x01, 0x32, 0x02, 0x1a, 0xc6, 0x4b, 0xc7, 0x1b, 0x68, 0x33, 0xee, 0xdf, 0x03],
    [0x64, 0x04, 0xe0, 0x0e, 0x34, 0x8d, 0x81, 0xef, 0x4c, 0x71, 0x08, 0xc8, 0xf8, 0x69, 0x1c, 0xc1],
    [0x7d, 0xc2, 0x1d, 0xb5, 0xf9, 0xb9, 0x27, 0x6a, 0x4d, 0xe4, 0xa6, 0x72, 0x9a, 0xc9, 0x09, 0x78],
    [0x65, 0x2f, 0x8a, 0x05, 0x21, 0x0f, 0xe1, 0x24, 0x12, 0xf0, 0x82, 0x45, 0x35, 0x93, 0xda, 0x8e],
    [0x96, 0x8f, 0xdb, 0xbd, 0x36, 0xd0, 0xce, 0x94, 0x13, 0x5c, 0xd2, 0xf1, 0x40, 0x46, 0x83, 0x38],
    [0x66, 0xdd, 0xfd, 0x30, 0xbf, 0x06, 0x8b, 0x62, 0xb3, 0x25, 0xe2, 0x98, 0x22, 0x88, 0x91, 0x10],
    [0x7e, 0x6e, 0x48, 0xc3, 0xa3, 0xb6, 0x1e, 0x42, 0x3a, 0x6b, 0x28, 0x54, 0xfa, 0x85, 0x3d, 0xba],
    [0x2b, 0x79, 0x0a, 0x15, 0x9b, 0x9f, 0x5e, 0xca, 0x4e, 0xd4, 0xac, 0xe5, 0xf3, 0x73, 0xa7, 0x57],
    [0xaf, 0x58, 0xa8, 0x50, 0xf4, 0xea, 0xd6, 0x74, 0x4f, 0xae, 0xe9, 0xd5, 0xe7, 0xe6, 0xad, 0xe8],
    [0x2c, 0xd7, 0x75, 0x7a, 0xeb, 0x16, 0x0b, 0xf5, 0x59, 0xcb, 0x5f, 0xb0, 0x9c, 0xa9, 0x51, 0xa0],
    [0x7f, 0x0c, 0xf6, 0x6f, 0x17, 0xc4, 0x49, 0xec, 0xd8, 0x43, 0x1f, 0x2d, 0xa4, 0x76, 0x7b, 0xb7],
    [0xcc, 0xbb, 0x3e, 0x5a, 0xfb, 0x60, 0xb1, 0x86, 0x3b, 0x52, 0xa1, 0x6c, 0xaa, 0x55, 0x29, 0x9d],
    [0x97, 0xb2, 0x87, 0x90, 0x61, 0xbe, 0xdc, 0xfc, 0xbc, 0x95, 0xcf, 0xcd, 0x37, 0x3f, 0x5b, 0xd1],
    [0x53, 0x39, 0x84, 0x3c, 0x41, 0xa2, 0x6d, 0x47, 0x14, 0x2a, 0x9e, 0x5d, 0x56, 0xf2, 0xd3, 0xab],
    [0x44, 0x11, 0x92, 0xd9, 0x23, 0x20, 0x2e, 0x89, 0xb4, 0x7c, 0xb8, 0x26, 0x77, 0x99, 0xe3, 0xa5],
    [0x67, 0x4a, 0xed, 0xde, 0xc5, 0x31, 0xfe, 0x18, 0x0d, 0x63, 0x8c, 0x80, 0xc0, 0xf7, 0x70, 0x07]].flatten

/-- `ILOG` after GFINIT (95_test_vectors.md section 2.1); entry 255 is the never-written one. -/
def specIlogEntries : List Nat :=
  [[0x01, 0x03, 0x05, 0x0f, 0x11, 0x33, 0x55, 0xff, 0x1a, 0x2e, 0x72, 0x96, 0xa1, 0xf8, 0x13, 0x35],
    [0x5f, 0xe1, 0x38, 0x48, 0xd8, 0x73, 0x95, 0xa4, 0xf7, 0x02, 0x06, 0x0a, 0x1e, 0x22, 0x66, 0xaa],
    [0xe5, 0x34, 0x5c, 0xe4, 0x37, 0x59, 0xeb, 0x26, 0x6a, 0xbe, 0xd9, 0x70, 0x90, 0xab, 0xe6, 0x31],
    [0x53, 0xf5, 0x04, 0x0c, 0x14, 0x3c, 0x44, 0xcc, 0x4f, 0xd1, 0x68, 0xb8, 0xd3, 0x6e, 0xb2, 0xcd],
    [0x4c, 0xd4, 0x67, 0xa9, 0xe0, 0x3b, 0x4d, 0xd7, 0x62, 0xa6, 0xf1, 0x08, 0x18, 0x28, 0x78, 0x88],
    [0x83, 0x9e, 0xb9, 0xd0, 0x6b, 0xbd, 0xdc, 0x7f, 0x81, 0x98, 0xb3, 0xce, 0x49, 0xdb, 0x76, 0x9a],
    [0xb5, 0xc4, 0x57, 0xf9, 0x10, 0x30, 0x50, 0xf0, 0x0b, 0x1d, 0x27, 0x69, 0xbb, 0xd6, 0x61, 0xa3],
    [0xfe, 0x19, 0x2b, 0x7d, 0x87, 0x92, 0xad, 0xec, 0x2f, 0x71, 0x93, 0xae, 0xe9, 0x20, 0x60, 0xa0],
    [0xfb, 0x16, 0x3a, 0x4e, 0xd2, 0x6d, 0xb7, 0xc2, 0x5d, 0xe7, 0x32, 0x56, 0xfa, 0x15, 0x3f, 0x41],
    [0xc3, 0x5e, 0xe2, 0x3d, 0x47, 0xc9, 0x40, 0xc0, 0x5b, 0xed, 0x2c, 0x74, 0x9c, 0xbf, 0xda, 0x75],
    [0x9f, 0xba, 0xd5, 0x64, 0xac, 0xef, 0x2a, 0x7e, 0x82, 0x9d, 0xbc, 0xdf, 0x7a, 0x8e, 0x89, 0x80],
    [0x9b, 0xb6, 0xc1, 0x58, 0xe8, 0x23, 0x65, 0xaf, 0xea, 0x25, 0x6f, 0xb1, 0xc8, 0x43, 0xc5, 0x54],
    [0xfc, 0x1f, 0x21, 0x63, 0xa5, 0xf4, 0x07, 0x09, 0x1b, 0x2d, 0x77, 0x99, 0xb0, 0xcb, 0x46, 0xca],
    [0x45, 0xcf, 0x4a, 0xde, 0x79, 0x8b, 0x86, 0x91, 0xa8, 0xe3, 0x3e, 0x42, 0xc6, 0x51, 0xf3, 0x0e],
    [0x12, 0x36, 0x5a, 0xee, 0x29, 0x7b, 0x8d, 0x8c, 0x8f, 0x8a, 0x85, 0x94, 0xa7, 0xf2, 0x0d, 0x17],
    [0x39, 0x4b, 0xdd, 0x7c, 0x84, 0x97, 0xa2, 0xfd, 0x1c, 0x24, 0x6c, 0xb4, 0xc7, 0x52, 0xf6, 0x00]].flatten

/-- `SBOX` after SBINIT (95_test_vectors.md section 2.2). -/
def specSboxEntries : List Nat :=
  [[0x63, 0x7c, 0x77, 0x7b, 0xf2, 0x6b, 0x6f, 0xc5, 0x30, 0x01, 0x67, 0x2b, 0xfe, 0xd7, 0xab, 0x76],
    [0xca, 0x82, 0xc9, 0x7d, 0xfa, 0x59, 0x47, 0xf0, 0xad, 0xd4, 0xa2, 0xaf, 0x9c, 0xa4, 0x72, 0xc0],
    [0xb7, 0xfd, 0x93, 0x26, 0x36, 0x3f, 0xf7, 0xcc, 0x34, 0xa5, 0xe5, 0xf1, 0x71, 0xd8, 0x31, 0x15],
    [0x04, 0xc7, 0x23, 0xc3, 0x18, 0x96, 0x05, 0x9a, 0x07, 0x12, 0x80, 0xe2, 0xeb, 0x27, 0xb2, 0x75],
    [0x09, 0x83, 0x2c, 0x1a, 0x1b, 0x6e, 0x5a, 0xa0, 0x52, 0x3b, 0xd6, 0xb3, 0x29, 0xe3, 0x2f, 0x84],
    [0x53, 0xd1, 0x00, 0xed, 0x20, 0xfc, 0xb1, 0x5b, 0x6a, 0xcb, 0xbe, 0x39, 0x4a, 0x4c, 0x58, 0xcf],
    [0xd0, 0xef, 0xaa, 0xfb, 0x43, 0x4d, 0x33, 0x85, 0x45, 0xf9, 0x02, 0x7f, 0x50, 0x3c, 0x9f, 0xa8],
    [0x51, 0xa3, 0x40, 0x8f, 0x92, 0x9d, 0x38, 0xf5, 0xbc, 0xb6, 0xda, 0x21, 0x10, 0xff, 0xf3, 0xd2],
    [0xcd, 0x0c, 0x13, 0xec, 0x5f, 0x97, 0x44, 0x17, 0xc4, 0xa7, 0x7e, 0x3d, 0x64, 0x5d, 0x19, 0x73],
    [0x60, 0x81, 0x4f, 0xdc, 0x22, 0x2a, 0x90, 0x88, 0x46, 0xee, 0xb8, 0x14, 0xde, 0x5e, 0x0b, 0xdb],
    [0xe0, 0x32, 0x3a, 0x0a, 0x49, 0x06, 0x24, 0x5c, 0xc2, 0xd3, 0xac, 0x62, 0x91, 0x95, 0xe4, 0x79],
    [0xe7, 0xc8, 0x37, 0x6d, 0x8d, 0xd5, 0x4e, 0xa9, 0x6c, 0x56, 0xf4, 0xea, 0x65, 0x7a, 0xae, 0x08],
    [0xba, 0x78, 0x25, 0x2e, 0x1c, 0xa6, 0xb4, 0xc6, 0xe8, 0xdd, 0x74, 0x1f, 0x4b, 0xbd, 0x8b, 0x8a],
    [0x70, 0x3e, 0xb5, 0x66, 0x48, 0x03, 0xf6, 0x0e, 0x61, 0x35, 0x57, 0xb9, 0x86, 0xc1, 0x1d, 0x9e],
    [0xe1, 0xf8, 0x98, 0x11, 0x69, 0xd9, 0x8e, 0x94, 0x9b, 0x1e, 0x87, 0xe9, 0xce, 0x55, 0x28, 0xdf],
    [0x8c, 0xa1, 0x89, 0x0d, 0xbf, 0xe6, 0x42, 0x68, 0x41, 0x99, 0x2d, 0x0f, 0xb0, 0x54, 0xbb, 0x16]].flatten

/-- `ISBOX` after SBINIT (95_test_vectors.md section 2.2). -/
def specIsboxEntries : List Nat :=
  [[0x52, 0x09, 0x6a, 0xd5, 0x30, 0x36, 0xa5, 0x38, 0xbf, 0x40, 0xa3, 0x9e, 0x81, 0xf3, 0xd7, 0xfb],
    [0x7c, 0xe3, 0x39, 0x82, 0x9b, 0x2f, 0xff, 0x87, 0x34, 0x8e, 0x43, 0x44, 0xc4, 0xde, 0xe9, 0xcb],
    [0x54, 0x7b, 0x94, 0x32, 0xa6, 0xc2, 0x23, 0x3d, 0xee, 0x4c, 0x95, 0x0b, 0x42, 0xfa, 0xc3, 0x4e],
    [0x08, 0x2e, 0xa1, 0x66, 0x28, 0xd9, 0x24, 0xb2, 0x76, 0x5b, 0xa2, 0x49, 0x6d, 0x8b, 0xd1, 0x25],
    [0x72, 0xf8, 0xf6, 0x64, 0x86, 0x68, 0x98, 0x16, 0xd4, 0xa4, 0x5c, 0xcc, 0x5d, 0x65, 0xb6, 0x92],
    [0x6c, 0x70, 0x48, 0x50, 0xfd, 0xed, 0xb9, 0xda, 0x5e, 0x15, 0x46, 0x57, 0xa7, 0x8d, 0x9d, 0x84],
    [0x90, 0xd8, 0xab, 0x00, 0x8c, 0xbc, 0xd3, 0x0a, 0xf7, 0xe4, 0x58, 0x05, 0xb8, 0xb3, 0x45, 0x06],
    [0xd0, 0x2c, 0x1e, 0x8f, 0xca, 0x3f, 0x0f, 0x02, 0xc1, 0xaf, 0xbd, 0x03, 0x01, 0x13, 0x8a, 0x6b],
    [0x3a, 0x91, 0x11, 0x41, 0x4f, 0x67, 0xdc, 0xea, 0x97, 0xf2, 0xcf, 0xce, 0xf0, 0xb4, 0xe6, 0x73],
    [0x96, 0xac, 0x74, 0x22, 0xe7, 0xad, 0x35, 0x85, 0xe2, 0xf9, 0x37, 0xe8, 0x1c, 0x75, 0xdf, 0x6e],
    [0x47, 0xf1, 0x1a, 0x71, 0x1d, 0x29, 0xc5, 0x89, 0x6f, 0xb7, 0x62, 0x0e, 0xaa, 0x18, 0xbe, 0x1b],
    [0xfc, 0x56, 0x3e, 0x4b, 0xc6, 0xd2, 0x79, 0x20, 0x9a, 0xdb, 0xc0, 0xfe, 0x78, 0xcd, 0x5a, 0xf4],
    [0x1f, 0xdd, 0xa8, 0x33, 0x88, 0x07, 0xc7, 0x31, 0xb1, 0x12, 0x10, 0x59, 0x27, 0x80, 0xec, 0x5f],
    [0x60, 0x51, 0x7f, 0xa9, 0x19, 0xb5, 0x4a, 0x0d, 0x2d, 0xe5, 0x7a, 0x9f, 0x93, 0xc9, 0x9c, 0xef],
    [0xa0, 0xe0, 0x3b, 0x4d, 0xae, 0x2a, 0xf5, 0xb0, 0xc8, 0xeb, 0xbb, 0x3c, 0x83, 0x53, 0x99, 0x61],
    [0x17, 0x2b, 0x04, 0x7e, 0xba, 0x77, 0xd6, 0x26, 0xe1, 0x69, 0x14, 0x63, 0x55, 0x21, 0x0c, 0x7d]].flatten

/-- `LOG[v]` as printed, for `v` in 1..255. -/
def specLog (v : Byte) : Byte := BitVec.ofNat 8 (specLogEntries.getD v.toNat 0)

/-- `ILOG[e]` as printed, for `e` in 0..254. -/
def specIlog (e : Byte) : Byte := BitVec.ofNat 8 (specIlogEntries.getD e.toNat 0)

/-- `SBOX[i]` as printed. -/
def specSbox (i : Byte) : Byte := BitVec.ofNat 8 (specSboxEntries.getD i.toNat 0)

/-- `ISBOX[i]` as printed. -/
def specIsbox (i : Byte) : Byte := BitVec.ofNat 8 (specIsboxEntries.getD i.toNat 0)

/-- Two tables hold the walk's contents on the entries the walk writes; `LOG[0]` and `ILOG[255]` are free (R84). -/
def GoodTables (log ilog : Table) : Prop :=
  (∀ v : Byte, v ≠ 0 → tableRead log v = specLog v) ∧ (∀ e : Byte, e ≠ 255 → tableRead ilog e = specIlog e)

/-- LOG and ILOG hold the walk's contents. -/
def GfTablesBuilt (s : State) : Prop := GoodTables s.log s.ilog

/-- SBOX and ISBOX hold the finished tables (R103). -/
def SboxTablesBuilt (s : State) : Prop :=
  ∀ i : Byte, tableRead s.sbox i = specSbox i ∧ tableRead s.isbox i = specIsbox i

/-- All four tables hold their finished contents. -/
def TablesBuilt (s : State) : Prop := GfTablesBuilt s ∧ SboxTablesBuilt s

/-- The three shapes a context can have (R34 (c)). -/
def ContextShape (s : State) : Prop :=
  (s.nk = 4 ∧ s.r = 10) ∨ (s.nk = 6 ∧ s.r = 12) ∨ (s.nk = 8 ∧ s.r = 14)

/-- The invariant of R34, with the two entries no command writes (R11, R12) and the canonical form of the byte windows
(log 11). -/
structure Inv (s : State) : Prop where
  /-- R34 (a), R16. -/
  sb_gf : s.sbValid = true → s.gfValid = true
  /-- R34 (a), R16. -/
  ctx_sb : s.ctxValid = true → s.sbValid = true
  /-- R34 (b). -/
  released : s.ctxValid = false → s.nk = 0 ∧ s.r = 0 ∧ s.ks = Vector.replicate 60 0 ∧ s.state = zeroMatrix
  /-- R34 (c). -/
  shape : s.ctxValid = true → ContextShape s
  /-- R34 (c): KS is the expansion of its own first NK words. -/
  expanded : s.ctxValid = true → expandKey s.log s.ilog s.sbox s.nk.toNat s.r.toNat s.ks = s.ks
  /-- R34 (d), R84: the two entries the walk never writes keep their reset values. -/
  unwritten : tableRead s.log 0 = Config.log0 ∧ tableRead s.ilog 255 = Config.ilog255
  /-- R34 (d). -/
  gf : s.gfValid = true → GfTablesBuilt s
  /-- R34 (e). -/
  sb : s.sbValid = true → SboxTablesBuilt s
  /-- R34 (f). -/
  outcome : ¬(s.ok = true ∧ s.fail = true) ∧ (s.err = 0 ↔ s.fail = false)
  /-- KEY is a window of 32 bytes in canonical form. -/
  key : s.key.wf = true ∧ s.key.within Config.keyBytes = true
  /-- IBUF is a window of BUF_BYTES bytes in canonical form. -/
  ibuf : s.ibuf.wf = true ∧ s.ibuf.within Config.bufBytes = true
  /-- OBUF is a window of BUF_BYTES bytes in canonical form. -/
  obuf : s.obuf.wf = true ∧ s.obuf.within Config.bufBytes = true

/-- The offsets of the three byte windows (R41). -/
def inByteWindow (offset : Nat) : Bool :=
  (0x0040 ≤ offset && offset < 0x0060) || (0x1000 ≤ offset && offset < 0x1000 + Config.bufBytes) ||
    (0x2000 ≤ offset && offset < 0x2000 + Config.bufBytes)

/-- The accesses R42 and R43 give a meaning: aligned 32-bit accesses outside the byte windows, 8-bit accesses outside
the registers, inside the 12 KiB window of R40. -/
def HostAccess.inInterface : HostAccess → Bool
  | .writeReg offset _ | .readReg offset => offset % 4 == 0 && offset < 0x3000 && !inByteWindow offset
  | .writeByte offset _ | .readByte offset => 0x0024 ≤ offset && offset < 0x3000
  | .otherWidth _ => false

/-- The offset of an access. -/
def HostAccess.offset : HostAccess → Nat
  | .writeReg offset _ | .readReg offset | .writeByte offset _ | .readByte offset | .otherWidth offset => offset

/-- A safe state: the invariant holds, and every access the host has waiting belongs to the interface. -/
structure Safe (s : State) : Prop where
  inv : Inv s
  pending : s.pending.all HostAccess.inInterface = true

/-- Commands one after another, each from the state the one before it left. -/
def execAll : List Instr → State → Outcome
  | [], s => .next s
  | i :: rest, s =>
    match exec i s with
    | .next t => execAll rest t
    | .fault f => .fault f
    | .refused r => .refused r

/-- The forward cipher on block `n` as single commands, `r` rounds (30_encoding.md R70). -/
def encryptCommands (n : Byte) (r : Nat) : List Instr :=
  .ldst n :: .ark 0 ::
    List.append ((List.range' 1 (r - 1)).flatMap (fun k => [Instr.subb, .shr, .mixc, .ark (BitVec.ofNat 8 k)]))
      [Instr.subb, .shr, .ark (BitVec.ofNat 8 r), .stst n]

/-- The inverse cipher on block `n` as single commands, `r` rounds (30_encoding.md R70). -/
def decryptCommands (n : Byte) (r : Nat) : List Instr :=
  .ldst n :: .ark (BitVec.ofNat 8 r) ::
    List.append
      ((List.range' 1 (r - 1)).reverse.flatMap (fun k => [Instr.ishr, .isubb, .ark (BitVec.ofNat 8 k), .imixc]))
      [Instr.ishr, .isubb, .ark 0, .stst n]

/-- The values RCON takes, in order: entry `k` is the constant of the `k+1`-th use (43_key_schedule.md R120). -/
def roundConstants : List Byte := [0x01, 0x02, 0x04, 0x08, 0x10, 0x20, 0x40, 0x80, 0x1b, 0x36, 0x6c]

/-- The word XORed into `KS[i]` by the sentence of R121, from the word before it: RotWord, SubWord and the round constant
at a multiple of `Nk`, SubWord alone at 4 modulo `Nk` when `Nk > 6`. -/
def scheduleTemp (nk i : Nat) (sub : Word → Word) (prev : Word) : Word :=
  if i % nk = 0 then sub (rotWord prev) ^^^ zext32 (roundConstants.getD (i / nk - 1) 0)
  else if nk > 6 ∧ i % nk = 4 then sub prev
  else prev

/-- SubWord over the printed S-box (R119, R103). -/
def specSubWord (w : Word) : Word :=
  packWord (specSbox (byteLane w 0)) (specSbox (byteLane w 1)) (specSbox (byteLane w 2)) (specSbox (byteLane w 3))

/-- The codes a command may leave in ERR when it fails (60_exceptions.md R186, the "raised by" column). -/
def raisableCodes : Instr → List Word
  | .gfinit | .ctxrel | .initvec => []
  | .gfmul _ _ | .gfinv _ | .logrd _ | .ilogrd _ | .sbinit | .sbox _ | .isbox _ => [7]
  | .keyinit => [1]
  | .ksrd _ | .ldst _ | .stst _ | .ark _ | .encblk _ | .decblk _ => [6, 9]
  | .subb | .shr | .mixc | .isubb | .ishr | .imixc => [6]
  | .enc | .dec => [6, 3, 4, 10]

/-- The matrix with first row `c` whose row `x` is that row rotated right by `x` places (44_block_transform.md R145,
R148). -/
def circulant (c : Fin 4 → Byte) (x k : Fin 4) : Byte := c (k - x)

/-- The host's next access is `a`. -/
def State.withAccess (s : State) (a : HostAccess) : State := { s with pending := a :: s.pending }

/-- The three validity flags (R213). -/
def validity (s : State) : Bool × Bool × Bool := (s.gfValid, s.sbValid, s.ctxValid)

/-- The flags after a command that succeeded (70_reset_and_hazards.md R213). -/
def validityAfter (i : Instr) (f : Bool × Bool × Bool) : Bool × Bool × Bool :=
  match i with
  | .gfinit => (true, f.2.1, f.2.2)
  | .sbinit => (f.1, true, f.2.2)
  | .initvec => (true, true, f.2.2)
  | .keyinit => (true, true, true)
  | .ctxrel => (f.1, f.2.1, false)
  | .gfmul _ _ | .gfinv _ | .logrd _ | .ilogrd _ | .sbox _ | .isbox _ | .ksrd _ | .ldst _ | .stst _ | .ark _ => f
  | .subb | .shr | .mixc | .isubb | .ishr | .imixc | .encblk _ | .decblk _ | .enc | .dec => f

end Sys2Proof.Machine
end

