-- ==== Sys2Proof/WellFormed.lean ====
section
/-! DEFINITION. Well-formed command words, said by the opcode table alone (30_encoding.md R61, R65, R66) and not by the
decoder: the opcode is assigned, and the fields that the opcode's format does not use are zero. A command of Instr is
well formed when its word is. -/

namespace Sys2Proof

/-- The row of R64 whose opcode a word carries, if there is one. -/
def rowOf (w : Word) : Option Row := opcodeTable.find? (fun row => row.op == opField w)

/-- Check 1: OP is one of the 25 values of R64 (R66). -/
def opcodeAssigned (w : Word) : Bool := (rowOf w).isSome

/-- Check 2: the must-be-zero fields of the opcode's format are zero (R61, R65). -/
def reservedZero (w : Word) : Bool :=
  match (rowOf w).map Row.format with
  | some .N => aField w == 0 && bField w == 0 && zField w == 0
  | some .A => bField w == 0 && zField w == 0
  | some .AB => zField w == 0
  | none => true

/-- A word that is a command of R64. -/
def wordWellFormed (w : Word) : Bool := opcodeAssigned w && reservedZero w

/-- A command whose word is well formed. The operands are bytes by their type (R62), so no command of Instr has a field
out of range. -/
def Instr.wellFormed (i : Instr) : Bool := wordWellFormed (encode i)

end Sys2Proof
end

