-- ==== Sys2Proof/Certificates/Slice0/Obligations.lean ====
section
/-! DEFINITION. The statements for the provers, in the order of spec/: encoding, host port, GF tables, S-box, key schedule,
block transform, buffers, and the whole machine. -/

open Sys2Proof Sys2Proof.Machine

/-- Decoding an encoded command gives it back, for all 25 commands and every operand byte (30_encoding.md R60, R61, R64). -/
def Obligations.DecodeOfEncode : Prop := ∀ i : Instr, decode (encode i) = .ok i

/-- A word that decodes to a command is that command's word: no bit is dropped (30_encoding.md R60, R61, R64). -/
def Obligations.EncodeOfDecode : Prop := ∀ (w : Word) (i : Instr), decode w = .ok i → encode i = w

/-- R67: the table has 25 rows with distinct opcodes, and decoding is the look-up and the reserved-bit test of the rule. -/
def Obligations.DecodingIsTotalByTheTable : Prop :=
  opcodeTable.length = 25 ∧ opcodeTable.Pairwise (fun p q => p.op ≠ q.op) ∧
    ∀ w : Word,
      match opcodeTable.find? (fun row => row.op == w.extractLsb' 0 8) with
      | none => decode w = .error .unassignedOpcode
      | some row =>
        if w &&& ~~~(0xFF ||| row.format.operandBits) ≠ 0 then decode w = .error .reservedBits
        else ∃ i, decode w = .ok i ∧ i.mnemonic = row.mnemonic ∧ i.operands = row.format.operandsOf w

/-- R61: a word encodes the command of a row exactly when its masked bits are the row's opcode, and then it is
`OP + A*0x100 + B*0x10000` with the fields the format has. -/
def Obligations.WordMatchesItsRowExactly : Prop :=
  ∀ (w : Word) (row : Row), row ∈ opcodeTable →
    ((w &&& row.format.mask = row.op.setWidth 32) ↔ ∃ i, decode w = .ok i ∧ i.mnemonic = row.mnemonic) ∧
      ∀ i, decode w = .ok i → i.mnemonic = row.mnemonic →
        (i.operands.length = match row.format with | .N => 0 | .A => 1 | .AB => 2) ∧
          w.toNat = row.op.toNat + (i.operands.getD 0 0).toNat * 0x100 + (i.operands.getD 1 0).toNat * 0x10000

/-- Words written out in 30_encoding.md to 45_context_buffer.md and 95_test_vectors.md decode to their commands. -/
def Obligations.SampleWordsDecode : Prop :=
  decode 0x00000010 = .ok .gfinit ∧ decode 0x00835711 = .ok (.gfmul 0x57 0x83) ∧ decode 0x00005312 = .ok (.gfinv 0x53) ∧
    decode 0x00000213 = .ok (.logrd 0x02) ∧ decode 0x00001914 = .ok (.ilogrd 0x19) ∧ decode 0x00000020 = .ok .sbinit ∧
    decode 0x00005321 = .ok (.sbox 0x53) ∧ decode 0x0000ed22 = .ok (.isbox 0xed) ∧ decode 0x00000030 = .ok .keyinit ∧
    decode 0x00000431 = .ok (.ksrd 4) ∧ decode 0x00000032 = .ok .ctxrel ∧ decode 0x00000140 = .ok (.ldst 1) ∧
    decode 0x0000FF41 = .ok (.stst 255) ∧ decode 0x00000A42 = .ok (.ark 10) ∧ decode 0x00000043 = .ok .subb ∧
    decode 0x00000044 = .ok .shr ∧ decode 0x00000045 = .ok .mixc ∧ decode 0x00000046 = .ok .isubb ∧
    decode 0x00000047 = .ok .ishr ∧ decode 0x00000048 = .ok .imixc ∧ decode 0x0000004E = .ok (.encblk 0) ∧
    decode 0x0000004F = .ok (.decblk 0) ∧ decode 0x00000050 = .ok .initvec ∧ decode 0x00000051 = .ok .enc ∧
    decode 0x00000052 = .ok .dec

/-- R65, R66: a word that no row of the table accepts, written to CMD, fails with IllegalCommand (code 8) and does nothing
else; the all-zero and the all-ones word are such words. -/
def Obligations.IllegalWordOnlyReportsIllegalCommand : Prop :=
  (∀ (s : State) (w : Word), (∀ row ∈ opcodeTable, row.accepts w = false) →
    step (s.withAccess (.writeReg 0x0000 w)) = .next { s with ok := false, fail := true, err := 8 }) ∧
    (∀ row ∈ opcodeTable, row.accepts 0x00000000 = false) ∧ ∀ row ∈ opcodeTable, row.accepts 0xFFFFFFFF = false

/-- A step whose access is a write to CMD runs `exec` of the decoded command (R28, R71), or records IllegalCommand (R65,
R66); a read of CMD returns 0 (R28). That `withFetchWord` presents exactly such a write, with the word's bits as the table
numbers them, and the lists of accesses and replies, are the model's choice (log 1, log 13). -/
def Obligations.StepRunsDecodedCommand : Prop :=
  ∀ (s : State) (w : Word),
    (∀ i, decode w = .ok i →
      step (s.withAccess (.writeReg 0x0000 w)) = exec i s ∧ step (s.withFetchWord 32 w.toNat) = exec i s) ∧
      (∀ e, decode w = .error e →
        step (s.withAccess (.writeReg 0x0000 w)) = .next { s with ok := false, fail := true, err := 8 }) ∧
      step (s.withAccess (.readReg 0x0000)) = .next { s with replies := s.replies ++ [.word 0] }

/-- With no access waiting the core keeps its state: nothing but a CMD write starts a command (R71, R199). The model's
reading (log 2). -/
def Obligations.IdleStepKeepsTheState : Prop := ∀ s : State, s.pending = [] → step s = .next s

/-- R24: STATUS reads OK, FAIL, GF_VALID, SB_VALID, CTX_VALID in bits 0 to 4 and zero above, and cannot be written. -/
def Obligations.StatusReadsTheFlags : Prop :=
  ∀ s : State,
    (∃ v : Word, step (s.withAccess (.readReg 0x0004)) = .next { s with replies := s.replies ++ [.word v] } ∧
      v.toNat = s.ok.toNat + 2 * s.fail.toNat + 4 * s.gfValid.toNat + 8 * s.sbValid.toNat + 16 * s.ctxValid.toNat) ∧
      ∀ v : Word, step (s.withAccess (.writeReg 0x0004 v)) = .next s

/-- R26: CTXINFO shows NK, R and the schedule length, has the four listed values under the invariant, and cannot be
written. -/
def Obligations.CtxinfoShowsTheContext : Prop :=
  ∀ s : State,
    (∃ v : Word, step (s.withAccess (.readReg 0x001C)) = .next { s with replies := s.replies ++ [.word v] } ∧
      v.extractLsb' 0 4 = s.nk ∧ v.extractLsb' 4 4 = s.r ∧
      (v.extractLsb' 8 8).toNat = (if s.ctxValid then 4 * (s.r.toNat + 1) else 0) ∧ v.extractLsb' 16 16 = 0 ∧
      (Inv s → (s.ctxValid = false ∧ v = 0x00000000) ∨ (s.ctxValid = true ∧ s.nk = 4 ∧ s.r = 10 ∧ v = 0x00002CA4) ∨
        (s.ctxValid = true ∧ s.nk = 6 ∧ s.r = 12 ∧ v = 0x000034C6) ∨
        (s.ctxValid = true ∧ s.nk = 8 ∧ s.r = 14 ∧ v = 0x00003CE8))) ∧
      ∀ v : Word, step (s.withAccess (.writeReg 0x001C v)) = .next s

/-- What each read of the address map returns (R41, R43); a read changes nothing in the core. The byte reads of reserved
offsets are the model's reading (log 7), and the list of replies is its own (log 1). -/
def Obligations.ReadsFollowTheAddressMap : Prop :=
  ∀ s : State,
    step (s.withAccess (.readReg 0x0000)) = .next { s with replies := s.replies ++ [.word 0] } ∧
      step (s.withAccess (.readReg 0x0004)) = .next { s with replies := s.replies ++ [.word (statusWord s)] } ∧
      step (s.withAccess (.readReg 0x0008)) = .next { s with replies := s.replies ++ [.word s.err] } ∧
      step (s.withAccess (.readReg 0x000C)) = .next { s with replies := s.replies ++ [.word s.result] } ∧
      step (s.withAccess (.readReg 0x0010)) = .next { s with replies := s.replies ++ [.word s.keylen] } ∧
      step (s.withAccess (.readReg 0x0014)) = .next { s with replies := s.replies ++ [.word s.inlen] } ∧
      step (s.withAccess (.readReg 0x0018)) = .next { s with replies := s.replies ++ [.word s.outlen] } ∧
      step (s.withAccess (.readReg 0x001C)) = .next { s with replies := s.replies ++ [.word (ctxinfoWord s)] } ∧
      step (s.withAccess (.readReg 0x0020)) = .next { s with replies := s.replies ++ [.word 4096] } ∧
      (∀ k < 32, step (s.withAccess (.readByte (0x0040 + k))) =
        .next { s with replies := s.replies ++ [.byte (memRead s.key k)] }) ∧
      (∀ a < 4096, step (s.withAccess (.readByte (0x1000 + a))) =
        .next { s with replies := s.replies ++ [.byte (memRead s.ibuf a)] }) ∧
      (∀ a < 4096, step (s.withAccess (.readByte (0x2000 + a))) =
        .next { s with replies := s.replies ++ [.byte (memRead s.obuf a)] }) ∧
      ∀ offset, (0x0024 ≤ offset ∧ offset < 0x0040) ∨ (0x0060 ≤ offset ∧ offset < 0x1000) →
        (offset % 4 = 0 → step (s.withAccess (.readReg offset)) = .next { s with replies := s.replies ++ [.word 0] }) ∧
          step (s.withAccess (.readByte offset)) = .next { s with replies := s.replies ++ [.byte 0] }

/-- R44: a read changes no state of the core, a write to a length register or to KEY or IBUF stores the value and nothing
else, and every other write but one to CMD changes nothing. -/
def Obligations.OnlyCmdHasASideEffect : Prop :=
  ∀ s : State,
    (∀ offset t, step (s.withAccess (.readReg offset)) = .next t ∨ step (s.withAccess (.readByte offset)) = .next t →
      ∃ v, t = { s with replies := s.replies ++ [v] }) ∧
      (∀ v, step (s.withAccess (.writeReg 0x0010 v)) = .next { s with keylen := v } ∧
        step (s.withAccess (.writeReg 0x0014 v)) = .next { s with inlen := v } ∧
        step (s.withAccess (.writeReg 0x0018 v)) = .next { s with outlen := v }) ∧
      (∀ k v, k < 32 → ∃ m, step (s.withAccess (.writeByte (0x0040 + k) v)) = .next { s with key := m } ∧
        (s.key.wf = true → memRead m k = v) ∧ ∀ b, b ≠ k → memRead m b = memRead s.key b) ∧
      (∀ a v, a < 4096 → ∃ m, step (s.withAccess (.writeByte (0x1000 + a) v)) = .next { s with ibuf := m } ∧
        (s.ibuf.wf = true → memRead m a = v) ∧ ∀ b, b ≠ a → memRead m b = memRead s.ibuf b) ∧
      (∀ offset v t, offset ∉ [0x0000, 0x0010, 0x0014, 0x0018] →
        step (s.withAccess (.writeReg offset v)) = .next t → t = s) ∧
      ∀ offset v t, ¬(0x0040 ≤ offset ∧ offset < 0x0060) → ¬(0x1000 ≤ offset ∧ offset < 0x2000) →
        step (s.withAccess (.writeByte offset v)) = .next t → t = s

/-- The accesses of the interface complete, an 8-bit or 32-bit access at offset 0x3000 or above faults, and every other
access is refused (R42). The fault is the model's reading (log 6), the refusals' names are its choice (log 8), and that byte
accesses to reserved offsets belong to the interface is its reading (log 7). -/
def Obligations.InterfaceAccessesComplete : Prop :=
  ∀ (s : State) (a : HostAccess),
    (a.inInterface = true → ∃ t, step (s.withAccess a) = .next t) ∧
      (0x3000 ≤ a.offset → a ≠ .otherWidth a.offset →
        step (s.withAccess a) = .fault (.offsetOutsideWindow a.offset)) ∧
      (a.inInterface = false → a.offset < 0x3000 ∨ a = .otherWidth a.offset →
        ∃ r, step (s.withAccess a) = .refused r)

/-- R83, R88: GFINIT, from any state, fills LOG and ILOG with the exponents of the generator's 255 powers and the powers
themselves, keeps `LOG[0]` and `ILOG[255]`, changes nothing else but GF_VALID and the outcome, and is idempotent. The
tables are those printed in 95_test_vectors.md section 2.1. -/
def Obligations.GfinitBuildsTheTables : Prop :=
  decode 0x00000010 = .ok .gfinit ∧ ∀ s : State, ∃ t, exec .gfinit s = .next t ∧
    t = { s with log := t.log, ilog := t.ilog, gfValid := true, ok := true, fail := false, err := 0 } ∧
    (∀ e < 255, tableRead t.log (Nat.repeat (fun v => mulSlow v 0x03) e 0x01) = BitVec.ofNat 8 e ∧
      tableRead t.ilog (BitVec.ofNat 8 e) = Nat.repeat (fun v => mulSlow v 0x03) e 0x01) ∧
    tableRead t.log 0x00 = tableRead s.log 0x00 ∧ tableRead t.ilog 0xFF = tableRead s.ilog 0xFF ∧ GfTablesBuilt t ∧
    exec .gfinit t = .next t

/-- R85, R89: GFMUL (OP 0x11, format AB) fails while GF_VALID is 0, and otherwise RESULT is 0 for a zero operand and else the antilogarithm of
the sum of the logarithms modulo 255. -/
def Obligations.GfmulUsesTheLogTables : Prop :=
  ∀ (a b : Byte) (s : State),
    decode (BitVec.ofNat 32 (0x11 + a.toNat * 0x100 + b.toNat * 0x10000)) = .ok (.gfmul a b) ∧
    (s.gfValid = false → exec (.gfmul a b) s = .next { s with ok := false, fail := true, err := 7 }) ∧
      (s.gfValid = true → ∃ v : Byte,
        exec (.gfmul a b) s = .next { s with result := v.setWidth 32, ok := true, fail := false, err := 0 } ∧
        (a = 0 ∨ b = 0 → v = 0) ∧
        (a ≠ 0 → b ≠ 0 →
          v = tableRead s.ilog (BitVec.ofNat 8 (((tableRead s.log a).toNat + (tableRead s.log b).toNat) % 255))))

/-- With the GF tables built, GFMUL computes the product of rule R82, the field product of R80, for every pair (R93 (e)). -/
def Obligations.GfmulIsTheFieldProduct : Prop :=
  ∀ (a b : Byte) (s : State), s.gfValid = true → GfTablesBuilt s →
    exec (.gfmul a b) s = .next { s with result := (mulSlow a b).setWidth 32, ok := true, fail := false, err := 0 }

/-- R93: the laws of the tables and of `mul` and `inv` once the tables are built and `ILOG[255]` is 0x00. -/
def Obligations.FieldLaws : Prop :=
  ∀ s : State, GfTablesBuilt s → tableRead s.ilog 0xFF = 0x00 →
    (∀ v : Byte, v ≠ 0 → tableRead s.ilog (tableRead s.log v) = v) ∧
      (∀ e : Byte, e ≠ 255 → tableRead s.log (tableRead s.ilog e) = e) ∧
      (∀ a b, gfMul s.log s.ilog a b = gfMul s.log s.ilog b a) ∧
      (∀ a, gfMul s.log s.ilog a 0 = 0 ∧ gfMul s.log s.ilog 0 a = 0) ∧
      (∀ a : Byte, a ≠ 0 → a ≠ 1 → gfMul s.log s.ilog a (gfInv s.log s.ilog a) = 0x01) ∧
      gfMul s.log s.ilog 1 (gfInv s.log s.ilog 1) = 0x00 ∧
      (∀ a b, gfMul s.log s.ilog a b = mulSlow a b) ∧
      (∀ a, gfMul s.log s.ilog a 1 = a) ∧
      (∀ a b c, gfMul s.log s.ilog (gfMul s.log s.ilog a b) c = gfMul s.log s.ilog a (gfMul s.log s.ilog b c)) ∧
      (∀ a b c, gfMul s.log s.ilog a (b ^^^ c) = gfMul s.log s.ilog a b ^^^ gfMul s.log s.ilog a c) ∧
      ∀ a : Byte, gfInv s.log s.ilog (gfInv s.log s.ilog a) = if a = 1 then 0 else a

/-- R86, R90: GFINV fails while GF_VALID is 0, and otherwise RESULT is 0 for operand 0 and else `ILOG[255 - LOG[a]]`; with
the tables built that is the inverse for operands 2 to 255 and the content of `ILOG[255]` for operand 1. -/
def Obligations.GfinvInvertsItsOperand : Prop :=
  ∀ (a : Byte) (s : State),
    decode (BitVec.ofNat 32 (0x12 + a.toNat * 0x100)) = .ok (.gfinv a) ∧
    (s.gfValid = false → exec (.gfinv a) s = .next { s with ok := false, fail := true, err := 7 }) ∧
      (s.gfValid = true → ∃ v : Byte,
        exec (.gfinv a) s = .next { s with result := v.setWidth 32, ok := true, fail := false, err := 0 } ∧
        (a = 0 → v = 0) ∧ (a ≠ 0 → v = tableRead s.ilog (BitVec.ofNat 8 (255 - (tableRead s.log a).toNat))) ∧
        (GfTablesBuilt s → (a ≠ 0 → a ≠ 1 → mulSlow a v = 0x01) ∧ (a = 1 → v = tableRead s.ilog 0xFF)))

/-- R91, R92: LOGRD and ILOGRD fail while GF_VALID is 0, and otherwise return one table entry, zero-extended. -/
def Obligations.LogrdAndIlogrdReadOneEntry : Prop :=
  ∀ (a : Byte) (s : State),
    decode (BitVec.ofNat 32 (0x13 + a.toNat * 0x100)) = .ok (.logrd a) ∧
    decode (BitVec.ofNat 32 (0x14 + a.toNat * 0x100)) = .ok (.ilogrd a) ∧
    (s.gfValid = false → exec (.logrd a) s = .next { s with ok := false, fail := true, err := 7 } ∧
      exec (.ilogrd a) s = .next { s with ok := false, fail := true, err := 7 }) ∧
      (s.gfValid = true →
        exec (.logrd a) s =
            .next { s with result := (tableRead s.log a).setWidth 32, ok := true, fail := false, err := 0 } ∧
          exec (.ilogrd a) s =
            .next { s with result := (tableRead s.ilog a).setWidth 32, ok := true, fail := false, err := 0 }) ∧
      (Inv s → s.gfValid = true → tableRead s.log 0 = 0 ∧ tableRead s.log 1 = 0 ∧ tableRead s.ilog 255 = 0 ∧
        tableRead s.ilog 0 = 1)

/-- R100: each output bit of `affine` is the sum of five bits of the operand and a bit of 0x63; `affine` is the sum of five
rotations and 0x63; it is a bijection; and the rule's three examples hold. -/
def Obligations.AffineTransformForms : Prop :=
  (∀ (v : Byte) (bi : Nat), bi < 8 → (affine v).getLsbD bi =
    (v.getLsbD bi ^^ v.getLsbD ((bi + 4) % 8) ^^ v.getLsbD ((bi + 5) % 8) ^^ v.getLsbD ((bi + 6) % 8) ^^
      v.getLsbD ((bi + 7) % 8) ^^ (0x63 : Byte).getLsbD bi)) ∧
    (∀ v : Byte, affine v =
      v ^^^ v.rotateLeft 1 ^^^ v.rotateLeft 2 ^^^ v.rotateLeft 3 ^^^ v.rotateLeft 4 ^^^ 0x63) ∧
    Function.Bijective affine ∧ affine 0x00 = 0x63 ∧ affine 0x01 = 0x7c ∧ affine 0xca = 0xed

/-- R101, R102, R104: SBINIT fails while GF_VALID is 0; otherwise SBOX holds the affine image of `inv` with entry 1 patched,
ISBOX the last index that gave each value, or the old entry where none did, with entries 0x7c and 0x63 patched. -/
def Obligations.SbinitRunsTheLoopAndThePatch : Prop :=
  decode 0x00000020 = .ok .sbinit ∧ ∀ s : State,
    (s.gfValid = false → exec .sbinit s = .next { s with ok := false, fail := true, err := 7 }) ∧
      (s.gfValid = true → ∃ t, exec .sbinit s = .next t ∧
        t = { s with sbox := t.sbox, isbox := t.isbox, sbValid := true, ok := true, fail := false, err := 0 } ∧
        tableRead t.sbox 0x01 = 0x7c ∧ tableRead t.isbox 0x7c = 0x01 ∧ tableRead t.isbox 0x63 = 0x00 ∧
        (∀ i : Byte, i ≠ 0x01 → tableRead t.sbox i = affine (gfInv s.log s.ilog i)) ∧
        (∀ b i : Byte, b ≠ 0x7c → b ≠ 0x63 → affine (gfInv s.log s.ilog i) = b →
          (∀ j : Byte, i.toNat < j.toNat → affine (gfInv s.log s.ilog j) ≠ b) → tableRead t.isbox b = i) ∧
        ∀ b : Byte, b ≠ 0x7c → b ≠ 0x63 → (∀ i, affine (gfInv s.log s.ilog i) ≠ b) →
          tableRead t.isbox b = tableRead s.isbox b)

/-- R103: with the GF tables built and whatever `ILOG[255]` holds, SBINIT leaves the S-box of the true inverses, its inverse
permutation, the tables printed in 95_test_vectors.md section 2.2, and the same tables for every content of `ILOG[255]`. -/
def Obligations.FinishedSboxTables : Prop :=
  ∀ s : State, s.gfValid = true → GfTablesBuilt s → ∃ t, exec .sbinit s = .next t ∧
    tableRead t.sbox 0 = 0x63 ∧ tableRead t.sbox 1 = 0x7c ∧
    (∀ i v : Byte, mulSlow i v = 0x01 → tableRead t.sbox i = affine v) ∧
    Function.Bijective (tableRead t.sbox) ∧ (∀ i, tableRead t.isbox (tableRead t.sbox i) = i) ∧ SboxTablesBuilt t ∧
    ∀ s' t', GfTablesBuilt s' → exec .sbinit s' = .next t' → s'.gfValid = true → t'.sbox = t.sbox ∧ t'.isbox = t.isbox

/-- R105, R106: SBOX and ISBOX fail while SB_VALID is 0, and otherwise return one table entry, zero-extended; the finished
tables give the corner cases. -/
def Obligations.SboxAndIsboxReadOneEntry : Prop :=
  ∀ (a : Byte) (s : State),
    decode (BitVec.ofNat 32 (0x21 + a.toNat * 0x100)) = .ok (.sbox a) ∧
    decode (BitVec.ofNat 32 (0x22 + a.toNat * 0x100)) = .ok (.isbox a) ∧
    (s.sbValid = false → exec (.sbox a) s = .next { s with ok := false, fail := true, err := 7 } ∧
      exec (.isbox a) s = .next { s with ok := false, fail := true, err := 7 }) ∧
      (s.sbValid = true →
        exec (.sbox a) s =
            .next { s with result := (tableRead s.sbox a).setWidth 32, ok := true, fail := false, err := 0 } ∧
          exec (.isbox a) s =
            .next { s with result := (tableRead s.isbox a).setWidth 32, ok := true, fail := false, err := 0 }) ∧
      (SboxTablesBuilt s → tableRead s.sbox 0 = 0x63 ∧ tableRead s.sbox 1 = 0x7c ∧ tableRead s.sbox 0x52 = 0x00 ∧
        tableRead s.isbox 0x63 = 0x00 ∧ tableRead s.isbox 0x7c = 0x01 ∧ tableRead s.isbox 0x00 = 0x52)

/-- R118: `RotWord` moves the byte sequence (b0, b1, b2, b3) to (b1, b2, b3, b0), which is a rotation of the 32-bit number
right by 8. -/
def Obligations.RotWordRotatesRightByEight : Prop :=
  (∀ w : Word, byteLane (rotWord w) 0 = byteLane w 1 ∧ byteLane (rotWord w) 1 = byteLane w 2 ∧
    byteLane (rotWord w) 2 = byteLane w 3 ∧ byteLane (rotWord w) 3 = byteLane w 0) ∧
    (∀ w : Word, rotWord w = (w >>> 8) ||| (w <<< 24)) ∧ rotWord 0x3c4fcf09 = 0x093c4fcf

/-- R120: RCON, the model's `nextRcon`, starts the expansion loop at 1, enters the word as a number, and is multiplied by 2 in
the field at each multiple of NK and nowhere else, so it runs through the eleven values the rule lists. -/
def Obligations.RoundConstantsDouble : Prop :=
  roundConstants = [0x01, 0x02, 0x04, 0x08, 0x10, 0x20, 0x40, 0x80, 0x1b, 0x36, 0x6c] ∧
    (∀ (log ilog sbox : Table) (nk r : Nat) (ks : Schedule),
      expandKey log ilog sbox nk r ks = expandLoop log ilog sbox nk (4 * (r + 1) - nk) nk 0x01 ks) ∧
    (∀ (log ilog sbox : Table) (nk count kidx : Nat) (rcon : Byte) (ks : Schedule),
      expandLoop log ilog sbox nk (count + 1) kidx rcon ks =
        expandLoop log ilog sbox nk count (kidx + 1) (nextRcon log ilog nk kidx rcon)
          (ksWrite ks kidx (ksRead ks (kidx - nk) ^^^ expandTemp sbox nk kidx rcon (ksRead ks (kidx - 1))))) ∧
    (∀ (sbox : Table) (nk kidx : Nat) (rcon : Byte) (w : Word), kidx % nk = 0 →
      expandTemp sbox nk kidx rcon w = subWord sbox (rotWord w) ^^^ rcon.setWidth 32) ∧
    ∀ (s : State) (nk kidx : Nat), GfTablesBuilt s →
      (kidx % nk = 0 → (∀ rcon, nextRcon s.log s.ilog nk kidx rcon = mulSlow rcon 0x02) ∧
        ∀ k < 10, nextRcon s.log s.ilog nk kidx (roundConstants.getD k 0) = roundConstants.getD (k + 1) 0) ∧
      (kidx % nk ≠ 0 → ∀ rcon, nextRcon s.log s.ilog nk kidx rcon = rcon)

/-- R115, R117, R122, with the recurrence of R121: KEYINIT, from any state, rebuilds the tables and installs the context the
key gives: NK and R from the length, the key words, the recurrence, zeros above, a zero STATE; or fails on any other
length. -/
def Obligations.KeyinitExpandsTheKey : Prop :=
  decode 0x00000030 = .ok .keyinit ∧ ∀ s : State,
    (s.keylen.toNat ∈ [16, 24, 32] → ∃ t, exec .keyinit s = .next t ∧
      t = { s with
        log := t.log, ilog := t.ilog, gfValid := true, sbox := t.sbox, isbox := t.isbox, sbValid := true,
        ctxValid := true, nk := t.nk, r := t.r, ks := t.ks, state := t.state, ok := true, fail := false, err := 0 } ∧
      TablesBuilt t ∧ tableRead t.log 0 = tableRead s.log 0 ∧ tableRead t.ilog 255 = tableRead s.ilog 255 ∧
      t.nk.toNat = s.keylen.toNat / 4 ∧ t.r.toNat = t.nk.toNat + 6 ∧
      (∀ j x, j < t.nk.toNat → x < 4 → byteLane (ksRead t.ks j) x = memRead s.key (4 * j + x)) ∧
      (∀ i, t.nk.toNat ≤ i → i < 4 * (t.r.toNat + 1) →
        ksRead t.ks i =
          ksRead t.ks (i - t.nk.toNat) ^^^ scheduleTemp t.nk.toNat i specSubWord (ksRead t.ks (i - 1))) ∧
      (∀ i, 4 * (t.r.toNat + 1) ≤ i → ksRead t.ks i = 0) ∧ ∀ x y, cell t.state x y = 0) ∧
      (s.keylen.toNat ∉ [16, 24, 32] → exec .keyinit s = .next { s with ok := false, fail := true, err := 1 })

/-- R125: the context KEYINIT installs is a function of the KEYLEN key bytes alone. -/
def Obligations.ContextDependsOnTheKeyBytesAlone : Prop :=
  ∀ s s' : State, s.keylen.toNat ∈ [16, 24, 32] → s'.keylen = s.keylen →
    (∀ k < s.keylen.toNat, memRead s'.key k = memRead s.key k) →
      ∃ t t', exec .keyinit s = .next t ∧ exec .keyinit s' = .next t' ∧ t.ctxValid = true ∧ t'.ctxValid = true ∧
        t'.nk = t.nk ∧ t'.r = t.r ∧ t'.ks = t.ks ∧ t'.state = t.state

/-- R123: KSRD fails without a context, then on an index outside the schedule, and otherwise returns the schedule word. -/
def Obligations.KsrdReadsOneWord : Prop :=
  ∀ (i : Byte) (s : State),
    decode (BitVec.ofNat 32 (0x31 + i.toNat * 0x100)) = .ok (.ksrd i) ∧
    (s.ctxValid = false → exec (.ksrd i) s = .next { s with ok := false, fail := true, err := 6 }) ∧
      (s.ctxValid = true → 4 * (s.r.toNat + 1) ≤ i.toNat →
        exec (.ksrd i) s = .next { s with ok := false, fail := true, err := 9 }) ∧
      (s.ctxValid = true → i.toNat < 4 * (s.r.toNat + 1) →
        exec (.ksrd i) s = .next { s with result := ksRead s.ks i.toNat, ok := true, fail := false, err := 0 })

/-- R124: CTXREL, from any state, clears the context to zero and changes nothing else but the outcome; every context
command then fails with NoActiveContext. -/
def Obligations.CtxrelClearsTheContext : Prop :=
  decode 0x00000032 = .ok .ctxrel ∧ ∀ s : State, ∃ t, exec .ctxrel s = .next t ∧
    t = { s with
      ctxValid := false, nk := 0, r := 0, ks := t.ks, state := t.state, ok := true, fail := false, err := 0 } ∧
    (∀ i, ksRead t.ks i = 0) ∧ (∀ x y, cell t.state x y = 0) ∧
    ∀ i, i.needsContext = true → exec i t = .next { t with ok := false, fail := true, err := 6 }

/-- R140, R153: LDST fails without a context, and otherwise fills STATE from block `n` of IBUF by the column-major mapping;
every block index is in range. -/
def Obligations.LdstLoadsABlock : Prop :=
  ∀ (n : Byte) (s : State),
    decode (BitVec.ofNat 32 (0x40 + n.toNat * 0x100)) = .ok (.ldst n) ∧
    (s.ctxValid = false → exec (.ldst n) s = .next { s with ok := false, fail := true, err := 6 }) ∧
      (s.ctxValid = true → ∃ t, exec (.ldst n) s = .next t ∧
        t = { s with state := t.state, ok := true, fail := false, err := 0 } ∧
        ∀ i : Fin 16, cell t.state ⟨i.val % 4, by omega⟩ ⟨i.val / 4, by omega⟩ =
          memRead s.ibuf (16 * n.toNat + i.val))

/-- R141, R154: STST fails without a context, and otherwise writes the state to block `n` of OBUF by the same mapping and
no other byte. -/
def Obligations.StstStoresABlock : Prop :=
  ∀ (n : Byte) (s : State),
    decode (BitVec.ofNat 32 (0x41 + n.toNat * 0x100)) = .ok (.stst n) ∧
    (s.ctxValid = false → exec (.stst n) s = .next { s with ok := false, fail := true, err := 6 }) ∧
      (s.ctxValid = true → ∃ t, exec (.stst n) s = .next t ∧
        t = { s with obuf := t.obuf, ok := true, fail := false, err := 0 } ∧
        (s.obuf.wf = true → ∀ i : Fin 16, memRead t.obuf (16 * n.toNat + i.val) =
          cell s.state ⟨i.val % 4, by omega⟩ ⟨i.val / 4, by omega⟩) ∧
        ∀ a, a < 16 * n.toNat ∨ 16 * n.toNat + 16 ≤ a → memRead t.obuf a = memRead s.obuf a)

/-- R142, R155: ARK fails without a context, then on a round above R, and otherwise XORs each cell with byte `x` of schedule
word `4n + y`; done twice it restores the state. -/
def Obligations.ArkXorsTheRoundKey : Prop :=
  ∀ (n : Byte) (s : State),
    decode (BitVec.ofNat 32 (0x42 + n.toNat * 0x100)) = .ok (.ark n) ∧
    (s.ctxValid = false → exec (.ark n) s = .next { s with ok := false, fail := true, err := 6 }) ∧
      (s.ctxValid = true → s.r.toNat < n.toNat →
        exec (.ark n) s = .next { s with ok := false, fail := true, err := 9 }) ∧
      (s.ctxValid = true → n.toNat ≤ s.r.toNat → ∃ t, exec (.ark n) s = .next t ∧
        t = { s with state := t.state, ok := true, fail := false, err := 0 } ∧
        (∀ x y : Fin 4, cell t.state x y =
          cell s.state x y ^^^ (ksRead s.ks (4 * n.toNat + y.val)).extractLsb' (8 * x.val) 8) ∧
        exec (.ark n) t = .next { s with ok := true, fail := false, err := 0 })

/-- R143, R156, R159: SUBB and ISUBB fail without a context, and otherwise replace every cell by its SBOX or ISBOX entry. -/
def Obligations.SubbAndIsubbSubstitute : Prop :=
  decode 0x00000043 = .ok .subb ∧ decode 0x00000046 = .ok .isubb ∧ ∀ s : State,
    (s.ctxValid = false → exec .subb s = .next { s with ok := false, fail := true, err := 6 } ∧
      exec .isubb s = .next { s with ok := false, fail := true, err := 6 }) ∧
      (s.ctxValid = true →
        (∃ t, exec .subb s = .next t ∧ t = { s with state := t.state, ok := true, fail := false, err := 0 } ∧
          ∀ x y, cell t.state x y = tableRead s.sbox (cell s.state x y)) ∧
        ∃ t, exec .isubb s = .next t ∧ t = { s with state := t.state, ok := true, fail := false, err := 0 } ∧
          ∀ x y, cell t.state x y = tableRead s.isbox (cell s.state x y))

/-- R144, R147, R157, R160: SHR and ISHR fail without a context, and otherwise move row `x` left or right by `x` columns;
the block-order form of R144 holds. -/
def Obligations.ShrAndIshrRotateRows : Prop :=
  decode 0x00000044 = .ok .shr ∧ decode 0x00000047 = .ok .ishr ∧ ∀ s : State,
    (s.ctxValid = false → exec .shr s = .next { s with ok := false, fail := true, err := 6 } ∧
      exec .ishr s = .next { s with ok := false, fail := true, err := 6 }) ∧
      (s.ctxValid = true →
        (∃ t, exec .shr s = .next t ∧ t = { s with state := t.state, ok := true, fail := false, err := 0 } ∧
          (∀ x y : Fin 4, cell t.state x y = cell s.state x ⟨(y.val + x.val) % 4, by omega⟩) ∧
          ∀ i < 16, blockByte t.state i = blockByte s.state ((i + 4 * (i % 4)) % 16)) ∧
        ∃ t, exec .ishr s = .next t ∧ t = { s with state := t.state, ok := true, fail := false, err := 0 } ∧
          ∀ x y : Fin 4, cell t.state x y = cell s.state x ⟨(y.val + 4 - x.val) % 4, by omega⟩)

/-- R145, R148, R158, R161: MIXC and IMIXC fail without a context; otherwise, with the GF tables built, each column is
multiplied in the field by the circulant matrix with first row (2, 3, 1, 1), or (0x0e, 0x0b, 0x0d, 0x09). -/
def Obligations.MixcAndImixcMultiplyColumns : Prop :=
  decode 0x00000045 = .ok .mixc ∧ decode 0x00000048 = .ok .imixc ∧ ∀ s : State,
    (s.ctxValid = false → exec .mixc s = .next { s with ok := false, fail := true, err := 6 } ∧
      exec .imixc s = .next { s with ok := false, fail := true, err := 6 }) ∧
      (s.ctxValid = true →
        (∃ t, exec .mixc s = .next t ∧ t = { s with state := t.state, ok := true, fail := false, err := 0 } ∧
          (GfTablesBuilt s → ∀ x y, cell t.state x y =
            mulSlow (circulant ![0x02, 0x03, 0x01, 0x01] x 0) (cell s.state 0 y) ^^^
              mulSlow (circulant ![0x02, 0x03, 0x01, 0x01] x 1) (cell s.state 1 y) ^^^
              mulSlow (circulant ![0x02, 0x03, 0x01, 0x01] x 2) (cell s.state 2 y) ^^^
              mulSlow (circulant ![0x02, 0x03, 0x01, 0x01] x 3) (cell s.state 3 y))) ∧
        ∃ t, exec .imixc s = .next t ∧ t = { s with state := t.state, ok := true, fail := false, err := 0 } ∧
          (GfTablesBuilt s → ∀ x y, cell t.state x y =
            mulSlow (circulant ![0x0e, 0x0b, 0x0d, 0x09] x 0) (cell s.state 0 y) ^^^
              mulSlow (circulant ![0x0e, 0x0b, 0x0d, 0x09] x 1) (cell s.state 1 y) ^^^
              mulSlow (circulant ![0x0e, 0x0b, 0x0d, 0x09] x 2) (cell s.state 2 y) ^^^
              mulSlow (circulant ![0x0e, 0x0b, 0x0d, 0x09] x 3) (cell s.state 3 y)))

/-- Each round step is undone by its inverse, with a context active and the tables built (R142, R146, R147, R148), and four
SHR in a row restore the state (R157). -/
def Obligations.InverseStepsUndo : Prop :=
  ∀ s : State, s.ctxValid = true → TablesBuilt s →
    (∀ p ∈ [[Instr.subb, .isubb], [.isubb, .subb], [.shr, .ishr], [.ishr, .shr], [.mixc, .imixc], [.imixc, .mixc],
        [.shr, .shr, .shr, .shr]],
      execAll p s = .next { s with ok := true, fail := false, err := 0 }) ∧
      ∀ n : Byte, n.toNat ≤ s.r.toNat → execAll [.ark n, .ark n] s = .next { s with ok := true, fail := false, err := 0 }

/-- R151: ENCBLK and DECBLK run the sequencer's fixed list of `4R + 2` steps, whose entries stand where the rule puts them,
and nothing but `R` chooses them. -/
def Obligations.BlockCommandsRunTheSequencer : Prop :=
  (∀ (n : Byte) (s : State), s.ctxValid = true →
    exec (.encblk n) s =
        .next { runSchedule n.toNat (encryptSchedule s.r.toNat) s with ok := true, fail := false, err := 0 } ∧
      exec (.decblk n) s =
        .next { runSchedule n.toNat (decryptSchedule s.r.toNat) s with ok := true, fail := false, err := 0 }) ∧
    ∀ r, 1 ≤ r →
      (encryptSchedule r).length = 4 * r + 2 ∧ (encryptSchedule r)[0]? = some .load ∧
      (encryptSchedule r)[1]? = some (.ark 0) ∧
      (∀ k, 1 ≤ k → k < r → (encryptSchedule r)[2 + 4 * (k - 1)]? = some .subb ∧
        (encryptSchedule r)[3 + 4 * (k - 1)]? = some .shr ∧ (encryptSchedule r)[4 + 4 * (k - 1)]? = some .mixc ∧
        (encryptSchedule r)[5 + 4 * (k - 1)]? = some (.ark k)) ∧
      (encryptSchedule r)[4 * r - 2]? = some .subb ∧ (encryptSchedule r)[4 * r - 1]? = some .shr ∧
      (encryptSchedule r)[4 * r]? = some (.ark r) ∧ (encryptSchedule r)[4 * r + 1]? = some .store ∧
      (decryptSchedule r).length = 4 * r + 2 ∧ (decryptSchedule r)[0]? = some .load ∧
      (decryptSchedule r)[1]? = some (.ark r) ∧
      (∀ k, 1 ≤ k → k < r → (decryptSchedule r)[2 + 4 * (r - 1 - k)]? = some .ishr ∧
        (decryptSchedule r)[3 + 4 * (r - 1 - k)]? = some .isubb ∧
        (decryptSchedule r)[4 + 4 * (r - 1 - k)]? = some (.ark k) ∧
        (decryptSchedule r)[5 + 4 * (r - 1 - k)]? = some .imixc) ∧
      (decryptSchedule r)[4 * r - 2]? = some .ishr ∧ (decryptSchedule r)[4 * r - 1]? = some .isubb ∧
      (decryptSchedule r)[4 * r]? = some (.ark 0) ∧ (decryptSchedule r)[4 * r + 1]? = some .store

/-- ENCBLK and DECBLK equal their expansions into single commands, from every state with a context (30_encoding.md R70,
44_block_transform.md R162). -/
def Obligations.BlockCommandsEqualTheirExpansions : Prop :=
  ∀ (n : Byte) (s : State), s.ctxValid = true →
    execAll (encryptCommands n s.r.toNat) s = exec (.encblk n) s ∧
      execAll (decryptCommands n s.r.toNat) s = exec (.decblk n) s

/-- ENCBLK and DECBLK change STATE, block `n` of OBUF and the outcome alone, leave STATE equal to that block, and the block
depends only on the schedule, R, the tables and input block `n` (R152, R162). -/
def Obligations.BlockCommandsArePure : Prop :=
  ∀ (n : Byte) (s : State) (i : Instr), i = .encblk n ∨ i = .decblk n →
    (s.ctxValid = false → exec i s = .next { s with ok := false, fail := true, err := 6 }) ∧
      (s.ctxValid = true → ∃ t, exec i s = .next t ∧
        t = { s with state := t.state, obuf := t.obuf, ok := true, fail := false, err := 0 } ∧
        (s.obuf.wf = true → ∀ k < 16, memRead t.obuf (16 * n.toNat + k) = blockByte t.state k) ∧
        (∀ a, a < 16 * n.toNat ∨ 16 * n.toNat + 16 ≤ a → memRead t.obuf a = memRead s.obuf a) ∧
        ∀ s' : State, s'.ctxValid = true → s'.log = s.log → s'.ilog = s.ilog → s'.sbox = s.sbox → s'.isbox = s.isbox →
          s'.ks = s.ks → s'.r = s.r →
          (∀ k < 16, memRead s'.ibuf (16 * n.toNat + k) = memRead s.ibuf (16 * n.toNat + k)) →
          ∃ t', exec i s' = .next t' ∧ t'.state = t.state)

/-- Decrypting what ENCBLK wrote, from any input block it is copied to, gives the input block back, and the reverse (R152),
in every state of the invariant with a context active. -/
def Obligations.BlockRoundTrip : Prop :=
  ∀ (n : Byte) (s : State) (i j : Instr), (i = .encblk n ∧ j = .decblk n) ∨ (i = .decblk n ∧ j = .encblk n) →
    Inv s → s.ctxValid = true → ∃ t, exec i s = .next t ∧
      ∀ m : Memory, (∀ k < 16, memRead m (16 * n.toNat + k) = memRead t.obuf (16 * n.toNat + k)) →
        ∃ u, exec j { t with ibuf := m } = .next u ∧
          ∀ k < 16, memRead u.obuf (16 * n.toNat + k) = memRead s.ibuf (16 * n.toNat + k)

/-- A command that needs the context fails with NoActiveContext (code 6) while none is active, whatever its operands (R164,
R187, R189). -/
def Obligations.ContextCommandsNeedAContext : Prop :=
  ∀ (i : Instr) (s : State), i.needsContext = true → s.ctxValid = false →
    exec i s = .next { s with ok := false, fail := true, err := 6 }

/-- R170: INITVEC, from any state, builds all four tables, equals GFINIT followed by SBINIT, and touches nothing else; where
the invariant holds and a context is active it changes only the outcome. -/
def Obligations.InitvecRebuildsTheTables : Prop :=
  decode 0x00000050 = .ok .initvec ∧ ∀ s : State, ∃ t, exec .initvec s = .next t ∧
    t = { s with
      log := t.log, ilog := t.ilog, gfValid := true, sbox := t.sbox, isbox := t.isbox, sbValid := true, ok := true,
      fail := false, err := 0 } ∧
    TablesBuilt t ∧ tableRead t.log 0 = tableRead s.log 0 ∧ tableRead t.ilog 255 = tableRead s.ilog 255 ∧
    execAll [.gfinit, .sbinit] s = exec .initvec s ∧
    (Inv s → s.ctxValid = true → t = { s with ok := true, fail := false, err := 0 })

/-- R171, R176: ENC and DEC make the four checks in the rule's order, and a failed one leaves everything but the outcome
as it was. -/
def Obligations.BufferChecksInOrder : Prop :=
  ∀ (s : State) (i : Instr), i = .enc ∨ i = .dec →
    (s.ctxValid = false → exec i s = .next { s with ok := false, fail := true, err := 6 }) ∧
      (s.ctxValid = true → s.inlen ≠ s.outlen → exec i s = .next { s with ok := false, fail := true, err := 3 }) ∧
      (s.ctxValid = true → s.inlen = s.outlen → s.inlen.toNat % 16 ≠ 0 →
        exec i s = .next { s with ok := false, fail := true, err := 4 }) ∧
      (s.ctxValid = true → s.inlen = s.outlen → s.inlen.toNat % 16 = 0 → 4096 < s.inlen.toNat →
        exec i s = .next { s with ok := false, fail := true, err := 10 }) ∧
      (s.ctxValid = true → s.inlen = s.outlen → s.inlen.toNat % 16 = 0 → s.inlen.toNat ≤ 4096 →
        ∃ t, exec i s = .next t ∧ t.ok = true)

/-- R172, with R174: ENC on legal lengths writes to each block of OBUF below INLEN what ENCBLK of that block alone writes,
keeps every other byte, leaves the last block in STATE, and changes nothing else but the outcome. -/
def Obligations.EncProcessesEachBlock : Prop :=
  decode 0x00000051 = .ok .enc ∧
  ∀ s : State, s.ctxValid = true → s.inlen = s.outlen → s.inlen.toNat % 16 = 0 → s.inlen.toNat ≤ 4096 →
    ∃ t, exec .enc s = .next t ∧
      t = { s with state := t.state, obuf := t.obuf, ok := true, fail := false, err := 0 } ∧
      (s.inlen = 0 → t.state = s.state ∧ t.obuf = s.obuf) ∧
      (∀ a, s.inlen.toNat ≤ a → memRead t.obuf a = memRead s.obuf a) ∧
      ∀ n : Byte, n.toNat < s.inlen.toNat / 16 → ∃ u, exec (.encblk n) s = .next u ∧
        (s.obuf.wf = true → ∀ k < 16, memRead t.obuf (16 * n.toNat + k) = memRead u.obuf (16 * n.toNat + k)) ∧
        (n.toNat + 1 = s.inlen.toNat / 16 → t.state = u.state)

/-- R173, with R174: DEC likewise, with DECBLK. -/
def Obligations.DecProcessesEachBlock : Prop :=
  decode 0x00000052 = .ok .dec ∧
  ∀ s : State, s.ctxValid = true → s.inlen = s.outlen → s.inlen.toNat % 16 = 0 → s.inlen.toNat ≤ 4096 →
    ∃ t, exec .dec s = .next t ∧
      t = { s with state := t.state, obuf := t.obuf, ok := true, fail := false, err := 0 } ∧
      (s.inlen = 0 → t.state = s.state ∧ t.obuf = s.obuf) ∧
      (∀ a, s.inlen.toNat ≤ a → memRead t.obuf a = memRead s.obuf a) ∧
      ∀ n : Byte, n.toNat < s.inlen.toNat / 16 → ∃ u, exec (.decblk n) s = .next u ∧
        (s.obuf.wf = true → ∀ k < 16, memRead t.obuf (16 * n.toNat + k) = memRead u.obuf (16 * n.toNat + k)) ∧
        (n.toNat + 1 = s.inlen.toNat / 16 → t.state = u.state)

/-- R175: zero lengths pass all checks and the command writes only the outcome fields. -/
def Obligations.ZeroLengthSucceeds : Prop :=
  ∀ s : State, s.ctxValid = true → s.inlen = 0 → s.outlen = 0 →
    exec .enc s = .next { s with ok := true, fail := false, err := 0 } ∧
      exec .dec s = .next { s with ok := true, fail := false, err := 0 }

/-- R177: ENC, copying the output to the input, and DEC give the input back, and the reverse, for every legal length, in
every state of the invariant with a context active. -/
def Obligations.BufferRoundTrip : Prop :=
  ∀ (s : State) (i j : Instr), (i = .enc ∧ j = .dec) ∨ (i = .dec ∧ j = .enc) →
    Inv s → s.ctxValid = true → s.inlen = s.outlen → s.inlen.toNat % 16 = 0 → s.inlen.toNat ≤ 4096 →
      ∃ t, exec i s = .next t ∧
        ∀ m : Memory, (∀ a < s.inlen.toNat, memRead m a = memRead t.obuf a) →
          ∃ u, exec j { t with ibuf := m } = .next u ∧ ∀ a < s.inlen.toNat, memRead u.obuf a = memRead s.ibuf a

/-- R188: a command that fails changes the three outcome fields and nothing else; one that succeeds leaves OK = 1, FAIL = 0,
ERR = 0. -/
def Obligations.FailureChangesOnlyTheOutcome : Prop :=
  ∀ (i : Instr) (s t : State), exec i s = .next t →
    (t.fail = true → t = { s with ok := false, fail := true, err := t.err } ∧ t.err ≠ 0) ∧
      (t.fail = false → t.ok = true ∧ t.err = 0)

/-- R186: a failing command leaves in ERR a code of its row of the table, the five commands with no failing path succeed,
and an illegal word gives code 8. -/
def Obligations.RaisedKinds : Prop :=
  (∀ (i : Instr) (s t : State), exec i s = .next t → t.fail = true → t.err ∈ raisableCodes i) ∧
    (∀ (i : Instr) (s t : State), exec i s = .next t →
      i ∈ [.gfinit, .ctxrel, .initvec] ∨ (i = .sbinit ∧ s.gfValid = true) ∨
        (i = .keyinit ∧ s.keylen.toNat ∈ [16, 24, 32]) → t.ok = true) ∧
    (∀ (i : Instr) (s t : State), exec i s = .next t → t.fail = false → t.err = 0) ∧
    ∀ (w : Word) (s t : State), (∀ i, decode w ≠ .ok i) → step (s.withAccess (.writeReg 0x0000 w)) = .next t → t.err = 8

/-- Every command of the table completes from every state, and leaves exactly one of OK and FAIL set and ERR zero exactly
on success (R9, R24, R185). -/
def Obligations.EveryCommandCompletes : Prop :=
  ∀ (i : Instr) (s : State), ∃ t, exec i s = .next t ∧ t.ok = !t.fail ∧ (t.err = 0 ↔ t.ok = true)

/-- The "written by" column of R10: each piece of state changes only under the commands the table names, and the host's
registers and buffers under none. -/
def Obligations.StateIsWrittenOnlyByItsWriters : Prop :=
  ∀ (i : Instr) (s t : State), exec i s = .next t →
    (t.key = s.key ∧ t.keylen = s.keylen ∧ t.ibuf = s.ibuf ∧ t.inlen = s.inlen ∧ t.outlen = s.outlen ∧
      t.pending = s.pending ∧ t.replies = s.replies) ∧
      (i.mnemonic ∉ ["GFINIT", "KEYINIT", "INITVEC"] → t.log = s.log ∧ t.ilog = s.ilog ∧ t.gfValid = s.gfValid) ∧
      (i.mnemonic ∉ ["SBINIT", "KEYINIT", "INITVEC"] → t.sbox = s.sbox ∧ t.isbox = s.isbox ∧ t.sbValid = s.sbValid) ∧
      (i.mnemonic ∉ ["KEYINIT", "CTXREL"] →
        t.ctxValid = s.ctxValid ∧ t.nk = s.nk ∧ t.r = s.r ∧ t.ks = s.ks) ∧
      (i.mnemonic ∉ ["LDST", "ARK", "SUBB", "SHR", "MIXC", "ISUBB", "ISHR", "IMIXC", "ENCBLK", "DECBLK", "ENC", "DEC",
        "KEYINIT", "CTXREL"] → t.state = s.state) ∧
      (i.mnemonic ∉ ["STST", "ENCBLK", "DECBLK", "ENC", "DEC"] → t.obuf = s.obuf) ∧
      (i.mnemonic ∉ ["GFMUL", "GFINV", "LOGRD", "ILOGRD", "SBOX", "ISBOX", "KSRD"] → t.result = s.result)

/-- R213: the four triples of validity flags are closed under every command, and the transitions are those of the table. -/
def Obligations.ValidityFlagsStateMachine : Prop :=
  ∀ (i : Instr) (s t : State),
    validity s ∈ [(false, false, false), (true, false, false), (true, true, false), (true, true, true)] →
      exec i s = .next t →
        validity t ∈ [(false, false, false), (true, false, false), (true, true, false), (true, true, true)] ∧
          (t.ok = true → validity t = validityAfter i (validity s)) ∧ (t.fail = true → validity t = validity s) ∧
          (validity s ≠ (false, false, false) → validity t ≠ (false, false, false))

/-- R35: reset clears every bit of storage to zero. -/
def Obligations.ResetClearsTheState : Prop :=
  (∀ i, tableRead State.reset.log i = 0x00 ∧ tableRead State.reset.ilog i = 0x00 ∧ tableRead State.reset.sbox i = 0x00 ∧
    tableRead State.reset.isbox i = 0x00) ∧
    State.reset.gfValid = false ∧ State.reset.sbValid = false ∧ State.reset.ctxValid = false ∧ State.reset.nk = 0 ∧
    State.reset.r = 0 ∧ (∀ i, ksRead State.reset.ks i = 0) ∧ (∀ x y, cell State.reset.state x y = 0x00) ∧
    (∀ a, memRead State.reset.key a = 0x00 ∧ memRead State.reset.ibuf a = 0x00 ∧ memRead State.reset.obuf a = 0x00) ∧
    State.reset.keylen = 0 ∧ State.reset.inlen = 0 ∧ State.reset.outlen = 0 ∧ State.reset.result = 0 ∧
    State.reset.ok = false ∧ State.reset.fail = false ∧ State.reset.err = 0 ∧ statusWord State.reset = 0 ∧
    ctxinfoWord State.reset = 0 ∧ bufszWord = 4096

/-- R211: while the three validity flags are 0, as they are after reset, only GFINIT, KEYINIT, CTXREL and INITVEC can
succeed; every other command fails with TablesNotReady or NoActiveContext and every illegal word with IllegalCommand. -/
def Obligations.AfterResetOnlyFourCommandsSucceed : Prop :=
  validity State.reset = (false, false, false) ∧
    ∀ s : State, validity s = (false, false, false) →
      (∀ i, i.mnemonic ∉ ["GFINIT", "KEYINIT", "CTXREL", "INITVEC"] →
        exec i s = .next { s with ok := false, fail := true, err := if i.needsContext then 6 else 7 }) ∧
        (∀ i, i.mnemonic ∈ ["GFINIT", "CTXREL", "INITVEC"] → ∃ t, exec i s = .next t ∧ t.ok = true) ∧
        (s.keylen.toNat ∈ [16, 24, 32] → ∃ t, exec .keyinit s = .next t ∧ t.ok = true) ∧
        ∀ w e, decode w = .error e →
          step (s.withAccess (.writeReg 0x0000 w)) = .next { s with ok := false, fail := true, err := 8 }

/-- The invariant of R34 holds after reset. -/
def Obligations.InvariantAtReset : Prop := Inv State.reset

/-- Every step keeps the invariant of R34, from every state that has it, whatever the host has waiting. The canonical form
of the byte windows in it is the model's own (log 11). -/
def Obligations.StepKeepsTheInvariant : Prop := ∀ s t : State, Inv s → step s = .next t → Inv t

/-- A state in which every waiting access belongs to the interface takes a step, and the next state is again such a state
(R42, R185). The list of waiting accesses is the model's own (log 1), and that byte accesses to reserved offsets belong to
the interface is its reading (log 7). -/
def Obligations.SafeStatesNeverStop : Prop := ∀ s : State, Safe s → ∃ t, step s = .next t ∧ Safe t
end

