-- ==== Sys2Proof/Laws/State.lean ====
section
/-! SUPPORT. One lemma per field of State and per shared update of it, true by rfl (for the two table builders and
installContext, by the lemma of the setter they call). -/

namespace Sys2Proof.Machine

section
variable (e : ErrorKind) (s : State)

@[simp] theorem raise_log : (raise e s).log = s.log := rfl
@[simp] theorem raise_ilog : (raise e s).ilog = s.ilog := rfl
@[simp] theorem raise_gfValid : (raise e s).gfValid = s.gfValid := rfl
@[simp] theorem raise_sbox : (raise e s).sbox = s.sbox := rfl
@[simp] theorem raise_isbox : (raise e s).isbox = s.isbox := rfl
@[simp] theorem raise_sbValid : (raise e s).sbValid = s.sbValid := rfl
@[simp] theorem raise_ctxValid : (raise e s).ctxValid = s.ctxValid := rfl
@[simp] theorem raise_nk : (raise e s).nk = s.nk := rfl
@[simp] theorem raise_r : (raise e s).r = s.r := rfl
@[simp] theorem raise_ks : (raise e s).ks = s.ks := rfl
@[simp] theorem raise_state : (raise e s).state = s.state := rfl
@[simp] theorem raise_key : (raise e s).key = s.key := rfl
@[simp] theorem raise_keylen : (raise e s).keylen = s.keylen := rfl
@[simp] theorem raise_ibuf : (raise e s).ibuf = s.ibuf := rfl
@[simp] theorem raise_obuf : (raise e s).obuf = s.obuf := rfl
@[simp] theorem raise_inlen : (raise e s).inlen = s.inlen := rfl
@[simp] theorem raise_outlen : (raise e s).outlen = s.outlen := rfl
@[simp] theorem raise_result : (raise e s).result = s.result := rfl
@[simp] theorem raise_ok : (raise e s).ok = false := rfl
@[simp] theorem raise_fail : (raise e s).fail = true := rfl
@[simp] theorem raise_err : (raise e s).err = e.code := rfl
@[simp] theorem raise_pending : (raise e s).pending = s.pending := rfl
@[simp] theorem raise_replies : (raise e s).replies = s.replies := rfl

end

section
variable (s : State)

@[simp] theorem succeed_log : (succeed s).log = s.log := rfl
@[simp] theorem succeed_ilog : (succeed s).ilog = s.ilog := rfl
@[simp] theorem succeed_gfValid : (succeed s).gfValid = s.gfValid := rfl
@[simp] theorem succeed_sbox : (succeed s).sbox = s.sbox := rfl
@[simp] theorem succeed_isbox : (succeed s).isbox = s.isbox := rfl
@[simp] theorem succeed_sbValid : (succeed s).sbValid = s.sbValid := rfl
@[simp] theorem succeed_ctxValid : (succeed s).ctxValid = s.ctxValid := rfl
@[simp] theorem succeed_nk : (succeed s).nk = s.nk := rfl
@[simp] theorem succeed_r : (succeed s).r = s.r := rfl
@[simp] theorem succeed_ks : (succeed s).ks = s.ks := rfl
@[simp] theorem succeed_state : (succeed s).state = s.state := rfl
@[simp] theorem succeed_key : (succeed s).key = s.key := rfl
@[simp] theorem succeed_keylen : (succeed s).keylen = s.keylen := rfl
@[simp] theorem succeed_ibuf : (succeed s).ibuf = s.ibuf := rfl
@[simp] theorem succeed_obuf : (succeed s).obuf = s.obuf := rfl
@[simp] theorem succeed_inlen : (succeed s).inlen = s.inlen := rfl
@[simp] theorem succeed_outlen : (succeed s).outlen = s.outlen := rfl
@[simp] theorem succeed_result : (succeed s).result = s.result := rfl
@[simp] theorem succeed_ok : (succeed s).ok = true := rfl
@[simp] theorem succeed_fail : (succeed s).fail = false := rfl
@[simp] theorem succeed_err : (succeed s).err = 0 := rfl
@[simp] theorem succeed_pending : (succeed s).pending = s.pending := rfl
@[simp] theorem succeed_replies : (succeed s).replies = s.replies := rfl

end

section
variable (v : Byte) (s : State)

@[simp] theorem setResultByte_log : (setResultByte v s).log = s.log := rfl
@[simp] theorem setResultByte_ilog : (setResultByte v s).ilog = s.ilog := rfl
@[simp] theorem setResultByte_gfValid : (setResultByte v s).gfValid = s.gfValid := rfl
@[simp] theorem setResultByte_sbox : (setResultByte v s).sbox = s.sbox := rfl
@[simp] theorem setResultByte_isbox : (setResultByte v s).isbox = s.isbox := rfl
@[simp] theorem setResultByte_sbValid : (setResultByte v s).sbValid = s.sbValid := rfl
@[simp] theorem setResultByte_ctxValid : (setResultByte v s).ctxValid = s.ctxValid := rfl
@[simp] theorem setResultByte_nk : (setResultByte v s).nk = s.nk := rfl
@[simp] theorem setResultByte_r : (setResultByte v s).r = s.r := rfl
@[simp] theorem setResultByte_ks : (setResultByte v s).ks = s.ks := rfl
@[simp] theorem setResultByte_state : (setResultByte v s).state = s.state := rfl
@[simp] theorem setResultByte_key : (setResultByte v s).key = s.key := rfl
@[simp] theorem setResultByte_keylen : (setResultByte v s).keylen = s.keylen := rfl
@[simp] theorem setResultByte_ibuf : (setResultByte v s).ibuf = s.ibuf := rfl
@[simp] theorem setResultByte_obuf : (setResultByte v s).obuf = s.obuf := rfl
@[simp] theorem setResultByte_inlen : (setResultByte v s).inlen = s.inlen := rfl
@[simp] theorem setResultByte_outlen : (setResultByte v s).outlen = s.outlen := rfl
@[simp] theorem setResultByte_result : (setResultByte v s).result = zext32 v := rfl
@[simp] theorem setResultByte_ok : (setResultByte v s).ok = s.ok := rfl
@[simp] theorem setResultByte_fail : (setResultByte v s).fail = s.fail := rfl
@[simp] theorem setResultByte_err : (setResultByte v s).err = s.err := rfl
@[simp] theorem setResultByte_pending : (setResultByte v s).pending = s.pending := rfl
@[simp] theorem setResultByte_replies : (setResultByte v s).replies = s.replies := rfl

end

section
variable (v : Word) (s : State)

@[simp] theorem setResultWord_log : (setResultWord v s).log = s.log := rfl
@[simp] theorem setResultWord_ilog : (setResultWord v s).ilog = s.ilog := rfl
@[simp] theorem setResultWord_gfValid : (setResultWord v s).gfValid = s.gfValid := rfl
@[simp] theorem setResultWord_sbox : (setResultWord v s).sbox = s.sbox := rfl
@[simp] theorem setResultWord_isbox : (setResultWord v s).isbox = s.isbox := rfl
@[simp] theorem setResultWord_sbValid : (setResultWord v s).sbValid = s.sbValid := rfl
@[simp] theorem setResultWord_ctxValid : (setResultWord v s).ctxValid = s.ctxValid := rfl
@[simp] theorem setResultWord_nk : (setResultWord v s).nk = s.nk := rfl
@[simp] theorem setResultWord_r : (setResultWord v s).r = s.r := rfl
@[simp] theorem setResultWord_ks : (setResultWord v s).ks = s.ks := rfl
@[simp] theorem setResultWord_state : (setResultWord v s).state = s.state := rfl
@[simp] theorem setResultWord_key : (setResultWord v s).key = s.key := rfl
@[simp] theorem setResultWord_keylen : (setResultWord v s).keylen = s.keylen := rfl
@[simp] theorem setResultWord_ibuf : (setResultWord v s).ibuf = s.ibuf := rfl
@[simp] theorem setResultWord_obuf : (setResultWord v s).obuf = s.obuf := rfl
@[simp] theorem setResultWord_inlen : (setResultWord v s).inlen = s.inlen := rfl
@[simp] theorem setResultWord_outlen : (setResultWord v s).outlen = s.outlen := rfl
@[simp] theorem setResultWord_result : (setResultWord v s).result = v := rfl
@[simp] theorem setResultWord_ok : (setResultWord v s).ok = s.ok := rfl
@[simp] theorem setResultWord_fail : (setResultWord v s).fail = s.fail := rfl
@[simp] theorem setResultWord_err : (setResultWord v s).err = s.err := rfl
@[simp] theorem setResultWord_pending : (setResultWord v s).pending = s.pending := rfl
@[simp] theorem setResultWord_replies : (setResultWord v s).replies = s.replies := rfl

end

section
variable (f : Matrix → Matrix) (s : State)

@[simp] theorem setMatrix_log : (setMatrix f s).log = s.log := rfl
@[simp] theorem setMatrix_ilog : (setMatrix f s).ilog = s.ilog := rfl
@[simp] theorem setMatrix_gfValid : (setMatrix f s).gfValid = s.gfValid := rfl
@[simp] theorem setMatrix_sbox : (setMatrix f s).sbox = s.sbox := rfl
@[simp] theorem setMatrix_isbox : (setMatrix f s).isbox = s.isbox := rfl
@[simp] theorem setMatrix_sbValid : (setMatrix f s).sbValid = s.sbValid := rfl
@[simp] theorem setMatrix_ctxValid : (setMatrix f s).ctxValid = s.ctxValid := rfl
@[simp] theorem setMatrix_nk : (setMatrix f s).nk = s.nk := rfl
@[simp] theorem setMatrix_r : (setMatrix f s).r = s.r := rfl
@[simp] theorem setMatrix_ks : (setMatrix f s).ks = s.ks := rfl
@[simp] theorem setMatrix_state : (setMatrix f s).state = f s.state := rfl
@[simp] theorem setMatrix_key : (setMatrix f s).key = s.key := rfl
@[simp] theorem setMatrix_keylen : (setMatrix f s).keylen = s.keylen := rfl
@[simp] theorem setMatrix_ibuf : (setMatrix f s).ibuf = s.ibuf := rfl
@[simp] theorem setMatrix_obuf : (setMatrix f s).obuf = s.obuf := rfl
@[simp] theorem setMatrix_inlen : (setMatrix f s).inlen = s.inlen := rfl
@[simp] theorem setMatrix_outlen : (setMatrix f s).outlen = s.outlen := rfl
@[simp] theorem setMatrix_result : (setMatrix f s).result = s.result := rfl
@[simp] theorem setMatrix_ok : (setMatrix f s).ok = s.ok := rfl
@[simp] theorem setMatrix_fail : (setMatrix f s).fail = s.fail := rfl
@[simp] theorem setMatrix_err : (setMatrix f s).err = s.err := rfl
@[simp] theorem setMatrix_pending : (setMatrix f s).pending = s.pending := rfl
@[simp] theorem setMatrix_replies : (setMatrix f s).replies = s.replies := rfl

end

section
variable (n : Nat) (s : State)

@[simp] theorem loadState_log : (loadState n s).log = s.log := rfl
@[simp] theorem loadState_ilog : (loadState n s).ilog = s.ilog := rfl
@[simp] theorem loadState_gfValid : (loadState n s).gfValid = s.gfValid := rfl
@[simp] theorem loadState_sbox : (loadState n s).sbox = s.sbox := rfl
@[simp] theorem loadState_isbox : (loadState n s).isbox = s.isbox := rfl
@[simp] theorem loadState_sbValid : (loadState n s).sbValid = s.sbValid := rfl
@[simp] theorem loadState_ctxValid : (loadState n s).ctxValid = s.ctxValid := rfl
@[simp] theorem loadState_nk : (loadState n s).nk = s.nk := rfl
@[simp] theorem loadState_r : (loadState n s).r = s.r := rfl
@[simp] theorem loadState_ks : (loadState n s).ks = s.ks := rfl
@[simp] theorem loadState_state : (loadState n s).state = loadMatrix s.ibuf n := rfl
@[simp] theorem loadState_key : (loadState n s).key = s.key := rfl
@[simp] theorem loadState_keylen : (loadState n s).keylen = s.keylen := rfl
@[simp] theorem loadState_ibuf : (loadState n s).ibuf = s.ibuf := rfl
@[simp] theorem loadState_obuf : (loadState n s).obuf = s.obuf := rfl
@[simp] theorem loadState_inlen : (loadState n s).inlen = s.inlen := rfl
@[simp] theorem loadState_outlen : (loadState n s).outlen = s.outlen := rfl
@[simp] theorem loadState_result : (loadState n s).result = s.result := rfl
@[simp] theorem loadState_ok : (loadState n s).ok = s.ok := rfl
@[simp] theorem loadState_fail : (loadState n s).fail = s.fail := rfl
@[simp] theorem loadState_err : (loadState n s).err = s.err := rfl
@[simp] theorem loadState_pending : (loadState n s).pending = s.pending := rfl
@[simp] theorem loadState_replies : (loadState n s).replies = s.replies := rfl

end

section
variable (m : Memory) (s : State)

@[simp] theorem setObuf_log : (setObuf m s).log = s.log := rfl
@[simp] theorem setObuf_ilog : (setObuf m s).ilog = s.ilog := rfl
@[simp] theorem setObuf_gfValid : (setObuf m s).gfValid = s.gfValid := rfl
@[simp] theorem setObuf_sbox : (setObuf m s).sbox = s.sbox := rfl
@[simp] theorem setObuf_isbox : (setObuf m s).isbox = s.isbox := rfl
@[simp] theorem setObuf_sbValid : (setObuf m s).sbValid = s.sbValid := rfl
@[simp] theorem setObuf_ctxValid : (setObuf m s).ctxValid = s.ctxValid := rfl
@[simp] theorem setObuf_nk : (setObuf m s).nk = s.nk := rfl
@[simp] theorem setObuf_r : (setObuf m s).r = s.r := rfl
@[simp] theorem setObuf_ks : (setObuf m s).ks = s.ks := rfl
@[simp] theorem setObuf_state : (setObuf m s).state = s.state := rfl
@[simp] theorem setObuf_key : (setObuf m s).key = s.key := rfl
@[simp] theorem setObuf_keylen : (setObuf m s).keylen = s.keylen := rfl
@[simp] theorem setObuf_ibuf : (setObuf m s).ibuf = s.ibuf := rfl
@[simp] theorem setObuf_obuf : (setObuf m s).obuf = m := rfl
@[simp] theorem setObuf_inlen : (setObuf m s).inlen = s.inlen := rfl
@[simp] theorem setObuf_outlen : (setObuf m s).outlen = s.outlen := rfl
@[simp] theorem setObuf_result : (setObuf m s).result = s.result := rfl
@[simp] theorem setObuf_ok : (setObuf m s).ok = s.ok := rfl
@[simp] theorem setObuf_fail : (setObuf m s).fail = s.fail := rfl
@[simp] theorem setObuf_err : (setObuf m s).err = s.err := rfl
@[simp] theorem setObuf_pending : (setObuf m s).pending = s.pending := rfl
@[simp] theorem setObuf_replies : (setObuf m s).replies = s.replies := rfl

end

section
variable (n : Nat) (s : State)

@[simp] theorem storeState_log : (storeState n s).log = s.log := by simp only [storeState, setObuf_log]
@[simp] theorem storeState_ilog : (storeState n s).ilog = s.ilog := by simp only [storeState, setObuf_ilog]
@[simp] theorem storeState_gfValid : (storeState n s).gfValid = s.gfValid := by simp only [storeState, setObuf_gfValid]
@[simp] theorem storeState_sbox : (storeState n s).sbox = s.sbox := by simp only [storeState, setObuf_sbox]
@[simp] theorem storeState_isbox : (storeState n s).isbox = s.isbox := by simp only [storeState, setObuf_isbox]
@[simp] theorem storeState_sbValid : (storeState n s).sbValid = s.sbValid := by simp only [storeState, setObuf_sbValid]
@[simp] theorem storeState_ctxValid : (storeState n s).ctxValid = s.ctxValid := by simp only [storeState, setObuf_ctxValid]
@[simp] theorem storeState_nk : (storeState n s).nk = s.nk := by simp only [storeState, setObuf_nk]
@[simp] theorem storeState_r : (storeState n s).r = s.r := by simp only [storeState, setObuf_r]
@[simp] theorem storeState_ks : (storeState n s).ks = s.ks := by simp only [storeState, setObuf_ks]
@[simp] theorem storeState_state : (storeState n s).state = s.state := by simp only [storeState, setObuf_state]
@[simp] theorem storeState_key : (storeState n s).key = s.key := by simp only [storeState, setObuf_key]
@[simp] theorem storeState_keylen : (storeState n s).keylen = s.keylen := by simp only [storeState, setObuf_keylen]
@[simp] theorem storeState_ibuf : (storeState n s).ibuf = s.ibuf := by simp only [storeState, setObuf_ibuf]
@[simp] theorem storeState_obuf : (storeState n s).obuf = memWriteFrom (blockByte s.state) (blockAddr n 0) 16 0 s.obuf := by simp only [storeState, setObuf_obuf]
@[simp] theorem storeState_inlen : (storeState n s).inlen = s.inlen := by simp only [storeState, setObuf_inlen]
@[simp] theorem storeState_outlen : (storeState n s).outlen = s.outlen := by simp only [storeState, setObuf_outlen]
@[simp] theorem storeState_result : (storeState n s).result = s.result := by simp only [storeState, setObuf_result]
@[simp] theorem storeState_ok : (storeState n s).ok = s.ok := by simp only [storeState, setObuf_ok]
@[simp] theorem storeState_fail : (storeState n s).fail = s.fail := by simp only [storeState, setObuf_fail]
@[simp] theorem storeState_err : (storeState n s).err = s.err := by simp only [storeState, setObuf_err]
@[simp] theorem storeState_pending : (storeState n s).pending = s.pending := by simp only [storeState, setObuf_pending]
@[simp] theorem storeState_replies : (storeState n s).replies = s.replies := by simp only [storeState, setObuf_replies]

end

section
variable (t : Table × Table) (s : State)

@[simp] theorem setGfTables_log : (setGfTables t s).log = t.1 := rfl
@[simp] theorem setGfTables_ilog : (setGfTables t s).ilog = t.2 := rfl
@[simp] theorem setGfTables_gfValid : (setGfTables t s).gfValid = true := rfl
@[simp] theorem setGfTables_sbox : (setGfTables t s).sbox = s.sbox := rfl
@[simp] theorem setGfTables_isbox : (setGfTables t s).isbox = s.isbox := rfl
@[simp] theorem setGfTables_sbValid : (setGfTables t s).sbValid = s.sbValid := rfl
@[simp] theorem setGfTables_ctxValid : (setGfTables t s).ctxValid = s.ctxValid := rfl
@[simp] theorem setGfTables_nk : (setGfTables t s).nk = s.nk := rfl
@[simp] theorem setGfTables_r : (setGfTables t s).r = s.r := rfl
@[simp] theorem setGfTables_ks : (setGfTables t s).ks = s.ks := rfl
@[simp] theorem setGfTables_state : (setGfTables t s).state = s.state := rfl
@[simp] theorem setGfTables_key : (setGfTables t s).key = s.key := rfl
@[simp] theorem setGfTables_keylen : (setGfTables t s).keylen = s.keylen := rfl
@[simp] theorem setGfTables_ibuf : (setGfTables t s).ibuf = s.ibuf := rfl
@[simp] theorem setGfTables_obuf : (setGfTables t s).obuf = s.obuf := rfl
@[simp] theorem setGfTables_inlen : (setGfTables t s).inlen = s.inlen := rfl
@[simp] theorem setGfTables_outlen : (setGfTables t s).outlen = s.outlen := rfl
@[simp] theorem setGfTables_result : (setGfTables t s).result = s.result := rfl
@[simp] theorem setGfTables_ok : (setGfTables t s).ok = s.ok := rfl
@[simp] theorem setGfTables_fail : (setGfTables t s).fail = s.fail := rfl
@[simp] theorem setGfTables_err : (setGfTables t s).err = s.err := rfl
@[simp] theorem setGfTables_pending : (setGfTables t s).pending = s.pending := rfl
@[simp] theorem setGfTables_replies : (setGfTables t s).replies = s.replies := rfl

end

section
variable (t : Table × Table) (s : State)

@[simp] theorem setSboxTables_log : (setSboxTables t s).log = s.log := rfl
@[simp] theorem setSboxTables_ilog : (setSboxTables t s).ilog = s.ilog := rfl
@[simp] theorem setSboxTables_gfValid : (setSboxTables t s).gfValid = s.gfValid := rfl
@[simp] theorem setSboxTables_sbox : (setSboxTables t s).sbox = t.1 := rfl
@[simp] theorem setSboxTables_isbox : (setSboxTables t s).isbox = t.2 := rfl
@[simp] theorem setSboxTables_sbValid : (setSboxTables t s).sbValid = true := rfl
@[simp] theorem setSboxTables_ctxValid : (setSboxTables t s).ctxValid = s.ctxValid := rfl
@[simp] theorem setSboxTables_nk : (setSboxTables t s).nk = s.nk := rfl
@[simp] theorem setSboxTables_r : (setSboxTables t s).r = s.r := rfl
@[simp] theorem setSboxTables_ks : (setSboxTables t s).ks = s.ks := rfl
@[simp] theorem setSboxTables_state : (setSboxTables t s).state = s.state := rfl
@[simp] theorem setSboxTables_key : (setSboxTables t s).key = s.key := rfl
@[simp] theorem setSboxTables_keylen : (setSboxTables t s).keylen = s.keylen := rfl
@[simp] theorem setSboxTables_ibuf : (setSboxTables t s).ibuf = s.ibuf := rfl
@[simp] theorem setSboxTables_obuf : (setSboxTables t s).obuf = s.obuf := rfl
@[simp] theorem setSboxTables_inlen : (setSboxTables t s).inlen = s.inlen := rfl
@[simp] theorem setSboxTables_outlen : (setSboxTables t s).outlen = s.outlen := rfl
@[simp] theorem setSboxTables_result : (setSboxTables t s).result = s.result := rfl
@[simp] theorem setSboxTables_ok : (setSboxTables t s).ok = s.ok := rfl
@[simp] theorem setSboxTables_fail : (setSboxTables t s).fail = s.fail := rfl
@[simp] theorem setSboxTables_err : (setSboxTables t s).err = s.err := rfl
@[simp] theorem setSboxTables_pending : (setSboxTables t s).pending = s.pending := rfl
@[simp] theorem setSboxTables_replies : (setSboxTables t s).replies = s.replies := rfl

end

section
variable (n : Nat) (k : Schedule) (s : State)

@[simp] theorem setContext_log : (setContext n k s).log = s.log := rfl
@[simp] theorem setContext_ilog : (setContext n k s).ilog = s.ilog := rfl
@[simp] theorem setContext_gfValid : (setContext n k s).gfValid = s.gfValid := rfl
@[simp] theorem setContext_sbox : (setContext n k s).sbox = s.sbox := rfl
@[simp] theorem setContext_isbox : (setContext n k s).isbox = s.isbox := rfl
@[simp] theorem setContext_sbValid : (setContext n k s).sbValid = s.sbValid := rfl
@[simp] theorem setContext_ctxValid : (setContext n k s).ctxValid = true := rfl
@[simp] theorem setContext_nk : (setContext n k s).nk = BitVec.ofNat 4 n := rfl
@[simp] theorem setContext_r : (setContext n k s).r = BitVec.ofNat 4 (n + 6) := rfl
@[simp] theorem setContext_ks : (setContext n k s).ks = k := rfl
@[simp] theorem setContext_state : (setContext n k s).state = zeroMatrix := rfl
@[simp] theorem setContext_key : (setContext n k s).key = s.key := rfl
@[simp] theorem setContext_keylen : (setContext n k s).keylen = s.keylen := rfl
@[simp] theorem setContext_ibuf : (setContext n k s).ibuf = s.ibuf := rfl
@[simp] theorem setContext_obuf : (setContext n k s).obuf = s.obuf := rfl
@[simp] theorem setContext_inlen : (setContext n k s).inlen = s.inlen := rfl
@[simp] theorem setContext_outlen : (setContext n k s).outlen = s.outlen := rfl
@[simp] theorem setContext_result : (setContext n k s).result = s.result := rfl
@[simp] theorem setContext_ok : (setContext n k s).ok = s.ok := rfl
@[simp] theorem setContext_fail : (setContext n k s).fail = s.fail := rfl
@[simp] theorem setContext_err : (setContext n k s).err = s.err := rfl
@[simp] theorem setContext_pending : (setContext n k s).pending = s.pending := rfl
@[simp] theorem setContext_replies : (setContext n k s).replies = s.replies := rfl

end

section
variable (s : State)

@[simp] theorem releaseContext_log : (releaseContext s).log = s.log := rfl
@[simp] theorem releaseContext_ilog : (releaseContext s).ilog = s.ilog := rfl
@[simp] theorem releaseContext_gfValid : (releaseContext s).gfValid = s.gfValid := rfl
@[simp] theorem releaseContext_sbox : (releaseContext s).sbox = s.sbox := rfl
@[simp] theorem releaseContext_isbox : (releaseContext s).isbox = s.isbox := rfl
@[simp] theorem releaseContext_sbValid : (releaseContext s).sbValid = s.sbValid := rfl
@[simp] theorem releaseContext_ctxValid : (releaseContext s).ctxValid = false := rfl
@[simp] theorem releaseContext_nk : (releaseContext s).nk = 0 := rfl
@[simp] theorem releaseContext_r : (releaseContext s).r = 0 := rfl
@[simp] theorem releaseContext_ks : (releaseContext s).ks = ksClearFrom 60 0 s.ks := rfl
@[simp] theorem releaseContext_state : (releaseContext s).state = zeroMatrix := rfl
@[simp] theorem releaseContext_key : (releaseContext s).key = s.key := rfl
@[simp] theorem releaseContext_keylen : (releaseContext s).keylen = s.keylen := rfl
@[simp] theorem releaseContext_ibuf : (releaseContext s).ibuf = s.ibuf := rfl
@[simp] theorem releaseContext_obuf : (releaseContext s).obuf = s.obuf := rfl
@[simp] theorem releaseContext_inlen : (releaseContext s).inlen = s.inlen := rfl
@[simp] theorem releaseContext_outlen : (releaseContext s).outlen = s.outlen := rfl
@[simp] theorem releaseContext_result : (releaseContext s).result = s.result := rfl
@[simp] theorem releaseContext_ok : (releaseContext s).ok = s.ok := rfl
@[simp] theorem releaseContext_fail : (releaseContext s).fail = s.fail := rfl
@[simp] theorem releaseContext_err : (releaseContext s).err = s.err := rfl
@[simp] theorem releaseContext_pending : (releaseContext s).pending = s.pending := rfl
@[simp] theorem releaseContext_replies : (releaseContext s).replies = s.replies := rfl

end

section
variable (s : State)

@[simp] theorem buildGfTables_log : (buildGfTables s).log = (gfWalk 255 0 0x01 (s.log, s.ilog)).1 := by simp only [buildGfTables, setGfTables_log]
@[simp] theorem buildGfTables_ilog : (buildGfTables s).ilog = (gfWalk 255 0 0x01 (s.log, s.ilog)).2 := by simp only [buildGfTables, setGfTables_ilog]
@[simp] theorem buildGfTables_gfValid : (buildGfTables s).gfValid = true := by simp only [buildGfTables, setGfTables_gfValid]
@[simp] theorem buildGfTables_sbox : (buildGfTables s).sbox = s.sbox := by simp only [buildGfTables, setGfTables_sbox]
@[simp] theorem buildGfTables_isbox : (buildGfTables s).isbox = s.isbox := by simp only [buildGfTables, setGfTables_isbox]
@[simp] theorem buildGfTables_sbValid : (buildGfTables s).sbValid = s.sbValid := by simp only [buildGfTables, setGfTables_sbValid]
@[simp] theorem buildGfTables_ctxValid : (buildGfTables s).ctxValid = s.ctxValid := by simp only [buildGfTables, setGfTables_ctxValid]
@[simp] theorem buildGfTables_nk : (buildGfTables s).nk = s.nk := by simp only [buildGfTables, setGfTables_nk]
@[simp] theorem buildGfTables_r : (buildGfTables s).r = s.r := by simp only [buildGfTables, setGfTables_r]
@[simp] theorem buildGfTables_ks : (buildGfTables s).ks = s.ks := by simp only [buildGfTables, setGfTables_ks]
@[simp] theorem buildGfTables_state : (buildGfTables s).state = s.state := by simp only [buildGfTables, setGfTables_state]
@[simp] theorem buildGfTables_key : (buildGfTables s).key = s.key := by simp only [buildGfTables, setGfTables_key]
@[simp] theorem buildGfTables_keylen : (buildGfTables s).keylen = s.keylen := by simp only [buildGfTables, setGfTables_keylen]
@[simp] theorem buildGfTables_ibuf : (buildGfTables s).ibuf = s.ibuf := by simp only [buildGfTables, setGfTables_ibuf]
@[simp] theorem buildGfTables_obuf : (buildGfTables s).obuf = s.obuf := by simp only [buildGfTables, setGfTables_obuf]
@[simp] theorem buildGfTables_inlen : (buildGfTables s).inlen = s.inlen := by simp only [buildGfTables, setGfTables_inlen]
@[simp] theorem buildGfTables_outlen : (buildGfTables s).outlen = s.outlen := by simp only [buildGfTables, setGfTables_outlen]
@[simp] theorem buildGfTables_result : (buildGfTables s).result = s.result := by simp only [buildGfTables, setGfTables_result]
@[simp] theorem buildGfTables_ok : (buildGfTables s).ok = s.ok := by simp only [buildGfTables, setGfTables_ok]
@[simp] theorem buildGfTables_fail : (buildGfTables s).fail = s.fail := by simp only [buildGfTables, setGfTables_fail]
@[simp] theorem buildGfTables_err : (buildGfTables s).err = s.err := by simp only [buildGfTables, setGfTables_err]
@[simp] theorem buildGfTables_pending : (buildGfTables s).pending = s.pending := by simp only [buildGfTables, setGfTables_pending]
@[simp] theorem buildGfTables_replies : (buildGfTables s).replies = s.replies := by simp only [buildGfTables, setGfTables_replies]
@[simp] theorem buildSbox_log : (buildSbox s).log = s.log := by simp only [buildSbox, setSboxTables_log]
@[simp] theorem buildSbox_ilog : (buildSbox s).ilog = s.ilog := by simp only [buildSbox, setSboxTables_ilog]
@[simp] theorem buildSbox_gfValid : (buildSbox s).gfValid = s.gfValid := by simp only [buildSbox, setSboxTables_gfValid]
@[simp] theorem buildSbox_sbox : (buildSbox s).sbox = (sboxPatch (sboxLoop s.log s.ilog 256 0 (s.sbox, s.isbox))).1 := by simp only [buildSbox, setSboxTables_sbox]
@[simp] theorem buildSbox_isbox : (buildSbox s).isbox = (sboxPatch (sboxLoop s.log s.ilog 256 0 (s.sbox, s.isbox))).2 := by simp only [buildSbox, setSboxTables_isbox]
@[simp] theorem buildSbox_sbValid : (buildSbox s).sbValid = true := by simp only [buildSbox, setSboxTables_sbValid]
@[simp] theorem buildSbox_ctxValid : (buildSbox s).ctxValid = s.ctxValid := by simp only [buildSbox, setSboxTables_ctxValid]
@[simp] theorem buildSbox_nk : (buildSbox s).nk = s.nk := by simp only [buildSbox, setSboxTables_nk]
@[simp] theorem buildSbox_r : (buildSbox s).r = s.r := by simp only [buildSbox, setSboxTables_r]
@[simp] theorem buildSbox_ks : (buildSbox s).ks = s.ks := by simp only [buildSbox, setSboxTables_ks]
@[simp] theorem buildSbox_state : (buildSbox s).state = s.state := by simp only [buildSbox, setSboxTables_state]
@[simp] theorem buildSbox_key : (buildSbox s).key = s.key := by simp only [buildSbox, setSboxTables_key]
@[simp] theorem buildSbox_keylen : (buildSbox s).keylen = s.keylen := by simp only [buildSbox, setSboxTables_keylen]
@[simp] theorem buildSbox_ibuf : (buildSbox s).ibuf = s.ibuf := by simp only [buildSbox, setSboxTables_ibuf]
@[simp] theorem buildSbox_obuf : (buildSbox s).obuf = s.obuf := by simp only [buildSbox, setSboxTables_obuf]
@[simp] theorem buildSbox_inlen : (buildSbox s).inlen = s.inlen := by simp only [buildSbox, setSboxTables_inlen]
@[simp] theorem buildSbox_outlen : (buildSbox s).outlen = s.outlen := by simp only [buildSbox, setSboxTables_outlen]
@[simp] theorem buildSbox_result : (buildSbox s).result = s.result := by simp only [buildSbox, setSboxTables_result]
@[simp] theorem buildSbox_ok : (buildSbox s).ok = s.ok := by simp only [buildSbox, setSboxTables_ok]
@[simp] theorem buildSbox_fail : (buildSbox s).fail = s.fail := by simp only [buildSbox, setSboxTables_fail]
@[simp] theorem buildSbox_err : (buildSbox s).err = s.err := by simp only [buildSbox, setSboxTables_err]
@[simp] theorem buildSbox_pending : (buildSbox s).pending = s.pending := by simp only [buildSbox, setSboxTables_pending]
@[simp] theorem buildSbox_replies : (buildSbox s).replies = s.replies := by simp only [buildSbox, setSboxTables_replies]
@[simp] theorem rebuildTables_gfValid : (rebuildTables s).gfValid = true := by simp [rebuildTables]
@[simp] theorem rebuildTables_sbValid : (rebuildTables s).sbValid = true := by simp [rebuildTables]
@[simp] theorem rebuildTables_ctxValid : (rebuildTables s).ctxValid = s.ctxValid := by simp [rebuildTables]
@[simp] theorem rebuildTables_nk : (rebuildTables s).nk = s.nk := by simp [rebuildTables]
@[simp] theorem rebuildTables_r : (rebuildTables s).r = s.r := by simp [rebuildTables]
@[simp] theorem rebuildTables_ks : (rebuildTables s).ks = s.ks := by simp [rebuildTables]
@[simp] theorem rebuildTables_state : (rebuildTables s).state = s.state := by simp [rebuildTables]
@[simp] theorem rebuildTables_key : (rebuildTables s).key = s.key := by simp [rebuildTables]
@[simp] theorem rebuildTables_keylen : (rebuildTables s).keylen = s.keylen := by simp [rebuildTables]
@[simp] theorem rebuildTables_ibuf : (rebuildTables s).ibuf = s.ibuf := by simp [rebuildTables]
@[simp] theorem rebuildTables_obuf : (rebuildTables s).obuf = s.obuf := by simp [rebuildTables]
@[simp] theorem rebuildTables_inlen : (rebuildTables s).inlen = s.inlen := by simp [rebuildTables]
@[simp] theorem rebuildTables_outlen : (rebuildTables s).outlen = s.outlen := by simp [rebuildTables]
@[simp] theorem rebuildTables_result : (rebuildTables s).result = s.result := by simp [rebuildTables]
@[simp] theorem rebuildTables_ok : (rebuildTables s).ok = s.ok := by simp [rebuildTables]
@[simp] theorem rebuildTables_fail : (rebuildTables s).fail = s.fail := by simp [rebuildTables]
@[simp] theorem rebuildTables_err : (rebuildTables s).err = s.err := by simp [rebuildTables]
@[simp] theorem rebuildTables_pending : (rebuildTables s).pending = s.pending := by simp [rebuildTables]
@[simp] theorem rebuildTables_replies : (rebuildTables s).replies = s.replies := by simp [rebuildTables]
@[simp] theorem rebuildTables_log : (rebuildTables s).log = (buildGfTables s).log := by simp [rebuildTables]
@[simp] theorem rebuildTables_ilog : (rebuildTables s).ilog = (buildGfTables s).ilog := by simp [rebuildTables]
@[simp] theorem installContext_log : (installContext s).log = (rebuildTables s).log := by
  simp [installContext, expandAndInstall]
@[simp] theorem installContext_ilog : (installContext s).ilog = (rebuildTables s).ilog := by
  simp [installContext, expandAndInstall]
@[simp] theorem installContext_gfValid : (installContext s).gfValid = true := by
  simp [installContext, expandAndInstall]
@[simp] theorem installContext_sbox : (installContext s).sbox = (rebuildTables s).sbox := by
  simp [installContext, expandAndInstall]
@[simp] theorem installContext_isbox : (installContext s).isbox = (rebuildTables s).isbox := by
  simp [installContext, expandAndInstall]
@[simp] theorem installContext_sbValid : (installContext s).sbValid = true := by
  simp [installContext, expandAndInstall]
@[simp] theorem installContext_ctxValid : (installContext s).ctxValid = true := by
  simp [installContext, expandAndInstall]
@[simp] theorem installContext_nk : (installContext s).nk = BitVec.ofNat 4 (s.keylen.toNat / 4) := by
  simp [installContext, expandAndInstall]
@[simp] theorem installContext_r : (installContext s).r = BitVec.ofNat 4 (s.keylen.toNat / 4 + 6) := by
  simp [installContext, expandAndInstall]
@[simp] theorem installContext_state : (installContext s).state = zeroMatrix := by
  simp [installContext, expandAndInstall]
@[simp] theorem installContext_key : (installContext s).key = s.key := by
  simp [installContext, expandAndInstall]
@[simp] theorem installContext_keylen : (installContext s).keylen = s.keylen := by
  simp [installContext, expandAndInstall]
@[simp] theorem installContext_ibuf : (installContext s).ibuf = s.ibuf := by
  simp [installContext, expandAndInstall]
@[simp] theorem installContext_obuf : (installContext s).obuf = s.obuf := by
  simp [installContext, expandAndInstall]
@[simp] theorem installContext_inlen : (installContext s).inlen = s.inlen := by
  simp [installContext, expandAndInstall]
@[simp] theorem installContext_outlen : (installContext s).outlen = s.outlen := by
  simp [installContext, expandAndInstall]
@[simp] theorem installContext_result : (installContext s).result = s.result := by
  simp [installContext, expandAndInstall]
@[simp] theorem installContext_ok : (installContext s).ok = s.ok := by
  simp [installContext, expandAndInstall]
@[simp] theorem installContext_fail : (installContext s).fail = s.fail := by
  simp [installContext, expandAndInstall]
@[simp] theorem installContext_err : (installContext s).err = s.err := by
  simp [installContext, expandAndInstall]
@[simp] theorem installContext_pending : (installContext s).pending = s.pending := by
  simp [installContext, expandAndInstall]
@[simp] theorem installContext_replies : (installContext s).replies = s.replies := by
  simp [installContext, expandAndInstall]

end

end Sys2Proof.Machine
end

