-- ==== Sys2Proof/Laws/Command.lean ====
section
/-! SUPPORT. What a command can do, said once: every meaning is a check followed by an effect, so that it answers either
the failure record of the check or the effect with the success record (00_scope.md R7, 60_exceptions.md R188). -/

namespace Sys2Proof.Machine

@[simp] theorem runCommand_fail (e : ErrorKind) (f : State → State) (s : State) :
    runCommand (some e) f s = .next (raise e s) := rfl

@[simp] theorem runCommand_ok (f : State → State) (s : State) : runCommand none f s = .next (succeed (f s)) := rfl

/-- The inversion of `runCommand`. -/
theorem runCommand_cases {c : Option ErrorKind} {f : State → State} {s t : State} (h : runCommand c f s = .next t) :
    (∃ e, c = some e ∧ t = raise e s) ∨ (c = none ∧ t = succeed (f s)) := by
  cases c with
  | none => exact .inr ⟨rfl, (Host.Outcome.next.inj h).symm⟩
  | some e => exact .inl ⟨e, rfl, (Host.Outcome.next.inj h).symm⟩

/-- Only the effect on the state itself matters. -/
theorem runCommand_const (c : Option ErrorKind) (f : State → State) (s : State) :
    runCommand c f s = runCommand c (fun _ => f s) s := by
  cases c <;> rfl

/-- The check of a command: the error it raises in a state, if any. -/
def failureOf (i : Instr) (s : State) : Option ErrorKind :=
  match i with
  | .gfinit | .ctxrel | .initvec => none
  | .gfmul _ _ | .gfinv _ | .logrd _ | .ilogrd _ | .sbinit => checkGf s
  | .sbox _ | .isbox _ => checkSb s
  | .keyinit => checkKeyLength s
  | .ksrd k => (checkCtx s).or (checkScheduleIndex k s)
  | .ldst n | .stst n | .encblk n | .decblk n => (checkCtx s).or (checkBlockIndex n)
  | .ark n => (checkCtx s).or (checkRound n s)
  | .subb | .shr | .mixc | .isubb | .ishr | .imixc => checkCtx s
  | .enc | .dec => checkBuffer s

/-- The effect of a command whose check passes, before the success record. -/
def effectOf (i : Instr) (s : State) : State :=
  match i with
  | .gfinit => buildGfTables s
  | .gfmul a b => setResultByte (gfMul s.log s.ilog a b) s
  | .gfinv a => setResultByte (gfInv s.log s.ilog a) s
  | .logrd a => setResultByte (tableRead s.log a) s
  | .ilogrd e => setResultByte (tableRead s.ilog e) s
  | .sbinit => buildSbox s
  | .sbox a => setResultByte (tableRead s.sbox a) s
  | .isbox a => setResultByte (tableRead s.isbox a) s
  | .keyinit => installContext s
  | .ksrd k => setResultWord (ksRead s.ks k.toNat) s
  | .ctxrel => releaseContext s
  | .ldst n => loadState n.toNat s
  | .stst n => storeState n.toNat s
  | .ark n => setMatrix (addRoundKey s.ks n.toNat) s
  | .subb => setMatrix (substitute s.sbox) s
  | .shr => setMatrix shiftRows s
  | .mixc => setMatrix (mixColumns s.log s.ilog) s
  | .isubb => setMatrix (substitute s.isbox) s
  | .ishr => setMatrix invShiftRows s
  | .imixc => setMatrix (invMixColumns s.log s.ilog) s
  | .encblk n => encryptBlock n.toNat s
  | .decblk n => decryptBlock n.toNat s
  | .initvec => rebuildTables s
  | .enc => blockLoop encryptBlock (s.inlen.toNat / 16) 0 s
  | .dec => blockLoop decryptBlock (s.inlen.toNat / 16) 0 s

/-- Every command is its check and its effect. -/
theorem exec_eq (i : Instr) (s : State) : exec i s = runCommand (failureOf i s) (fun _ => effectOf i s) s := by
  cases i <;> simp only [exec, failureOf, effectOf, execGfinit, execGfmul, execGfinv, execLogrd, execIlogrd, execSbinit,
    execSbox, execIsbox, execKeyinit, execKsrd, execCtxrel, execLdst, execStst, execArk, execSubb, execShr, execMixc,
    execIsubb, execIshr, execImixc, execEncblk, execDecblk, execInitvec, execEnc, execDec] <;>
    exact runCommand_const _ _ _

/-- The inversion of `exec`: a next state is the failure record of the command's check, or its effect and success. -/
theorem exec_cases {i : Instr} {s t : State} (h : exec i s = .next t) :
    (∃ e, failureOf i s = some e ∧ t = raise e s) ∨ (failureOf i s = none ∧ t = succeed (effectOf i s)) := by
  rw [exec_eq] at h
  have := runCommand_cases h
  exact this

/-- A command whose check passes has its effect and succeeds. -/
theorem exec_ok {i : Instr} {s : State} (h : failureOf i s = none) : exec i s = .next (succeed (effectOf i s)) := by
  rw [exec_eq, h, runCommand_ok]

/-- A command whose check fails records the failure and nothing else. -/
theorem exec_fail {i : Instr} {s : State} {e : ErrorKind} (h : failureOf i s = some e) :
    exec i s = .next (raise e s) := by
  rw [exec_eq, h, runCommand_fail]

/-- Every command answers a next state (R185). -/
theorem exec_next (i : Instr) (s : State) : ∃ t, exec i s = .next t := by
  cases h : failureOf i s with
  | none => exact ⟨_, exec_ok h⟩
  | some e => exact ⟨_, exec_fail h⟩

@[simp] theorem checkGf_eq_none {s : State} : checkGf s = none ↔ s.gfValid = true := by
  simp [checkGf]

@[simp] theorem checkSb_eq_none {s : State} : checkSb s = none ↔ s.sbValid = true := by
  simp [checkSb]

@[simp] theorem checkCtx_eq_none {s : State} : checkCtx s = none ↔ s.ctxValid = true := by
  simp [checkCtx]

@[simp] theorem checkBlockIndex_eq_none (n : Byte) : checkBlockIndex n = none := by
  have : n.toNat < 256 := n.isLt
  simp [checkBlockIndex, Config.nblk, Config.bufBytes, this]

@[simp] theorem checkRound_eq_none {n : Byte} {s : State} : checkRound n s = none ↔ n.toNat ≤ s.r.toNat := by
  simp [checkRound]

@[simp] theorem checkScheduleIndex_eq_none {i : Byte} {s : State} :
    checkScheduleIndex i s = none ↔ i.toNat < scheduleLength s.r.toNat := by
  simp [checkScheduleIndex]

@[simp] theorem checkKeyLength_eq_none {s : State} :
    checkKeyLength s = none ↔ validKeyLength s.keylen.toNat = true := by
  simp [checkKeyLength]

theorem checkLengths_eq_none {s : State} :
    checkLengths s = none ↔
      s.inlen = s.outlen ∧ s.inlen.toNat % 16 = 0 ∧ s.inlen.toNat ≤ Config.bufBytes := by
  unfold checkLengths
  by_cases h1 : s.inlen = s.outlen <;> by_cases h2 : s.outlen.toNat % 16 = 0 <;>
    by_cases h3 : s.outlen.toNat ≤ Config.bufBytes <;> simp_all

theorem checkBuffer_eq_none {s : State} :
    checkBuffer s = none ↔
      s.ctxValid = true ∧ s.inlen = s.outlen ∧ s.inlen.toNat % 16 = 0 ∧ s.inlen.toNat ≤ Config.bufBytes := by
  simp [checkBuffer, checkLengths_eq_none]

end Sys2Proof.Machine
end

