-- ==== Sys2Proof/Laws/Storage.lean ====
section
/-! SUPPORT. The storage laws: tables, schedule, block state and byte windows. A read after a write to the same place gives
the value written, a write leaves every other place alone, and a window keeps its canonical form. -/

namespace Sys2Proof.Machine

section Tables

@[simp] theorem tableRead_tableWrite_self (t : Table) (i v : Byte) : tableRead (tableWrite t i v) i = v := by
  simp [tableRead, tableWrite]

theorem tableRead_tableWrite_ne (t : Table) {i j : Byte} (v : Byte) (h : j ≠ i) :
    tableRead (tableWrite t i v) j = tableRead t j := by
  have : i.toNat ≠ j.toNat := fun e => h (BitVec.eq_of_toNat_eq e.symm)
  simp [tableRead, tableWrite, Vector.getElem_set_ne _ _ this]

theorem tableRead_tableWrite (t : Table) (i j v : Byte) :
    tableRead (tableWrite t i v) j = if j = i then v else tableRead t j := by
  split
  · next h => rw [h, tableRead_tableWrite_self]
  · next h => exact tableRead_tableWrite_ne t v h

/-- Two tables that read alike are equal. -/
theorem table_ext {t u : Table} (h : ∀ i : Byte, tableRead t i = tableRead u i) : t = u := by
  apply Vector.ext
  intro k hk
  have hm : k % 256 = k := Nat.mod_eq_of_lt hk
  simpa [tableRead, BitVec.toNat_ofNat, hm] using h (BitVec.ofNat 8 k)

theorem tableRead_replicate (v i : Byte) : tableRead (Vector.replicate 256 v) i = v := by
  simp [tableRead]

end Tables

section Schedules

theorem ksRead_ksWrite_self (ks : Schedule) {i : Nat} (v : Word) (h : i < 60) : ksRead (ksWrite ks i v) i = v := by
  simp [ksRead, ksWrite, Vector.getD, h]

theorem ksRead_ksWrite_ne (ks : Schedule) {i j : Nat} (v : Word) (h : j ≠ i) :
    ksRead (ksWrite ks i v) j = ksRead ks j := by
  have hij : i ≠ j := fun e => h e.symm
  simp [ksRead, ksWrite, Vector.getD, hij]

/-- Two schedules that read alike below 60 are equal. -/
theorem schedule_ext {a b : Schedule} (h : ∀ i < 60, ksRead a i = ksRead b i) : a = b := by
  apply Vector.ext
  intro k hk
  simpa [ksRead, Vector.getD, hk] using h k hk

theorem ksRead_of_le (ks : Schedule) {i : Nat} (h : 60 ≤ i) : ksRead ks i = 0 := by
  have : ¬ i < 60 := by omega
  simp [ksRead, Vector.getD, this]

theorem ksRead_replicate (i : Nat) : ksRead (Vector.replicate 60 0) i = 0 := by
  by_cases h : i < 60 <;> simp [ksRead, Vector.getD, h]

end Schedules

section Matrices

@[simp] theorem cell_matrixOf (f : Fin 4 → Fin 4 → Byte) (x y : Fin 4) : cell (matrixOf f) x y = f x y := by
  fin_cases x <;> fin_cases y <;> rfl

/-- Two states with equal cells are equal. -/
theorem matrix_ext {S T : Matrix} (h : ∀ x y, cell S x y = cell T x y) : S = T := by
  apply Vector.ext
  intro i hi
  apply Vector.ext
  intro j hj
  exact h ⟨i, hi⟩ ⟨j, hj⟩

@[simp] theorem matrixOf_cell (S : Matrix) : matrixOf (fun x y => cell S x y) = S := matrix_ext (by simp)

@[simp] theorem cell_zeroMatrix (x y : Fin 4) : cell zeroMatrix x y = 0 := by simp [zeroMatrix]

/-- Block byte `byteOfCell x y` is the cell at row `x`, column `y` (R47). -/
@[simp] theorem blockByte_byteOfCell (S : Matrix) (x y : Fin 4) : blockByte S (byteOfCell x y) = cell S x y := by
  fin_cases x <;> fin_cases y <;> rfl

theorem byteOfCell_lt (x y : Fin 4) : byteOfCell x y < 16 := by
  have := x.isLt; have := y.isLt; simp only [byteOfCell]; omega

/-- Every block byte below 16 is a cell (R47). -/
theorem byteOfCell_of_byte {i : Nat} (h : i < 16) : byteOfCell (rowOfByte i) (colOfByte i) = i := by
  have h4 : i / 4 < 4 := by omega
  simp [byteOfCell, rowOfByte, colOfByte, Fin.ofNat, Nat.mod_eq_of_lt h4]
  omega

/-- Two states with equal block bytes are equal. -/
theorem matrix_ext_bytes {S T : Matrix} (h : ∀ i < 16, blockByte S i = blockByte T i) : S = T :=
  matrix_ext fun x y => by simpa using h _ (byteOfCell_lt x y)

end Matrices

section Windows

theorem memRead_memWrite_self (m : Memory) (a : Nat) (v : Byte) (h : m.wf = true) : memRead (memWrite m a v) a = v := by
  suffices H : ∀ (m : Memory) (low : Nat), Memory.wfFrom low m = true → memRead (memWrite m a v) a = v from H m 0 h
  intro m
  induction m with
  | nil =>
    intro low _
    by_cases hv : v = Config.unwritten <;> simp [memWrite, memRead, hv]
  | cons c m ih =>
    obtain ⟨b, w⟩ := c
    intro low hm
    have hrest : Memory.wfFrom (b + 1) m = true := by simp_all [Memory.wfFrom]
    have absent : ∀ (k : Memory) (lo : Nat), Memory.wfFrom lo k = true → a < lo → memRead k a = Config.unwritten := by
      intro k
      induction k with
      | nil => intro lo _ _; rfl
      | cons d k ihk =>
        intro lo hk ha
        obtain ⟨e, x⟩ := d
        simp only [Memory.wfFrom, Bool.and_eq_true, decide_eq_true_eq] at hk
        have : a ≠ e := by omega
        simp only [memRead, this, if_false]
        exact ihk (e + 1) hk.2 (by omega)
    unfold memWrite
    split
    · next hab =>
      split
      · next hv =>
        have : a ≠ b := by omega
        simp only [memRead, this, if_false]
        rw [absent m (b + 1) hrest (by omega), hv]
      · simp [memRead]
    · split
      · next hab hab' =>
        split
        · next hv => rw [absent m (b + 1) hrest (by omega), hv]
        · simp [memRead]
      · next hab hab' =>
        simp only [memRead, hab', if_false]
        exact ih (b + 1) hrest

theorem memRead_memWrite_ne (m : Memory) {a b : Nat} (v : Byte) (h : b ≠ a) :
    memRead (memWrite m a v) b = memRead m b := by
  induction m with
  | nil => by_cases hv : v = Config.unwritten <;> simp [memWrite, memRead, hv, h]
  | cons c m ih =>
    obtain ⟨d, w⟩ := c
    unfold memWrite
    split
    · split
      · rfl
      · simp [memRead, h]
    · split
      · next hd =>
        subst hd
        split <;> simp [memRead, h]
      · simp only [memRead]
        split
        · rfl
        · exact ih

theorem memWrite_wfFrom (m : Memory) (a : Nat) (v : Byte) :
    ∀ low, low ≤ a → Memory.wfFrom low m = true → Memory.wfFrom low (memWrite m a v) = true := by
  induction m with
  | nil =>
    intro low hl _
    by_cases hv : v = Config.unwritten <;> simp [memWrite, Memory.wfFrom, hv, hl]
  | cons c m ih =>
    obtain ⟨b, w⟩ := c
    intro low hl hm
    have hm' := hm
    simp only [Memory.wfFrom, Bool.and_eq_true, decide_eq_true_eq, bne_iff_ne] at hm
    unfold memWrite
    split
    · split
      · exact hm'
      · next hab hv =>
        simp only [Memory.wfFrom, Bool.and_eq_true, decide_eq_true_eq, bne_iff_ne]
        exact ⟨⟨hl, hv⟩, ⟨by omega, hm.1.2⟩, hm.2⟩
    · split
      · next hab hab' =>
        subst hab'
        split
        · have weaken : ∀ (k : Memory) (lo : Nat), Memory.wfFrom (a + 1) k = true → lo ≤ a → Memory.wfFrom lo k = true := by
            intro k lo hk hlo
            cases k with
            | nil => rfl
            | cons d k =>
              obtain ⟨e, x⟩ := d
              simp only [Memory.wfFrom, Bool.and_eq_true, decide_eq_true_eq] at hk ⊢
              exact ⟨⟨by omega, hk.1.2⟩, hk.2⟩
          exact weaken m low hm.2 hl
        · next hv =>
          simp only [Memory.wfFrom, Bool.and_eq_true, decide_eq_true_eq, bne_iff_ne]
          exact ⟨⟨hl, hv⟩, hm.2⟩
      · next hab hab' =>
        simp only [Memory.wfFrom, Bool.and_eq_true, decide_eq_true_eq, bne_iff_ne]
        exact ⟨hm.1, ih (b + 1) (by omega) hm.2⟩

/-- A write keeps the canonical form. -/
theorem memWrite_wf {m : Memory} (a : Nat) (v : Byte) (h : m.wf = true) : (memWrite m a v : Memory).wf = true :=
  memWrite_wfFrom m a v 0 (Nat.zero_le a) h

theorem within_cons (size b : Nat) (w : Byte) (m : Memory) :
    Memory.within size ((b, w) :: m) = true ↔ b < size ∧ Memory.within size m = true := by
  simp only [Memory.within, List.all_cons, Bool.and_eq_true, decide_eq_true_eq]

/-- A write inside a window keeps every listed offset inside it. -/
theorem memWrite_within {m : Memory} {size a : Nat} (v : Byte) (ha : a < size) (h : m.within size = true) :
    (memWrite m a v : Memory).within size = true := by
  induction m with
  | nil => by_cases hv : v = Config.unwritten <;> simp [memWrite, Memory.within, hv, ha]
  | cons c m ih =>
    obtain ⟨b, w⟩ := c
    have hbm := (within_cons size b w m).1 h
    unfold memWrite
    split
    · split
      · exact h
      · exact (within_cons ..).2 ⟨ha, h⟩
    · split
      · split
        · exact hbm.2
        · exact (within_cons ..).2 ⟨ha, hbm.2⟩
      · exact (within_cons ..).2 ⟨hbm.1, ih hbm.2⟩

/-- Two canonical windows that read alike are equal data. -/
theorem memory_ext {m k : Memory} (hm : m.wf = true) (hk : k.wf = true) (h : ∀ a, memRead m a = memRead k a) :
    m = k := by
  suffices H : ∀ (m k : Memory) (low : Nat), Memory.wfFrom low m = true → Memory.wfFrom low k = true →
      (∀ a, memRead m a = memRead k a) → m = k from H m k 0 hm hk h
  have absent : ∀ (k : Memory) (lo a : Nat), Memory.wfFrom lo k = true → a < lo → memRead k a = Config.unwritten := by
    intro k
    induction k with
    | nil => intros; rfl
    | cons d k ihk =>
      intro lo a hk ha
      obtain ⟨e, x⟩ := d
      simp only [Memory.wfFrom, Bool.and_eq_true, decide_eq_true_eq] at hk
      have : a ≠ e := by omega
      simp only [memRead, this, if_false]
      exact ihk (e + 1) a hk.2 (by omega)
  intro m
  induction m with
  | nil =>
    intro k low _ hk h
    cases k with
    | nil => rfl
    | cons d k =>
      obtain ⟨e, x⟩ := d
      have := h e
      simp_all [memRead, Memory.wfFrom]
  | cons c m ih =>
    intro k low hm hk h
    obtain ⟨b, v⟩ := c
    simp only [Memory.wfFrom, Bool.and_eq_true, decide_eq_true_eq, bne_iff_ne] at hm
    cases k with
    | nil =>
      have := h b
      simp_all [memRead]
    | cons d k =>
      obtain ⟨e, x⟩ := d
      simp only [Memory.wfFrom, Bool.and_eq_true, decide_eq_true_eq, bne_iff_ne] at hk
      have hbe : b = e := by
        rcases Nat.lt_trichotomy b e with hlt | heq | hgt
        · have hb := h b
          have hne : b ≠ e := by omega
          simp only [memRead, if_true, hne, if_false] at hb
          rw [absent k (e + 1) b hk.2 (by omega)] at hb
          exact absurd hb hm.1.2
        · exact heq
        · have he := h e
          have hne : e ≠ b := by omega
          simp only [memRead, if_true, hne, if_false] at he
          rw [absent m (b + 1) e hm.2 (by omega)] at he
          exact absurd he.symm hk.1.2
      subst hbe
      have hvx : v = x := by simpa [memRead] using h b
      subst hvx
      congr 1
      refine ih k (b + 1) hm.2 hk.2 fun a => ?_
      by_cases hab : a = b
      · subst hab
        rw [absent m _ _ hm.2 (by omega), absent k _ _ hk.2 (by omega)]
      · simpa [memRead, hab] using h a

/-- `memWriteFrom` keeps the canonical form. -/
theorem memWriteFrom_wf (f : Nat → Byte) (base count i : Nat) {m : Memory} (h : m.wf = true) :
    (memWriteFrom f base count i m : Memory).wf = true := by
  induction count generalizing i m with
  | zero => exact h
  | succ n ih => exact ih (i + 1) (memWrite_wf _ _ h)

/-- `memWriteFrom` inside a window keeps every listed offset inside it. -/
theorem memWriteFrom_within (f : Nat → Byte) (base count i : Nat) {size : Nat} {m : Memory}
    (hb : base + i + count ≤ size) (h : m.within size = true) :
    (memWriteFrom f base count i m : Memory).within size = true := by
  induction count generalizing i m with
  | zero => exact h
  | succ n ih => exact ih (i + 1) (by omega) (memWrite_within _ (by omega) h)

/-- `memWriteFrom` leaves every offset outside its run alone. -/
theorem memRead_memWriteFrom_outside (f : Nat → Byte) (base count i : Nat) (m : Memory) {a : Nat}
    (ha : a < base + i ∨ base + i + count ≤ a) : memRead (memWriteFrom f base count i m) a = memRead m a := by
  induction count generalizing i m with
  | zero => rfl
  | succ n ih =>
    simp only [memWriteFrom]
    rw [ih (i + 1) _ (by omega), memRead_memWrite_ne _ _ (by omega)]

/-- `memWriteFrom` stores `f k` at `base + k` for each `k` of its run. -/
theorem memRead_memWriteFrom_inside (f : Nat → Byte) (base count i : Nat) {m : Memory} (hm : m.wf = true) {k : Nat}
    (hk : i ≤ k) (hk' : k < i + count) : memRead (memWriteFrom f base count i m) (base + k) = f k := by
  induction count generalizing i m with
  | zero => omega
  | succ n ih =>
    simp only [memWriteFrom]
    by_cases h : k = i
    · subst h
      rw [memRead_memWriteFrom_outside _ _ _ _ _ (by omega), memRead_memWrite_self _ _ _ hm]
    · exact ih (i + 1) (memWrite_wf _ _ hm) (by omega) (by omega)

end Windows

end Sys2Proof.Machine
end

