-- ==== Sys2Proof/Laws/GfTables.lean ====
section
/-! SUPPORT. What the table walk leaves (41_gf_arithmetic.md R83, R84), for any contents it started from: the printed
tables on the entries it writes, the old contents of `LOG[0]` and `ILOG[255]`. -/

namespace Sys2Proof.Machine

/-- `mul_slow(a, 0x03) = xtime(a) XOR a` (R82). -/
theorem mulSlow_three (a : Byte) : mulSlow a 0x03 = xtime a ^^^ a := by
  simp only [mulSlow, mulSlowLoop, show (0x03 : Byte).getLsbD 0 = true from rfl,
    show (0x03 : Byte).getLsbD 1 = true from rfl, show (0x03 : Byte).getLsbD 2 = false from rfl,
    show (0x03 : Byte).getLsbD 3 = false from rfl, show (0x03 : Byte).getLsbD 4 = false from rfl,
    show (0x03 : Byte).getLsbD 5 = false from rfl, show (0x03 : Byte).getLsbD 6 = false from rfl,
    show (0x03 : Byte).getLsbD 7 = false from rfl, if_true, Bool.false_eq_true, if_false]
  rw [show (0x00 : Byte) ^^^ a = a by simp, BitVec.xor_comm]

/-- The powers of the generator that the walk visits from `v` on. -/
def powersFrom : Nat → Byte → List Byte
  | 0, _ => []
  | n + 1, v => v :: powersFrom n (xtime v ^^^ v)

/-- The walk as a pass over the elements it visits. -/
def walkList : List Byte → Nat → Table × Table → Table × Table
  | [], _, t => t
  | v :: vs, e, t =>
    walkList vs (e + 1) (tableWrite t.1 v (BitVec.ofNat 8 e), tableWrite t.2 (BitVec.ofNat 8 (e % 255)) v)

theorem gfWalk_eq_walkList (n e : Nat) (v : Byte) (t : Table × Table) :
    gfWalk n e v t = walkList (powersFrom n v) e t := by
  induction n generalizing e v t with
  | zero => rfl
  | succ n ih => rw [gfWalk, mulSlow_three, ih, powersFrom, walkList]

/-- The last value the pass writes to `LOG[x]`, if it writes there. -/
def lastLog : List Byte → Nat → Byte → Option Byte
  | [], _, _ => none
  | v :: vs, e, x => (lastLog vs (e + 1) x).or (if x = v then some (BitVec.ofNat 8 e) else none)

/-- The last value the pass writes to `ILOG[x]`, if it writes there. -/
def lastIlog : List Byte → Nat → Byte → Option Byte
  | [], _, _ => none
  | v :: vs, e, x => (lastIlog vs (e + 1) x).or (if x = BitVec.ofNat 8 (e % 255) then some v else none)

theorem walkList_log (vs : List Byte) (e : Nat) (t : Table × Table) (x : Byte) :
    tableRead (walkList vs e t).1 x = (lastLog vs e x).getD (tableRead t.1 x) := by
  induction vs generalizing e t with
  | nil => rfl
  | cons v vs ih =>
    rw [walkList, ih, lastLog, tableRead_tableWrite]
    cases lastLog vs (e + 1) x <;> by_cases h : x = v <;> simp [h]

theorem walkList_ilog (vs : List Byte) (e : Nat) (t : Table × Table) (x : Byte) :
    tableRead (walkList vs e t).2 x = (lastIlog vs e x).getD (tableRead t.2 x) := by
  induction vs generalizing e t with
  | nil => rfl
  | cons v vs ih =>
    rw [walkList, ih, lastIlog, tableRead_tableWrite]
    cases lastIlog vs (e + 1) x <;> by_cases h : x = BitVec.ofNat 8 (e % 255) <;> simp [h]

/-- ILOG is filled in index order, so entry `x` receives the element at position `x`. -/
theorem lastIlog_eq (vs : List Byte) (e : Nat) (x : Byte) (h : e + vs.length ≤ 255) :
    lastIlog vs e x = if e ≤ x.toNat then vs[x.toNat - e]? else none := by
  induction vs generalizing e with
  | nil => simp [lastIlog]
  | cons v vs ih =>
    simp only [List.length_cons] at h
    have he : e % 255 = e := Nat.mod_eq_of_lt (by omega)
    have hx : x = BitVec.ofNat 8 e ↔ x.toNat = e := by
      constructor
      · rintro rfl
        simp only [BitVec.toNat_ofNat]
        omega
      · intro hxe
        apply BitVec.eq_of_toNat_eq
        simp only [BitVec.toNat_ofNat]
        omega
    rw [lastIlog, ih (e + 1) (by omega), he]
    simp only [hx]
    rcases Nat.lt_trichotomy x.toNat e with hlt | heq | hgt
    · simp [show ¬ e + 1 ≤ x.toNat by omega, show ¬ e ≤ x.toNat by omega, show x.toNat ≠ e by omega]
    · simp [heq]
    · obtain ⟨d, hd⟩ := Nat.exists_eq_add_of_lt hgt
      rw [if_pos (by omega), if_neg (by omega), if_pos (by omega), show x.toNat - (e + 1) = d by omega,
        show x.toNat - e = d + 1 by omega]
      simp

/-- An element that the pass visits last at position `k` has logarithm `e + k`. -/
theorem lastLog_eq (vs : List Byte) (e k : Nat) (x : Byte) (hk : vs[k]? = some x)
    (later : ∀ j : Nat, k < j → vs[j]? ≠ some x) : lastLog vs e x = some (BitVec.ofNat 8 (e + k)) := by
  induction vs generalizing e k with
  | nil => simp at hk
  | cons v vs ih =>
    rw [lastLog]
    cases k with
    | zero =>
      have hv : v = x := by simpa using hk
      have absent : ∀ (ws : List Byte) (f : Nat), (∀ j : Nat, ws[j]? ≠ some x) → lastLog ws f x = none := by
        intro ws
        induction ws with
        | nil => intros; rfl
        | cons w ws ihw =>
          intro f hw
          have h0 : w ≠ x := by simpa using hw 0
          rw [lastLog, ihw (f + 1) fun j => by simpa using hw (j + 1), if_neg h0.symm]
          rfl
      rw [absent vs (e + 1) fun j => by simpa using later (j + 1) (by omega)]
      simp [hv]
    | succ k =>
      rw [ih (e + 1) k (by simpa using hk) fun j hj => by simpa using later (j + 1) (by omega)]
      simp [show e + 1 + k = e + (k + 1) by omega]

/-- An element the pass does not visit is not written. -/
theorem lastLog_none (vs : List Byte) (e : Nat) (x : Byte) (h : x ∉ vs) : lastLog vs e x = none := by
  induction vs generalizing e with
  | nil => rfl
  | cons v vs ih =>
    simp only [List.mem_cons, not_or] at h
    rw [lastLog, ih (e + 1) h.2, if_neg h.1]
    rfl

/-- The printed ILOG, entries 0 to 254: the elements the walk visits, in order (95_test_vectors.md section 2.1). -/
def walkElements : List Byte := (specIlogEntries.take 255).map (BitVec.ofNat 8)

theorem walkElements_length : walkElements.length = 255 := by decide +kernel

theorem powersFrom_eq : powersFrom 255 0x01 = walkElements := by decide +kernel

/-- The printed LOG undoes the printed ILOG (R93 (a)), as lists of numbers. -/
theorem specLog_specIlog_list :
    (specIlogEntries.take 255).map (fun v => specLogEntries.getD v 0) = List.range 255 := by decide +kernel

/-- The printed ILOG undoes the printed LOG (R93 (a)), as lists of numbers. -/
theorem specIlog_specLog_list :
    (List.range' 1 255).map (fun v => specIlogEntries.getD (specLogEntries.getD v 0) 0) = List.range' 1 255 := by
  decide +kernel

/-- Every printed entry is a byte; a logarithm is below 255. -/
theorem specEntries_bytes :
    specIlogEntries.all (· < 256) = true ∧ specLogEntries.all (· < 255) = true ∧ specSboxEntries.all (· < 256) = true ∧
      specIsboxEntries.all (· < 256) = true := by decide +kernel

theorem specEntries_length :
    specIlogEntries.length = 256 ∧ specLogEntries.length = 256 ∧ specSboxEntries.length = 256 ∧
      specIsboxEntries.length = 256 := by decide +kernel

/-- An entry of a list of numbers below `n` is below `n`. -/
theorem getD_lt {l : List Nat} {n : Nat} (h : l.all (· < n) = true) (hn : 0 < n) (i : Nat) : l.getD i 0 < n := by
  rw [List.getD_eq_getElem?_getD]
  cases hi : l[i]? with
  | none => simpa using hn
  | some v => simpa using List.all_eq_true.1 h v (List.mem_of_getElem? hi)

theorem specLog_toNat (x : Byte) : (specLog x).toNat = specLogEntries.getD x.toNat 0 := by
  have := getD_lt specEntries_bytes.2.1 (by decide) x.toNat
  rw [specLog, BitVec.toNat_ofNat, Nat.mod_eq_of_lt (by omega)]

theorem specIlog_toNat (x : Byte) : (specIlog x).toNat = specIlogEntries.getD x.toNat 0 := by
  have := getD_lt specEntries_bytes.1 (by decide) x.toNat
  rw [specIlog, BitVec.toNat_ofNat, Nat.mod_eq_of_lt (by omega)]

/-- A printed logarithm is below 255. -/
theorem specLog_lt (x : Byte) : (specLog x).toNat < 255 := by
  rw [specLog_toNat]
  exact getD_lt specEntries_bytes.2.1 (by decide) _

/-- The printed tables are inverse to each other (R93 (a)). -/
theorem specIlog_specLog (x : Byte) (h : x ≠ 0) : specIlog (specLog x) = x := by
  have hx : 0 < x.toNat := by
    rcases Nat.eq_zero_or_pos x.toNat with h0 | h0
    · exact absurd (BitVec.eq_of_toNat_eq h0) h
    · exact h0
  have hl : x.toNat - 1 < 255 := by have := x.isLt; omega
  apply BitVec.eq_of_toNat_eq
  rw [specIlog_toNat, specLog_toNat]
  have := congrArg (fun l => l[x.toNat - 1]?) specIlog_specLog_list
  simpa [List.getElem?_range', hl, show 1 + (x.toNat - 1) = x.toNat by omega] using this

theorem specLog_specIlog (e : Byte) (h : e ≠ 255) : specLog (specIlog e) = e := by
  have he : e.toNat < 255 := by
    have := e.isLt
    have : e.toNat ≠ 255 := fun h' => h (BitVec.eq_of_toNat_eq h')
    omega
  apply BitVec.eq_of_toNat_eq
  rw [specLog_toNat, specIlog_toNat]
  have hlen : e.toNat < specIlogEntries.length := by rw [specEntries_length.1]; omega
  have := congrArg (fun l => l[e.toNat]?) specLog_specIlog_list
  simpa [he, List.getD, List.getElem?_eq_getElem hlen] using this

theorem walkElements_getElem? (e : Byte) (h : e ≠ 255) : walkElements[e.toNat]? = some (specIlog e) := by
  have he : e.toNat < 255 := by
    have := e.isLt
    have : e.toNat ≠ 255 := fun h' => h (BitVec.eq_of_toNat_eq h')
    omega
  have hl : e.toNat < specIlogEntries.length := by
    have : specIlogEntries.length = 256 := by decide +kernel
    omega
  simp [walkElements, specIlog, he, List.getD, List.getElem?_eq_getElem hl]

theorem zero_not_mem_walkElements : (0 : Byte) ∉ walkElements := by decide +kernel

/-- What the walk leaves in LOG. -/
theorem gfWalk_log (t : Table × Table) (x : Byte) :
    tableRead (gfWalk 255 0 0x01 t).1 x = if x = 0 then tableRead t.1 0 else specLog x := by
  rw [gfWalk_eq_walkList, powersFrom_eq, walkList_log]
  split
  · next h => rw [h, lastLog_none _ _ _ zero_not_mem_walkElements, Option.getD_none]
  · next h =>
    have hs : specLog x ≠ 255 := fun h' => by have := specLog_lt x; rw [h'] at this; exact absurd this (by decide)
    have hx : walkElements[(specLog x).toNat]? = some x := by
      rw [walkElements_getElem? _ hs, specIlog_specLog x h]
    rw [lastLog_eq walkElements 0 (specLog x).toNat x hx]
    · simp
    · intro j hj hjx
      have hjl : j < 255 := by
        have := (List.getElem?_eq_some_iff.1 hjx).1
        rwa [walkElements_length] at this
      have hne : BitVec.ofNat 8 j ≠ 255 := fun h' => by
        have : (BitVec.ofNat 8 j).toNat = 255 := by rw [h']; rfl
        simp only [BitVec.toNat_ofNat] at this
        omega
      have hjn : (BitVec.ofNat 8 j).toNat = j := by simp only [BitVec.toNat_ofNat]; omega
      have := walkElements_getElem? _ hne
      rw [hjn, hjx, Option.some.injEq] at this
      rw [this, specLog_specIlog _ hne, hjn] at hj
      exact absurd hj (Nat.lt_irrefl j)

/-- What the walk leaves in ILOG. -/
theorem gfWalk_ilog (t : Table × Table) (e : Byte) :
    tableRead (gfWalk 255 0 0x01 t).2 e = if e = 255 then tableRead t.2 255 else specIlog e := by
  rw [gfWalk_eq_walkList, powersFrom_eq, walkList_ilog, lastIlog_eq _ _ _ (by rw [walkElements_length]),
    if_pos (Nat.zero_le _), Nat.sub_zero]
  split
  · next h =>
    rw [h, List.getElem?_eq_none (by rw [walkElements_length]; decide), Option.getD_none]
  · next h => rw [walkElements_getElem? e h, Option.getD_some]

/-- `BuildGfTables` builds the printed tables. -/
theorem buildGfTables_built (s : State) : GfTablesBuilt (buildGfTables s) :=
  ⟨fun v h => by rw [buildGfTables_log, gfWalk_log, if_neg h],
    fun e h => by rw [buildGfTables_ilog, gfWalk_ilog, if_neg h]⟩

/-- The two entries the walk never writes keep their contents (R84). -/
theorem buildGfTables_unwritten (s : State) :
    tableRead (buildGfTables s).log 0 = tableRead s.log 0 ∧ tableRead (buildGfTables s).ilog 255 = tableRead s.ilog 255 :=
  ⟨by rw [buildGfTables_log, gfWalk_log, if_pos rfl], by rw [buildGfTables_ilog, gfWalk_ilog, if_pos rfl]⟩

/-- Rebuilding tables that are built changes nothing (R94). -/
theorem buildGfTables_of_built {s : State} (h : GfTablesBuilt s) :
    (buildGfTables s).log = s.log ∧ (buildGfTables s).ilog = s.ilog := by
  constructor
  · refine table_ext fun v => ?_
    rw [buildGfTables_log, gfWalk_log]
    split
    · next hv => rw [hv]
    · next hv => exact (h.1 v hv).symm
  · refine table_ext fun e => ?_
    rw [buildGfTables_ilog, gfWalk_ilog]
    split
    · next he => rw [he]
    · next he => exact (h.2 e he).symm

/-- The walk replaces LOG and ILOG and sets GF_VALID, and nothing else (R88). -/
theorem buildGfTables_frame (s : State) :
    buildGfTables s = { s with log := (buildGfTables s).log, ilog := (buildGfTables s).ilog, gfValid := true } := by
  rw [buildGfTables_log, buildGfTables_ilog, buildGfTables, setGfTables]

/-- Running the walk again changes nothing (R88, R94). -/
theorem buildGfTables_idem (s : State) : buildGfTables (buildGfTables s) = buildGfTables s := by
  have h1 := buildGfTables_frame (buildGfTables s)
  obtain ⟨h2, h3⟩ := buildGfTables_of_built (buildGfTables_built s)
  rw [h2, h3] at h1
  have h4 := buildGfTables_gfValid s
  generalize buildGfTables s = g at *
  rw [h1, ← h4]

end Sys2Proof.Machine
end

