-- ==== Sys2Proof/Laws/GfMul.lean ====
section
/-! SUPPORT. Field arithmetic (41_gf_arithmetic.md R93): mul_slow is bilinear and compatible with xtime, the table multiply
computes the same product once the tables are built, and both obey the field laws. -/

namespace Sys2Proof.Machine

theorem xtime_xor (a b : Byte) : xtime (a ^^^ b) = xtime a ^^^ xtime b := by
  simp only [xtime, BitVec.shiftLeft_xor_distrib, BitVec.getLsbD_xor]
  rw [show ∀ p q : Bool, (if (p ^^ q) = true then (0x1b : Byte) else 0) =
    (if p = true then 0x1b else 0) ^^^ (if q = true then 0x1b else 0) by decide]
  ac_rfl

@[simp] theorem xtime_zero : xtime 0 = 0 := by decide

/-- `k` multiplications by x. -/
def xtimePow : Nat → Byte → Byte
  | 0, a => a
  | k + 1, a => xtimePow k (xtime a)

theorem xtimePow_xor (k : Nat) (a b : Byte) : xtimePow k (a ^^^ b) = xtimePow k a ^^^ xtimePow k b := by
  induction k generalizing a b with
  | zero => rfl
  | succ k ih => simp only [xtimePow, xtime_xor, ih]

theorem xtime_xtimePow (k : Nat) (a : Byte) : xtime (xtimePow k a) = xtimePow (k + 1) a := by
  induction k generalizing a with
  | zero => rfl
  | succ k ih => exact ih (xtime a)

/-- A byte or zero, by a bit. -/
def gate (c : Bool) (v : Byte) : Byte := if c then v else 0

@[simp] theorem gate_xor (c : Bool) (v w : Byte) : gate c (v ^^^ w) = gate c v ^^^ gate c w := by
  cases c <;> simp [gate]

theorem gate_bne (c d : Bool) (v : Byte) : gate (c ^^ d) v = gate c v ^^^ gate d v := by
  cases c <;> cases d <;> simp [gate]

theorem xtime_gate (c : Bool) (v : Byte) : xtime (gate c v) = gate c (xtime v) := by
  cases c
  · exact xtime_zero
  · rfl

/-- `mul_slow(a, b)` is the sum of the `x^k * a` over the set bits `k` of `b` (R80). -/
theorem mulSlow_eq (a b : Byte) : mulSlow a b =
    gate (b.getLsbD 0) (xtimePow 0 a) ^^^ gate (b.getLsbD 1) (xtimePow 1 a) ^^^ gate (b.getLsbD 2) (xtimePow 2 a) ^^^
    gate (b.getLsbD 3) (xtimePow 3 a) ^^^ gate (b.getLsbD 4) (xtimePow 4 a) ^^^ gate (b.getLsbD 5) (xtimePow 5 a) ^^^
    gate (b.getLsbD 6) (xtimePow 6 a) ^^^ gate (b.getLsbD 7) (xtimePow 7 a) := by
  have h (c : Bool) (p v : Byte) : (if c then p ^^^ v else p) = p ^^^ gate c v := by cases c <;> simp [gate]
  simp only [mulSlow, mulSlowLoop, h, xtimePow, Nat.reduceAdd]
  rw [show (0x00 : Byte) ^^^ gate (b.getLsbD 0) a = gate (b.getLsbD 0) a by simp]

theorem mulSlow_xor_right (a b c : Byte) : mulSlow a (b ^^^ c) = mulSlow a b ^^^ mulSlow a c := by
  simp only [mulSlow_eq, BitVec.getLsbD_xor, gate_bne]
  ac_rfl

theorem mulSlow_xor_left (a b c : Byte) : mulSlow (a ^^^ b) c = mulSlow a c ^^^ mulSlow b c := by
  simp only [mulSlow_eq, xtimePow_xor, gate_xor]
  ac_rfl

theorem mulSlow_xtime_left (a b : Byte) : mulSlow (xtime a) b = xtime (mulSlow a b) := by
  simp only [mulSlow_eq, xtime_xor, xtime_gate, xtime_xtimePow]
  rfl

/-- x^8 = x^4 + x^3 + x + 1 in the field (R80). -/
theorem xtimePow_eight (a : Byte) :
    xtimePow 8 a = xtimePow 0 a ^^^ xtimePow 1 a ^^^ xtimePow 3 a ^^^ xtimePow 4 a := by
  have : ∀ i : Fin 256, xtimePow 8 (BitVec.ofFin i) = xtimePow 0 (BitVec.ofFin i) ^^^ xtimePow 1 (BitVec.ofFin i) ^^^
      xtimePow 3 (BitVec.ofFin i) ^^^ xtimePow 4 (BitVec.ofFin i) := by decide +kernel
  exact this a.toFin

theorem xtime_getLsbD (b : Byte) : (xtime b).getLsbD 0 = b.getLsbD 7 ∧
    (xtime b).getLsbD 1 = (b.getLsbD 0 ^^ b.getLsbD 7) ∧ (xtime b).getLsbD 2 = b.getLsbD 1 ∧
    (xtime b).getLsbD 3 = (b.getLsbD 2 ^^ b.getLsbD 7) ∧ (xtime b).getLsbD 4 = (b.getLsbD 3 ^^ b.getLsbD 7) ∧
    (xtime b).getLsbD 5 = b.getLsbD 4 ∧ (xtime b).getLsbD 6 = b.getLsbD 5 ∧ (xtime b).getLsbD 7 = b.getLsbD 6 := by
  simp only [xtime, BitVec.getLsbD_xor, BitVec.getLsbD_shiftLeft]
  cases b.getLsbD 7 <;> simp

theorem mulSlow_xtime_right (a b : Byte) : mulSlow a (xtime b) = xtime (mulSlow a b) := by
  obtain ⟨h0, h1, h2, h3, h4, h5, h6, h7⟩ := xtime_getLsbD b
  simp only [mulSlow_eq, h0, h1, h2, h3, h4, h5, h6, h7, gate_bne, xtime_xor, xtime_gate, xtime_xtimePow,
    Nat.reduceAdd, xtimePow_eight, gate_xor]
  ac_rfl

theorem mulSlow_one_right (a : Byte) : mulSlow a 1 = a := by
  simp [mulSlow_eq, gate, xtimePow]

theorem mulSlow_zero_right (a : Byte) : mulSlow a 0 = 0 := by
  simp [mulSlow_eq, gate]

theorem mulSlow_zero_left (a : Byte) : mulSlow 0 a = 0 := by
  have : ∀ k, xtimePow k 0 = 0 := by
    intro k
    induction k with
    | zero => rfl
    | succ k ih => rw [xtimePow, xtime_zero, ih]
  have hg : ∀ c : Bool, gate c 0 = 0 := by decide
  simp only [mulSlow_eq, this, hg]
  decide

/-- The element the walk pairs with exponent `n`, exponents taken modulo 255 (R83). -/
def genPow (n : Nat) : Byte := specIlog (BitVec.ofNat 8 (n % 255))

theorem genPow_zero : genPow 0 = 1 := by decide +kernel

/-- One step of the walk multiplies by the generator; after 254 it returns to 1 (R83). -/
theorem genPow_succ (n : Nat) : genPow (n + 1) = xtime (genPow n) ^^^ genPow n := by
  have h : ∀ k : Fin 255, genPow (k.val + 1) = xtime (genPow k.val) ^^^ genPow k.val := by decide +kernel
  have hk := h ⟨n % 255, Nat.mod_lt _ (by decide)⟩
  have e1 : genPow (n % 255 + 1) = genPow (n + 1) := by simp [genPow, Nat.add_mod]
  have e2 : genPow (n % 255) = genPow n := by simp [genPow]
  rwa [e1, e2] at hk

/-- The product of two generator powers is the power of the sum of the exponents. -/
theorem mulSlow_genPow (m n : Nat) : mulSlow (genPow m) (genPow n) = genPow (m + n) := by
  induction n with
  | zero => rw [genPow_zero, mulSlow_one_right, Nat.add_zero]
  | succ n ih => rw [genPow_succ, mulSlow_xor_right, mulSlow_xtime_right, ih, ← genPow_succ, Nat.add_assoc]

/-- Every nonzero element is the power of the generator that the printed LOG says. -/
theorem genPow_specLog {a : Byte} (h : a ≠ 0) : genPow (specLog a).toNat = a := by
  rw [genPow, Nat.mod_eq_of_lt (specLog_lt a)]
  simpa using specIlog_specLog a h

theorem genPow_ne_zero (n : Nat) : genPow n ≠ 0 := by
  have h : ∀ k : Fin 255, genPow k.val ≠ 0 := by decide +kernel
  have e : genPow (n % 255) = genPow n := by simp [genPow]
  exact e ▸ h ⟨n % 255, Nat.mod_lt _ (by decide)⟩

theorem mulSlow_comm (a b : Byte) : mulSlow a b = mulSlow b a := by
  by_cases ha : a = 0
  · rw [ha, mulSlow_zero_left, mulSlow_zero_right]
  by_cases hb : b = 0
  · rw [hb, mulSlow_zero_left, mulSlow_zero_right]
  rw [← genPow_specLog ha, ← genPow_specLog hb, mulSlow_genPow, mulSlow_genPow, Nat.add_comm]

theorem mulSlow_assoc (a b c : Byte) : mulSlow (mulSlow a b) c = mulSlow a (mulSlow b c) := by
  by_cases ha : a = 0
  · rw [ha]; simp only [mulSlow_zero_left]
  by_cases hb : b = 0
  · rw [hb]; simp only [mulSlow_zero_left, mulSlow_zero_right]
  by_cases hc : c = 0
  · rw [hc]; simp only [mulSlow_zero_right]
  rw [← genPow_specLog ha, ← genPow_specLog hb, ← genPow_specLog hc]
  simp only [mulSlow_genPow, Nat.add_assoc]

/-- The table multiply is the field product once the tables are built, whatever `LOG[0]` and `ILOG[255]` hold (R85,
R93 (e)). -/
theorem gfMul_eq_mulSlow {log ilog : Table} (h : GoodTables log ilog) (a b : Byte) :
    gfMul log ilog a b = mulSlow a b := by
  unfold gfMul
  split
  · next h0 =>
    rcases h0 with h0 | h0
    · rw [h0]; exact (mulSlow_zero_left b).symm
    · rw [h0]; exact (mulSlow_zero_right a).symm
  · next h0 =>
    obtain ⟨ha, hb⟩ := not_or.1 h0
    rw [h.1 a ha, h.1 b hb]
    have hlt : ((specLog a).toNat + (specLog b).toNat) % 255 < 255 := Nat.mod_lt _ (by decide)
    rw [h.2 _ fun he => by
      have := congrArg BitVec.toNat he
      rw [BitVec.toNat_ofNat, show (255 : Byte).toNat = 255 from rfl] at this
      omega]
    conv_rhs => rw [← genPow_specLog ha, ← genPow_specLog hb, mulSlow_genPow]
    rfl

/-- The field inverse of an element above 1 is its inverse once the tables are built (R86, R93 (d)). -/
theorem mulSlow_gfInv {log ilog : Table} (h : GoodTables log ilog) {a : Byte} (h0 : a ≠ 0) (h1 : a ≠ 1) :
    mulSlow a (gfInv log ilog a) = 1 := by
  have hl := specLog_lt a
  have hpos : 0 < (specLog a).toNat := by
    rcases Nat.eq_zero_or_pos (specLog a).toNat with hz | hz
    · have := genPow_specLog h0
      rw [hz, genPow_zero] at this
      exact absurd this.symm h1
    · exact hz
  have hsub : (255 - specLog a).toNat = 255 - (specLog a).toNat := by
    rw [BitVec.toNat_sub, show (255 : Byte).toNat = 255 from rfl]
    omega
  have hinv : gfInv log ilog a = genPow (255 - (specLog a).toNat) := by
    rw [gfInv, if_neg h0, h.1 a h0, h.2 _ fun he => by
      have := congrArg BitVec.toNat he
      rw [hsub, show (255 : Byte).toNat = 255 from rfl] at this
      omega]
    rw [genPow, Nat.mod_eq_of_lt (by omega), ← hsub, BitVec.ofNat_toNat, BitVec.setWidth_eq]
  have h255 : genPow ((specLog a).toNat + (255 - (specLog a).toNat)) = 1 := by
    rw [show (specLog a).toNat + (255 - (specLog a).toNat) = 255 by omega]
    decide +kernel
  rw [← mulSlow_genPow, genPow_specLog h0] at h255
  rw [hinv, h255]

end Sys2Proof.Machine
end

