-- ==== Sys2Proof/Laws/SboxTables.lean ====
section
/-! SUPPORT. What the S-box generator leaves (42_sbox.md R101 to R103), for any contents it started from and for every
content of `ILOG[255]`: the printed tables. -/

namespace Sys2Proof.Machine

/-- The printed tables are inverse permutations (R103 (b)), as lists of numbers. -/
theorem specIsbox_specSbox_list :
    specSboxEntries.map (fun v => specIsboxEntries.getD v 0) = List.range 256 := by decide +kernel

theorem specSbox_specIsbox_list :
    specIsboxEntries.map (fun v => specSboxEntries.getD v 0) = List.range 256 := by decide +kernel

theorem specSbox_toNat (x : Byte) : (specSbox x).toNat = specSboxEntries.getD x.toNat 0 := by
  have := getD_lt specEntries_bytes.2.2.1 (by decide) x.toNat
  rw [specSbox, BitVec.toNat_ofNat, Nat.mod_eq_of_lt (by omega)]

theorem specIsbox_toNat (x : Byte) : (specIsbox x).toNat = specIsboxEntries.getD x.toNat 0 := by
  have := getD_lt specEntries_bytes.2.2.2 (by decide) x.toNat
  rw [specIsbox, BitVec.toNat_ofNat, Nat.mod_eq_of_lt (by omega)]

/-- The printed ISBOX undoes the printed SBOX (R103 (b)). -/
theorem specIsbox_specSbox (x : Byte) : specIsbox (specSbox x) = x := by
  have hx : x.toNat < 256 := x.isLt
  have hl : x.toNat < specSboxEntries.length := by rw [specEntries_length.2.2.1]; exact hx
  apply BitVec.eq_of_toNat_eq
  rw [specIsbox_toNat, specSbox_toNat]
  have := congrArg (fun l => l[x.toNat]?) specIsbox_specSbox_list
  simpa [hx, List.getD, List.getElem?_eq_getElem hl] using this

/-- The printed SBOX undoes the printed ISBOX (R103 (b)). -/
theorem specSbox_specIsbox (x : Byte) : specSbox (specIsbox x) = x := by
  have hx : x.toNat < 256 := x.isLt
  have hl : x.toNat < specIsboxEntries.length := by rw [specEntries_length.2.2.2]; exact hx
  apply BitVec.eq_of_toNat_eq
  rw [specSbox_toNat, specIsbox_toNat]
  have := congrArg (fun l => l[x.toNat]?) specSbox_specIsbox_list
  simpa [hx, List.getD, List.getElem?_eq_getElem hl] using this

/-- The affine transform of the inverse read from the printed tables is the printed S-box, from 2 on (R103 (a)). -/
theorem affine_specInverse : ∀ i : Fin 256, 2 ≤ i.val →
    affine (specIlog (255 - specLog (BitVec.ofFin i))) = specSbox (BitVec.ofFin i) := by
  decide +kernel

/-- What iteration `i >= 2` of the loop computes, once the GF tables are built. -/
theorem affine_gfInv {log ilog : Table} (h : GoodTables log ilog) {i : Byte} (hi : 2 ≤ i.toNat) :
    affine (gfInv log ilog i) = specSbox i := by
  have h0 : i ≠ 0 := by rintro rfl; exact absurd hi (by decide)
  have hl := specLog_lt i
  have hpos : specLog i ≠ 0 := fun hz => by
    have h1 := specIlog_specLog i h0
    rw [hz, show specIlog 0 = 1 by decide +kernel] at h1
    rw [← h1] at hi
    exact absurd hi (by decide)
  have hne : 255 - specLog i ≠ 255 := fun he => hpos (by
    apply BitVec.eq_of_toNat_eq
    have := congrArg BitVec.toNat he
    rw [BitVec.toNat_sub, show (255 : Byte).toNat = 255 from rfl] at this
    rw [show (0 : Byte).toNat = 0 from rfl]
    omega)
  rw [gfInv, if_neg h0, h.1 i h0, h.2 _ hne]
  exact affine_specInverse i.toFin hi

/-- The loop fills SBOX in index order. -/
theorem sboxLoop_sbox (log ilog : Table) (n i : Nat) (t : Table × Table) (x : Byte) (h : i + n ≤ 256) :
    tableRead (sboxLoop log ilog n i t).1 x =
      if i ≤ x.toNat ∧ x.toNat < i + n then affine (gfInv log ilog x) else tableRead t.1 x := by
  induction n generalizing i t with
  | zero => rw [if_neg (by omega)]; rfl
  | succ n ih =>
    have hi : (BitVec.ofNat 8 i).toNat = i := by rw [BitVec.toNat_ofNat]; omega
    simp only [sboxLoop]
    rw [ih (i + 1) _ (by omega), tableRead_tableWrite]
    by_cases hx : x = BitVec.ofNat 8 i
    · rw [← hx] at hi
      rw [if_neg (by omega), if_pos hx, if_pos (by omega), hx]
    · have hne : x.toNat ≠ i := fun he => hx (BitVec.eq_of_toNat_eq (by omega))
      rw [if_neg hx]
      by_cases hr : i + 1 ≤ x.toNat ∧ x.toNat < i + 1 + n
      · rw [if_pos hr, if_pos (by omega)]
      · rw [if_neg hr, if_neg (by omega)]

/-- An entry of ISBOX that no iteration writes keeps its contents. -/
theorem sboxLoop_isbox_untouched (log ilog : Table) (n i : Nat) (t : Table × Table) (x : Byte)
    (h : ∀ j, i ≤ j → j < i + n → affine (gfInv log ilog (BitVec.ofNat 8 j)) ≠ x) :
    tableRead (sboxLoop log ilog n i t).2 x = tableRead t.2 x := by
  induction n generalizing i t with
  | zero => rfl
  | succ n ih =>
    simp only [sboxLoop]
    rw [ih (i + 1) _ fun j h1 h2 => h j (by omega) (by omega),
      tableRead_tableWrite_ne _ _ (h i (Nat.le_refl i) (by omega)).symm]

/-- The last iteration that hits an entry of ISBOX decides it (R101). -/
theorem sboxLoop_isbox (log ilog : Table) (n i k : Nat) (t : Table × Table) (x : Byte) (h1 : i ≤ k) (h2 : k < i + n)
    (hk : affine (gfInv log ilog (BitVec.ofNat 8 k)) = x)
    (later : ∀ j, k < j → j < i + n → affine (gfInv log ilog (BitVec.ofNat 8 j)) ≠ x) :
    tableRead (sboxLoop log ilog n i t).2 x = BitVec.ofNat 8 k := by
  induction n generalizing i t with
  | zero => omega
  | succ n ih =>
    simp only [sboxLoop]
    by_cases hik : i = k
    · subst hik
      rw [sboxLoop_isbox_untouched _ _ _ _ _ _ fun j hj hj' => later j (by omega) (by omega), hk,
        tableRead_tableWrite_self]
    · exact ih (i + 1) _ (by omega) (by omega) fun j hj hj' => later j hj (by omega)

theorem specSbox_ends : specSbox 0 = 0x63 ∧ specSbox 1 = 0x7c ∧ specIsbox 0x63 = 0 ∧ specIsbox 0x7c = 1 := by
  decide +kernel

/-- `BuildSbox` builds the printed tables once the GF tables are built, whatever ILOG255 is (R103 (c), (d)). -/
theorem buildSbox_built {s : State} (h : GfTablesBuilt s) : SboxTablesBuilt (buildSbox s) := by
  intro x
  have hx256 : x.toNat < 256 := x.isLt
  constructor
  · rw [buildSbox_sbox, sboxPatch, tableRead_tableWrite]
    split
    · next h1 => rw [h1]; exact specSbox_ends.2.1.symm
    · next h1 =>
      rw [sboxLoop_sbox _ _ _ _ _ _ (by decide), if_pos (by omega)]
      by_cases h2 : 2 ≤ x.toNat
      · exact affine_gfInv h h2
      · have h0 : x = 0 := by
          apply BitVec.eq_of_toNat_eq
          have : x.toNat ≠ 1 := fun he => h1 (BitVec.eq_of_toNat_eq he)
          rw [show (0 : Byte).toNat = 0 from rfl]
          omega
        rw [h0, specSbox_ends.1, gfInv, if_pos rfl]
        decide
  · rw [buildSbox_isbox, sboxPatch, tableRead_tableWrite]
    split
    · next h63 => rw [h63]; exact specSbox_ends.2.2.1.symm
    · next h63 =>
      rw [tableRead_tableWrite]
      split
      · next h7c => rw [h7c]; exact specSbox_ends.2.2.2.symm
      · next h7c =>
        have hk2 : 2 ≤ (specIsbox x).toNat := by
          have h0 : specIsbox x ≠ 0 := fun h0 => h63 (by rw [← specSbox_specIsbox x, h0]; exact specSbox_ends.1)
          have h1 : specIsbox x ≠ 1 := fun h1 => h7c (by rw [← specSbox_specIsbox x, h1]; exact specSbox_ends.2.1)
          have n0 : (specIsbox x).toNat ≠ 0 := fun he => h0 (BitVec.eq_of_toNat_eq he)
          have n1 : (specIsbox x).toNat ≠ 1 := fun he => h1 (BitVec.eq_of_toNat_eq he)
          omega
        have hk : (specIsbox x).toNat < 256 := (specIsbox x).isLt
        rw [sboxLoop_isbox s.log s.ilog 256 0 (specIsbox x).toNat _ x (by omega) (by omega)]
        · simp
        · rw [BitVec.ofNat_toNat, BitVec.setWidth_eq, affine_gfInv h hk2, specSbox_specIsbox]
        · intro j hj hj'
          have hjn : (BitVec.ofNat 8 j).toNat = j := by rw [BitVec.toNat_ofNat]; omega
          rw [affine_gfInv h (by omega)]
          intro he
          have := congrArg specIsbox he
          rw [specIsbox_specSbox] at this
          rw [← this, hjn] at hj
          exact absurd hj (Nat.lt_irrefl j)

/-- Two states with the finished S-box tables hold the same tables. -/
theorem sboxTables_unique {s t : State} (hs : SboxTablesBuilt s) (ht : SboxTablesBuilt t) :
    s.sbox = t.sbox ∧ s.isbox = t.isbox :=
  ⟨table_ext fun i => by rw [(hs i).1, (ht i).1], table_ext fun i => by rw [(hs i).2, (ht i).2]⟩

theorem rebuildTables_built (s : State) : TablesBuilt (rebuildTables s) := by
  refine ⟨?_, buildSbox_built (buildGfTables_built s)⟩
  have := buildGfTables_built s
  simpa [GfTablesBuilt] using this

/-- The generator replaces SBOX and ISBOX and sets SB_VALID, and nothing else (R104). -/
theorem buildSbox_frame (s : State) :
    buildSbox s = { s with sbox := (buildSbox s).sbox, isbox := (buildSbox s).isbox, sbValid := true } := by
  rw [buildSbox_sbox, buildSbox_isbox, buildSbox, setSboxTables]

/-- The rebuild replaces the four tables and sets both flags, and nothing else (R170). -/
theorem rebuildTables_frame (s : State) :
    rebuildTables s = { s with
      log := (rebuildTables s).log, ilog := (rebuildTables s).ilog, gfValid := true, sbox := (rebuildTables s).sbox,
      isbox := (rebuildTables s).isbox, sbValid := true } := by
  rw [rebuildTables_log, rebuildTables_ilog]
  have h1 := buildGfTables_frame s
  have h2 := buildSbox_frame (buildGfTables s)
  rw [rebuildTables]
  generalize buildSbox (buildGfTables s) = u at *
  generalize buildGfTables s = g at *
  rw [h2, h1]

end Sys2Proof.Machine
end

