-- ==== Sys2Proof/Laws/BlockTransform.lean ====
section
/-! SUPPORT. The block transform (44_block_transform.md): what loading, storing and whole blocks change, each round step
undone by its inverse, and a run over a buffer of blocks. -/

namespace Sys2Proof.Machine

section LoadAndStore

/-- Byte `i` of a loaded block (R140, R47). -/
theorem blockByte_loadMatrix (m : Memory) (n : Nat) {i : Nat} (h : i < 16) :
    blockByte (loadMatrix m n) i = memRead m (blockAddr n i) := by
  rw [blockByte, loadMatrix, cell_matrixOf, byteOfCell_of_byte h]

/-- Loading depends on the 16 bytes of the block alone. -/
theorem loadMatrix_congr {m k : Memory} {a b : Nat}
    (h : ∀ i < 16, memRead m (blockAddr a i) = memRead k (blockAddr b i)) : loadMatrix m a = loadMatrix k b :=
  matrix_ext_bytes fun i hi => by rw [blockByte_loadMatrix _ _ hi, blockByte_loadMatrix _ _ hi, h i hi]

theorem blockAddr_eq (n i : Nat) : blockAddr n i = blockAddr n 0 + i := by simp [blockAddr]

/-- Byte `i` of a stored block (R141). -/
theorem memRead_storeState (n : Nat) {s : State} (hw : s.obuf.wf = true) {i : Nat} (h : i < 16) :
    memRead (storeState n s).obuf (blockAddr n i) = blockByte s.state i := by
  rw [storeState_obuf, blockAddr_eq n i, memRead_memWriteFrom_inside _ _ _ _ hw (Nat.zero_le i) (by omega)]

/-- Storing a block leaves every other byte of OBUF (R141). -/
theorem memRead_storeState_outside (n : Nat) (s : State) {a : Nat} (h : a < 16 * n ∨ 16 * n + 16 ≤ a) :
    memRead (storeState n s).obuf a = memRead s.obuf a := by
  rw [storeState_obuf, memRead_memWriteFrom_outside _ _ _ _ _ (by simp only [blockAddr]; omega)]

theorem storeState_wf (n : Nat) {s : State} (hw : s.obuf.wf = true) : (storeState n s).obuf.wf = true := by
  rw [storeState_obuf]
  exact memWriteFrom_wf _ _ _ _ hw

theorem storeState_within {n : Nat} {s : State} {size : Nat} (hn : 16 * n + 16 ≤ size)
    (hw : s.obuf.within size = true) : (storeState n s).obuf.within size = true := by
  rw [storeState_obuf]
  exact memWriteFrom_within _ _ _ _ (by simp only [blockAddr]; omega) hw

end LoadAndStore

section Inverses

theorem invShiftRows_shiftRows (S : Matrix) : invShiftRows (shiftRows S) = S :=
  matrix_ext fun x y => by simp [invShiftRows, shiftRows]

theorem shiftRows_invShiftRows (S : Matrix) : shiftRows (invShiftRows S) = S :=
  matrix_ext fun x y => by simp [invShiftRows, shiftRows]

/-- `AddRoundKey(n)` is its own inverse (R142). -/
theorem addRoundKey_twice (ks : Schedule) (n : Nat) (S : Matrix) : addRoundKey ks n (addRoundKey ks n S) = S :=
  matrix_ext fun x y => by simp [addRoundKey]

theorem substitute_substitute {t u : Table} (h : ∀ v : Byte, tableRead u (tableRead t v) = v) (S : Matrix) :
    substitute u (substitute t S) = S :=
  matrix_ext fun x y => by simp [substitute, h]

theorem isbox_sbox {s : State} (h : SboxTablesBuilt s) (v : Byte) : tableRead s.isbox (tableRead s.sbox v) = v := by
  rw [(h v).1, (h _).2, specIsbox_specSbox]

theorem sbox_isbox {s : State} (h : SboxTablesBuilt s) (v : Byte) : tableRead s.sbox (tableRead s.isbox v) = v := by
  rw [(h v).2, (h _).1, specSbox_specIsbox]

/-- Substitution acts on each cell alike, so it commutes with a permutation of cells (R152). -/
theorem substitute_invShiftRows (t : Table) (S : Matrix) :
    substitute t (invShiftRows S) = invShiftRows (substitute t S) :=
  matrix_ext fun x y => by simp [substitute, invShiftRows]

theorem substitute_shiftRows (t : Table) (S : Matrix) : substitute t (shiftRows S) = shiftRows (substitute t S) :=
  matrix_ext fun x y => by simp [substitute, shiftRows]

theorem mulSlow_one_left (c : Byte) : mulSlow 1 c = c := by rw [mulSlow_comm, mulSlow_one_right]

/-- The sum of four products: a row of a matrix times a column. -/
def dot4 (k c : Fin 4 → Byte) : Byte :=
  mulSlow (k 0) (c 0) ^^^ mulSlow (k 1) (c 1) ^^^ mulSlow (k 2) (c 2) ^^^ mulSlow (k 3) (c 3)

/-- The forward matrix, row by row (R145; 95_test_vectors.md section 5). -/
def mixCoeff : Fin 4 → Fin 4 → Byte
  | 0 => ![0x02, 0x03, 0x01, 0x01]
  | 1 => ![0x01, 0x02, 0x03, 0x01]
  | 2 => ![0x01, 0x01, 0x02, 0x03]
  | 3 => ![0x03, 0x01, 0x01, 0x02]

/-- The inverse matrix, row by row (R148; 95_test_vectors.md section 5). -/
def invMixCoeff : Fin 4 → Fin 4 → Byte
  | 0 => ![0x0e, 0x0b, 0x0d, 0x09]
  | 1 => ![0x09, 0x0e, 0x0b, 0x0d]
  | 2 => ![0x0d, 0x09, 0x0e, 0x0b]
  | 3 => ![0x0b, 0x0d, 0x09, 0x0e]

theorem mixColumn_eq_dot4 {log ilog : Table} (h : GoodTables log ilog) (c : Fin 4 → Byte) (x : Fin 4) :
    mixColumn log ilog (c 0) (c 1) (c 2) (c 3) x = dot4 (mixCoeff x) c := by
  fin_cases x <;>
    simp only [mixColumn, dot4, mixCoeff, gfMul_eq_mulSlow h, Matrix.cons_val, mulSlow_one_left]

theorem invMixColumn_eq_dot4 {log ilog : Table} (h : GoodTables log ilog) (c : Fin 4 → Byte) (x : Fin 4) :
    invMixColumn log ilog (c 0) (c 1) (c 2) (c 3) x = dot4 (invMixCoeff x) c := by
  fin_cases x <;>
    simp only [invMixColumn, dot4, invMixCoeff, gfMul_eq_mulSlow h, Matrix.cons_val]

/-- A row times a matrix times a column, the coefficients gathered by column entry. -/
theorem dot4_dot4 (k c : Fin 4 → Byte) (M : Fin 4 → Fin 4 → Byte) :
    dot4 k (fun i => dot4 (M i) c) = dot4 (fun j => dot4 k (fun i => M i j)) c := by
  simp only [dot4, mulSlow_xor_left, mulSlow_xor_right, mulSlow_assoc]
  ac_rfl

/-- The two matrices are inverse to each other (R148). -/
theorem mixCoeff_inverse : ∀ x j : Fin 4,
    dot4 (invMixCoeff x) (fun i => mixCoeff i j) = (if x = j then 1 else 0) ∧
      dot4 (mixCoeff x) (fun i => invMixCoeff i j) = (if x = j then 1 else 0) := by
  decide +kernel

theorem dot4_unit (x : Fin 4) (c : Fin 4 → Byte) : dot4 (fun j => if x = j then 1 else 0) c = c x := by
  have e : ∀ b : Bool, ∀ v : Byte, mulSlow (if b then 1 else 0) v = if b then v else 0 := fun b v => by
    cases b
    · exact mulSlow_zero_left v
    · exact mulSlow_one_left v
  have e' (j : Fin 4) (v : Byte) : mulSlow (if x = j then 1 else 0) v = if x = j then v else 0 := by
    simpa using e (decide (x = j)) v
  simp only [dot4, e']
  fin_cases x <;> simp

/-- InvMixColumns undoes MixColumns, with any two pairs of built tables (R148). -/
theorem invMixColumns_mixColumns {log ilog log' ilog' : Table} (h : GoodTables log ilog) (h' : GoodTables log' ilog')
    (S : Matrix) : invMixColumns log' ilog' (mixColumns log ilog S) = S := by
  refine matrix_ext fun x y => ?_
  simp only [invMixColumns, mixColumns, cell_matrixOf]
  rw [invMixColumn_eq_dot4 h' fun i =>
    mixColumn log ilog (cell S 0 y) (cell S 1 y) (cell S 2 y) (cell S 3 y) i]
  simp only [mixColumn_eq_dot4 h fun i => cell S i y]
  rw [dot4_dot4]
  simp only [(mixCoeff_inverse _ _).1]
  exact dot4_unit x _

/-- MixColumns undoes InvMixColumns, with any two pairs of built tables (R148). -/
theorem mixColumns_invMixColumns {log ilog log' ilog' : Table} (h : GoodTables log ilog) (h' : GoodTables log' ilog')
    (S : Matrix) : mixColumns log' ilog' (invMixColumns log ilog S) = S := by
  refine matrix_ext fun x y => ?_
  simp only [invMixColumns, mixColumns, cell_matrixOf]
  rw [mixColumn_eq_dot4 h' fun i =>
    invMixColumn log ilog (cell S 0 y) (cell S 1 y) (cell S 2 y) (cell S 3 y) i]
  simp only [invMixColumn_eq_dot4 h fun i => cell S i y]
  rw [dot4_dot4]
  simp only [(mixCoeff_inverse _ _).2]
  exact dot4_unit x _

end Inverses

section Ciphers

theorem encryptRounds_succ (s : State) (n k : Nat) (S : Matrix) :
    encryptRounds s (n + 1) k S = addRoundKey s.ks (k + n)
      (mixColumns s.log s.ilog (shiftRows (substitute s.sbox (encryptRounds s n k S)))) := by
  induction n generalizing k S with
  | zero => rfl
  | succ n ih =>
    rw [encryptRounds, ih (k + 1)]
    simp only [encryptRounds, show k + 1 + n = k + (n + 1) by omega]

/-- The inverse rounds undo the forward rounds, up to the half round both ciphers end with (R152). -/
theorem decryptRounds_encryptRounds {s u : State} (hs : TablesBuilt s) (hu : TablesBuilt u) (hk : u.ks = s.ks)
    (n : Nat) (S : Matrix) :
    decryptRounds u n (shiftRows (substitute s.sbox (encryptRounds s n 1 S))) = shiftRows (substitute s.sbox S) := by
  have hb := (sboxTables_unique hs.2 hu.2).2
  induction n with
  | zero => rfl
  | succ n ih =>
    rw [decryptRounds, invShiftRows_shiftRows, ← hb, substitute_substitute (isbox_sbox hs.2), encryptRounds_succ, hk,
      show 1 + n = n + 1 by omega, addRoundKey_twice, invMixColumns_mixColumns hs.1 hu.1, ih]

/-- The inverse cipher undoes the forward cipher (R152). -/
theorem decryptMatrix_encryptMatrix {s u : State} (hs : TablesBuilt s) (hu : TablesBuilt u) (hk : u.ks = s.ks)
    (hr : u.r = s.r) (S : Matrix) : decryptMatrix u (encryptMatrix s S) = S := by
  have hb := (sboxTables_unique hs.2 hu.2).2
  rw [decryptMatrix, encryptMatrix, hk, hr, addRoundKey_twice, decryptRounds_encryptRounds hs hu hk,
    invShiftRows_shiftRows, ← hb, substitute_substitute (isbox_sbox hs.2), addRoundKey_twice]

/-- The forward rounds undo the inverse rounds (R152). -/
theorem encryptRounds_decryptRounds {s u : State} (hs : TablesBuilt s) (hu : TablesBuilt u) (hk : u.ks = s.ks)
    (n : Nat) (S : Matrix) :
    encryptRounds s n 1 (substitute u.isbox (invShiftRows (decryptRounds u n S))) =
      substitute u.isbox (invShiftRows S) := by
  have hb := (sboxTables_unique hs.2 hu.2).2
  induction n generalizing S with
  | zero => rfl
  | succ n ih =>
    rw [encryptRounds_succ, decryptRounds, ih, ← hb, substitute_substitute (sbox_isbox hs.2), shiftRows_invShiftRows,
      mixColumns_invMixColumns hu.1 hs.1, hk, show 1 + n = n + 1 by omega, addRoundKey_twice]

/-- The forward cipher undoes the inverse cipher (R152). -/
theorem encryptMatrix_decryptMatrix {s u : State} (hs : TablesBuilt s) (hu : TablesBuilt u) (hk : u.ks = s.ks)
    (hr : u.r = s.r) (S : Matrix) : encryptMatrix s (decryptMatrix u S) = S := by
  have hb := (sboxTables_unique hs.2 hu.2).2
  rw [decryptMatrix, encryptMatrix, hk, hr, addRoundKey_twice, encryptRounds_decryptRounds hs hu hk, ← hb,
    substitute_substitute (sbox_isbox hs.2), shiftRows_invShiftRows, addRoundKey_twice]

end Ciphers

section Blocks

/-- A pass over one block: load, transform, store. -/
def processBlock (f : State → Matrix → Matrix) (n : Nat) (s : State) : State :=
  storeState n (setMatrix (f s) (loadState n s))

theorem encryptBlock_eq (n : Nat) (s : State) : encryptBlock n s = processBlock encryptMatrix n s := rfl

theorem decryptBlock_eq (n : Nat) (s : State) : decryptBlock n s = processBlock decryptMatrix n s := rfl

/-- A block pass changes STATE and OBUF, and nothing else. -/
theorem processBlock_frame (f : State → Matrix → Matrix) (n : Nat) (s : State) :
    processBlock f n s =
      { s with state := f s (loadMatrix s.ibuf n), obuf := (processBlock f n s).obuf } := by
  simp only [processBlock, storeState, setObuf, setMatrix, loadState]

theorem processBlock_state (f : State → Matrix → Matrix) (n : Nat) (s : State) :
    (processBlock f n s).state = f s (loadMatrix s.ibuf n) := by simp [processBlock]

theorem processBlock_obuf_inside (f : State → Matrix → Matrix) (n : Nat) {s : State} (hw : s.obuf.wf = true) {i : Nat}
    (hi : i < 16) : memRead (processBlock f n s).obuf (blockAddr n i) = blockByte (f s (loadMatrix s.ibuf n)) i := by
  rw [processBlock, memRead_storeState n (by simpa using hw) hi]
  simp

theorem processBlock_obuf_outside (f : State → Matrix → Matrix) (n : Nat) (s : State) {a : Nat}
    (h : a < 16 * n ∨ 16 * n + 16 ≤ a) : memRead (processBlock f n s).obuf a = memRead s.obuf a := by
  rw [processBlock, memRead_storeState_outside n _ h]
  simp

theorem processBlock_wf (f : State → Matrix → Matrix) (n : Nat) {s : State} (hw : s.obuf.wf = true) :
    (processBlock f n s).obuf.wf = true := storeState_wf n (by simpa using hw)

theorem processBlock_within (f : State → Matrix → Matrix) {n : Nat} {s : State} {size : Nat}
    (hn : 16 * n + 16 ≤ size) (hw : s.obuf.within size = true) :
    (processBlock f n s).obuf.within size = true := storeState_within hn (by simpa using hw)

/-- The forward rounds read the tables and the schedule alone (R152). -/
theorem encryptRounds_congr {s u : State} (hl : u.log = s.log) (hi : u.ilog = s.ilog) (hb : u.sbox = s.sbox)
    (hk : u.ks = s.ks) (n k : Nat) (S : Matrix) : encryptRounds u n k S = encryptRounds s n k S := by
  induction n generalizing k S with
  | zero => rfl
  | succ n ih => rw [encryptRounds, encryptRounds, ih, hl, hi, hb, hk]

/-- The inverse rounds read the tables and the schedule alone (R152). -/
theorem decryptRounds_congr {s u : State} (hl : u.log = s.log) (hi : u.ilog = s.ilog) (hb : u.isbox = s.isbox)
    (hk : u.ks = s.ks) (n : Nat) (S : Matrix) : decryptRounds u n S = decryptRounds s n S := by
  induction n generalizing S with
  | zero => rfl
  | succ n ih => rw [decryptRounds, decryptRounds, ih, hl, hi, hb, hk]

/-- The forward cipher reads the tables, the schedule and R alone (R152). -/
theorem encryptMatrix_congr {s u : State} (hl : u.log = s.log) (hi : u.ilog = s.ilog) (hb : u.sbox = s.sbox)
    (hk : u.ks = s.ks) (hr : u.r = s.r) : encryptMatrix u = encryptMatrix s := by
  funext S
  simp only [encryptMatrix, hb, hk, hr, encryptRounds_congr hl hi hb hk]

/-- The inverse cipher reads the tables, the schedule and R alone (R152). -/
theorem decryptMatrix_congr {s u : State} (hl : u.log = s.log) (hi : u.ilog = s.ilog) (hb : u.isbox = s.isbox)
    (hk : u.ks = s.ks) (hr : u.r = s.r) : decryptMatrix u = decryptMatrix s := by
  funext S
  simp only [decryptMatrix, hb, hk, hr, decryptRounds_congr hl hi hb hk]

/-- A transform that reads nothing a block pass changes. -/
def Independent (f : State → Matrix → Matrix) : Prop :=
  ∀ (s : State) (S : Matrix) (m : Memory), f { s with state := S, obuf := m } = f s

theorem encryptRounds_independent (s : State) (S : Matrix) (m : Memory) (n k : Nat) (T : Matrix) :
    encryptRounds { s with state := S, obuf := m } n k T = encryptRounds s n k T := by
  induction n generalizing k T with
  | zero => rfl
  | succ n ih => rw [encryptRounds, encryptRounds, ih]

theorem decryptRounds_independent (s : State) (S : Matrix) (m : Memory) (n : Nat) (T : Matrix) :
    decryptRounds { s with state := S, obuf := m } n T = decryptRounds s n T := by
  induction n generalizing T with
  | zero => rfl
  | succ n ih => rw [decryptRounds, decryptRounds, ih]

theorem encryptMatrix_independent : Independent encryptMatrix := fun s S m => by
  funext T
  simp only [encryptMatrix, encryptRounds_independent]

theorem decryptMatrix_independent : Independent decryptMatrix := fun s S m => by
  funext T
  simp only [decryptMatrix, decryptRounds_independent]

/-- What a run over a buffer leaves: each block of the run holds what its own pass leaves, every other byte is kept, and
only STATE and OBUF change (R172, R174). -/
theorem blockLoop_spec {f : State → Matrix → Matrix} (hf : Independent f) (count blk : Nat) (s : State) :
    ∃ S m, blockLoop (processBlock f) count blk s = { s with state := S, obuf := m } ∧
      (s.obuf.wf = true → m.wf = true) ∧ (count = 0 → S = s.state ∧ m = s.obuf) ∧
      (∀ c, count = c + 1 → S = f s (loadMatrix s.ibuf (blk + c))) ∧
      (s.obuf.wf = true → ∀ n i, blk ≤ n → n < blk + count → i < 16 →
        memRead m (blockAddr n i) = blockByte (f s (loadMatrix s.ibuf n)) i) ∧
      (∀ a, a < 16 * blk ∨ 16 * (blk + count) ≤ a → memRead m a = memRead s.obuf a) ∧
      (∀ size, 16 * (blk + count) ≤ size → s.obuf.within size = true → m.within size = true) := by
  induction count generalizing blk s with
  | zero =>
    exact ⟨s.state, s.obuf, rfl, id, fun _ => ⟨rfl, rfl⟩, fun c h => by omega, fun _ n i h1 h2 => by omega,
      fun _ _ => rfl, fun _ _ h => h⟩
  | succ n ih =>
    have hframe := processBlock_frame f blk s
    obtain ⟨S, m, heq, hmw, hz, hlast, hin, hout, hwin⟩ := ih (blk + 1) (processBlock f blk s)
    have hfs : f (processBlock f blk s) = f s := by rw [hframe]; exact hf s _ _
    have hib : (processBlock f blk s).ibuf = s.ibuf := by rw [hframe]
    rw [hfs, hib] at hlast hin
    refine ⟨S, m, ?_, fun hw => hmw (processBlock_wf f blk hw), fun h => by omega, fun c hc => ?_,
      fun hw k i h1 h2 hi => ?_, fun a ha => ?_, fun size h1 h2 => ?_⟩
    · rw [blockLoop, heq]
      conv_lhs => rw [hframe]
    · cases n with
      | zero =>
        have hc0 : c = 0 := by omega
        rw [hc0, (hz rfl).1, processBlock_state, Nat.add_zero]
      | succ n => rw [hlast n rfl, show blk + 1 + n = blk + c by omega]
    · by_cases hk : k = blk
      · rw [hk, hout _ (.inl (by simp only [blockAddr]; omega)), processBlock_obuf_inside f blk hw hi]
      · exact hin (processBlock_wf f blk hw) k i (by omega) (by omega) hi
    · rw [hout a (by omega), processBlock_obuf_outside f blk s (by omega)]
    · exact hwin size (by omega) (processBlock_within f (by omega) h2)

end Blocks

end Sys2Proof.Machine
end

