-- ==== Sys2Proof/Laws/Decode.lean ====
section
/-! SUPPORT. The fields of an encoded word, and what each format of the decoder accepts (30_encoding.md R60, R61). -/

namespace Sys2Proof

/-- The fields of a format AB word. -/
theorem fields_encodeAB (op : Nat) (a b : Byte) (h : op < 256) :
    opField (encodeAB op a b) = BitVec.ofNat 8 op ∧ aField (encodeAB op a b) = a ∧ bField (encodeAB op a b) = b ∧
      zField (encodeAB op a b) = 0 := by
  have := a.isLt
  have := b.isLt
  refine ⟨?_, ?_, ?_, ?_⟩ <;> apply BitVec.eq_of_toNat_eq <;>
    simp only [opField, aField, bField, zField, encodeAB, BitVec.extractLsb'_toNat, BitVec.toNat_ofNat,
      BitVec.ofNat_eq_ofNat, Nat.shiftRight_eq_div_pow] <;>
    omega

theorem encodeA_eq_encodeAB (op : Nat) (a : Byte) : encodeA op a = encodeAB op a 0 := by simp [encodeA, encodeAB]

theorem encodeN_eq_encodeAB (op : Nat) : encodeN op = encodeAB op 0 0 := by simp [encodeN, encodeAB]

/-- The fields of a format A word. -/
theorem fields_encodeA (op : Nat) (a : Byte) (h : op < 256) :
    opField (encodeA op a) = BitVec.ofNat 8 op ∧ aField (encodeA op a) = a ∧ bField (encodeA op a) = 0 ∧
      zField (encodeA op a) = 0 := by
  rw [encodeA_eq_encodeAB]
  exact fields_encodeAB op a 0 h

/-- The fields of a format N word. -/
theorem fields_encodeN (op : Nat) (h : op < 256) :
    opField (encodeN op) = BitVec.ofNat 8 op ∧ aField (encodeN op) = 0 ∧ bField (encodeN op) = 0 ∧
      zField (encodeN op) = 0 := by
  rw [encodeN_eq_encodeAB]
  exact fields_encodeAB op 0 0 h

/-- A word is its four fields. -/
theorem word_eq_of_fields {v w : Word} (h0 : opField v = opField w) (h1 : aField v = aField w)
    (h2 : bField v = bField w) (h3 : zField v = zField w) : v = w := by
  apply BitVec.eq_of_toNat_eq
  have e0 := congrArg BitVec.toNat h0
  have e1 := congrArg BitVec.toNat h1
  have e2 := congrArg BitVec.toNat h2
  have e3 := congrArg BitVec.toNat h3
  simp only [opField, aField, bField, zField, BitVec.extractLsb'_toNat, Nat.shiftRight_eq_div_pow] at e0 e1 e2 e3
  have := v.isLt
  have := w.isLt
  omega

/-- A word whose high byte is zero is the word of its other fields. -/
theorem encodeAB_fields {w : Word} (h : zField w = 0) :
    encodeAB (opField w).toNat (aField w) (bField w) = w := by
  obtain ⟨h0, h1, h2, h3⟩ := fields_encodeAB (opField w).toNat (aField w) (bField w) (opField w).isLt
  exact word_eq_of_fields (by rw [h0]; simp) h1 h2 (h3.trans h.symm)

theorem decodeN_eq_ok {w : Word} {i j : Instr} :
    decodeN w i = .ok j ↔ j = i ∧ aField w = 0 ∧ bField w = 0 ∧ zField w = 0 := by
  unfold decodeN
  split
  · next h => exact ⟨fun e => ⟨(Except.ok.inj e).symm, h⟩, fun e => by rw [e.1]⟩
  · next h => exact ⟨fun e => (nomatch e), fun e => absurd e.2 h⟩

theorem decodeA_eq_ok {w : Word} {i : Byte → Instr} {j : Instr} :
    decodeA w i = .ok j ↔ j = i (aField w) ∧ bField w = 0 ∧ zField w = 0 := by
  unfold decodeA
  split
  · next h => exact ⟨fun e => ⟨(Except.ok.inj e).symm, h⟩, fun e => by rw [e.1]⟩
  · next h => exact ⟨fun e => (nomatch e), fun e => absurd e.2 h⟩

theorem decodeAB_eq_ok {w : Word} {i : Byte → Byte → Instr} {j : Instr} :
    decodeAB w i = .ok j ↔ j = i (aField w) (bField w) ∧ zField w = 0 := by
  unfold decodeAB
  split
  · next h => exact ⟨fun e => ⟨(Except.ok.inj e).symm, h⟩, fun e => by rw [e.1]⟩
  · next h => exact ⟨fun e => (nomatch e), fun e => absurd e.2 h⟩

/-- Format N decodes what it encodes. -/
theorem decodeN_encodeN (op : Nat) (h : op < 256) (i : Instr) : decodeN (encodeN op) i = .ok i :=
  decodeN_eq_ok.2 ⟨rfl, (fields_encodeN op h).2⟩

/-- Format A decodes what it encodes. -/
theorem decodeA_encodeA (op : Nat) (h : op < 256) (a : Byte) (i : Byte → Instr) :
    decodeA (encodeA op a) i = .ok (i a) := by
  obtain ⟨-, h1, h2⟩ := fields_encodeA op a h
  exact decodeA_eq_ok.2 ⟨by rw [h1], h2⟩

/-- Format AB decodes what it encodes. -/
theorem decodeAB_encodeAB (op : Nat) (h : op < 256) (a b : Byte) (i : Byte → Byte → Instr) :
    decodeAB (encodeAB op a b) i = .ok (i a b) := by
  obtain ⟨-, h1, h2, h3⟩ := fields_encodeAB op a b h
  exact decodeAB_eq_ok.2 ⟨by rw [h1, h2], h3⟩

/-- The opcode number of an encoded word, format by format. -/
theorem opField_encodeN (op : Nat) (h : op < 256) : (opField (encodeN op)).toNat = op := by
  rw [(fields_encodeN op h).1, BitVec.toNat_ofNat, Nat.mod_eq_of_lt (by omega)]

theorem opField_encodeA (op : Nat) (a : Byte) (h : op < 256) : (opField (encodeA op a)).toNat = op := by
  rw [(fields_encodeA op a h).1, BitVec.toNat_ofNat, Nat.mod_eq_of_lt (by omega)]

theorem opField_encodeAB (op : Nat) (a b : Byte) (h : op < 256) : (opField (encodeAB op a b)).toNat = op := by
  rw [(fields_encodeAB op a b h).1, BitVec.toNat_ofNat, Nat.mod_eq_of_lt (by omega)]

/-- A word with opcode `op` and zero operand fields is the format N word of `op`. -/
theorem encodeN_of_fields {w : Word} {op : Nat} (h : (opField w).toNat = op) (ha : aField w = 0) (hb : bField w = 0)
    (hz : zField w = 0) : encodeN op = w := by
  have := encodeAB_fields hz
  rwa [ha, hb, h, ← encodeN_eq_encodeAB] at this

/-- A word with opcode `op` and zero fields above A is a format A word of `op`. -/
theorem encodeA_of_fields {w : Word} {op : Nat} (h : (opField w).toNat = op) (hb : bField w = 0) (hz : zField w = 0) :
    encodeA op (aField w) = w := by
  have := encodeAB_fields hz
  rwa [hb, h, ← encodeA_eq_encodeAB] at this

/-- A word with opcode `op` and a zero field above B is a format AB word of `op`. -/
theorem encodeAB_of_fields {w : Word} {op : Nat} (h : (opField w).toNat = op) (hz : zField w = 0) :
    encodeAB op (aField w) (bField w) = w := by
  have := encodeAB_fields hz
  rwa [h] at this

end Sys2Proof
end

