-- ==== Sys2Proof/Laws/HostPort.lean ====
section
/-! SUPPORT. The host port (20_memory.md R40 to R44): where each offset of the map lies, and what a step does with the
host's next access. -/

namespace Sys2Proof.Machine

section Map

theorem locate_keyByte {k : Nat} (h : k < 32) : locate (0x0040 + k) = .keyByte k := by
  unfold locate
  rw [if_neg (by omega), if_neg (by omega), if_pos (by simp only [Config.keyBytes]; omega), Nat.add_sub_cancel_left]

theorem locate_ibufByte {a : Nat} (h : a < 4096) : locate (0x1000 + a) = .ibufByte a := by
  unfold locate
  rw [if_neg (by omega), if_neg (by omega), if_neg (by simp only [Config.keyBytes]; omega), if_neg (by omega),
    if_pos (by simp only [Config.bufBytes]; omega), Nat.add_sub_cancel_left]

theorem locate_obufByte {a : Nat} (h : a < 4096) : locate (0x2000 + a) = .obufByte a := by
  unfold locate
  rw [if_neg (by omega), if_neg (by omega), if_neg (by simp only [Config.keyBytes]; omega), if_neg (by omega),
    if_neg (by simp only [Config.bufBytes]; omega), if_neg (by omega),
    if_pos (by simp only [Config.bufBytes]; omega), Nat.add_sub_cancel_left]

theorem locate_reserved {offset : Nat}
    (h : (0x0024 ≤ offset ∧ offset < 0x0040) ∨ (0x0060 ≤ offset ∧ offset < 0x1000)) : locate offset = .reserved := by
  unfold locate
  rw [if_neg (by omega)]
  rcases h with h | h
  · rw [if_pos h.2]
  · rw [if_neg (by omega), if_neg (by simp only [Config.keyBytes]; omega), if_pos h.2]

theorem locate_register {offset : Nat} (h : offset < 0x0024) : locate offset = .register (registerAt offset) := by
  unfold locate
  rw [if_pos h]

theorem locate_outside {offset : Nat} (h : 0x3000 ≤ offset) : locate offset = .outside := by
  unfold locate
  rw [if_neg (by omega), if_neg (by omega), if_neg (by simp only [Config.keyBytes]; omega), if_neg (by omega),
    if_neg (by simp only [Config.bufBytes]; omega), if_neg (by omega), if_neg (by simp only [Config.bufBytes]; omega),
    if_neg (by simp only [Config.windowBytes]; omega)]

/-- Every offset lies in exactly one row of the map (R41). -/
theorem locate_cases (offset : Nat) :
    (offset < 0x0024 ∧ locate offset = .register (registerAt offset)) ∨
      (((0x0024 ≤ offset ∧ offset < 0x0040) ∨ (0x0060 ≤ offset ∧ offset < 0x1000)) ∧ locate offset = .reserved) ∨
      (∃ k < 32, offset = 0x0040 + k ∧ locate offset = .keyByte k) ∨
      (∃ a < 4096, offset = 0x1000 + a ∧ locate offset = .ibufByte a) ∨
      (∃ a < 4096, offset = 0x2000 + a ∧ locate offset = .obufByte a) ∨
      (0x3000 ≤ offset ∧ locate offset = .outside) := by
  by_cases h1 : offset < 0x0024
  · exact .inl ⟨h1, locate_register h1⟩
  by_cases h2 : (0x0024 ≤ offset ∧ offset < 0x0040) ∨ (0x0060 ≤ offset ∧ offset < 0x1000)
  · exact .inr (.inl ⟨h2, locate_reserved h2⟩)
  by_cases h3 : offset < 0x0060
  · obtain ⟨k, rfl⟩ : ∃ k, offset = 0x0040 + k := ⟨offset - 0x0040, by omega⟩
    exact .inr (.inr (.inl ⟨k, by omega, rfl, locate_keyByte (by omega)⟩))
  by_cases h4 : offset < 0x2000
  · obtain ⟨a, rfl⟩ : ∃ a, offset = 0x1000 + a := ⟨offset - 0x1000, by omega⟩
    exact .inr (.inr (.inr (.inl ⟨a, by omega, rfl, locate_ibufByte (by omega)⟩)))
  by_cases h5 : offset < 0x3000
  · obtain ⟨a, rfl⟩ : ∃ a, offset = 0x2000 + a := ⟨offset - 0x2000, by omega⟩
    exact .inr (.inr (.inr (.inr (.inl ⟨a, by omega, rfl, locate_obufByte (by omega)⟩))))
  · exact .inr (.inr (.inr (.inr (.inr ⟨by omega, locate_outside (by omega)⟩))))

/-- The byte windows as two ranges: IBUF and OBUF touch (R41). -/
theorem inByteWindow_eq (offset : Nat) :
    inByteWindow offset = decide ((0x0040 ≤ offset ∧ offset < 0x0060) ∨ (0x1000 ≤ offset ∧ offset < 0x3000)) := by
  rw [Bool.eq_iff_iff]
  simp only [inByteWindow, Bool.or_eq_true, Bool.and_eq_true, decide_eq_true_eq]
  simp only [Config.bufBytes]
  omega

end Map

section Steps

/-- A step performs the host's next access. -/
@[simp] theorem step_withAccess (s : State) (a : HostAccess) : step (s.withAccess a) = perform a s := rfl

/-- A step with an access waiting performs it (log 1). -/
theorem step_of_pending {s : State} {a : HostAccess} {rest : List HostAccess} (h : s.pending = a :: rest) :
    step s = perform a { s with pending := rest } := by
  rw [step, hostStep, h]

/-- A write to CMD issues its word as a command (R28). -/
theorem perform_writeReg_cmd (w : Word) (s : State) : perform (.writeReg 0x0000 w) s = issueCommand w s := by
  rw [perform, hostWriteReg, locate_register (by decide), registerAt, if_pos (by decide)]
  rfl

/-- `withFetchWord` presents the write of its word to CMD. -/
theorem step_withFetchWord (s : State) (w : Word) : step (s.withFetchWord 32 w.toNat) = issueCommand w s := by
  rw [← perform_writeReg_cmd, step, hostStep, State.withFetchWord]
  simp only [Nat.mod_eq_of_lt w.isLt, BitVec.ofNat_toNat, BitVec.setWidth_eq]

theorem issueCommand_ok {w : Word} {i : Instr} (s : State) (h : decode w = .ok i) : issueCommand w s = exec i s := by
  rw [issueCommand, h]

theorem issueCommand_error {w : Word} {e : Illegal} (s : State) (h : decode w = .error e) :
    issueCommand w s = .next (raise .illegalCommand s) := by
  rw [issueCommand, h]

/-- A 32-bit read completes at an aligned offset outside the byte windows, and then only records a reply. -/
theorem hostReadReg_next {offset : Nat} {s t : State} (h : hostReadReg offset s = .next t) :
    ∃ v, t = { s with replies := s.replies ++ [.word v] } := by
  unfold hostReadReg at h
  split at h
  case h_2 reg _ =>
    split at h
    · exact ⟨_, (Host.Outcome.next.inj h).symm⟩
    · nomatch h
  case h_3 =>
    split at h
    · exact ⟨_, (Host.Outcome.next.inj h).symm⟩
    · nomatch h
  all_goals nomatch h

/-- An 8-bit read only records a reply. -/
theorem hostReadByte_next {offset : Nat} {s t : State} (h : hostReadByte offset s = .next t) :
    ∃ v, t = { s with replies := s.replies ++ [.byte v] } := by
  unfold hostReadByte at h
  split at h
  case h_1 => nomatch h
  case h_2 => nomatch h
  all_goals exact ⟨_, (Host.Outcome.next.inj h).symm⟩

/-- A 32-bit write issues a command, stores a length, or changes nothing. -/
theorem hostWriteReg_next {offset : Nat} {v : Word} {s t : State} (h : hostWriteReg offset v s = .next t) :
    (offset = 0x0000 ∧ issueCommand v s = .next t) ∨ (offset = 0x0010 ∧ t = { s with keylen := v }) ∨
      (offset = 0x0014 ∧ t = { s with inlen := v }) ∨ (offset = 0x0018 ∧ t = { s with outlen := v }) ∨
      (offset ∉ [0x0000, 0x0010, 0x0014, 0x0018] ∧ t = s) := by
  have aligned : ∀ o < 0x0024, o % 4 = 0 → o ∈ [0x00, 0x04, 0x08, 0x0C, 0x10, 0x14, 0x18, 0x1C, 0x20] := by decide
  rcases locate_cases offset with ⟨hlt, hl⟩ | ⟨hr, hl⟩ | ⟨k, -, -, hl⟩ | ⟨a, -, -, hl⟩ | ⟨a, -, -, hl⟩ | ⟨-, hl⟩ <;>
    simp only [hostWriteReg, hl] at h
  case inl =>
    split at h
    case isFalse => nomatch h
    case isTrue h4 =>
      have hm := aligned offset hlt h4
      simp only [List.mem_cons, List.not_mem_nil, or_false] at hm
      rcases hm with rfl | rfl | rfl | rfl | rfl | rfl | rfl | rfl | rfl
      case inl => exact .inl ⟨rfl, h⟩
      case inr.inr.inr.inr.inl => exact .inr (.inl ⟨rfl, (Host.Outcome.next.inj h).symm⟩)
      case inr.inr.inr.inr.inr.inl => exact .inr (.inr (.inl ⟨rfl, (Host.Outcome.next.inj h).symm⟩))
      case inr.inr.inr.inr.inr.inr.inl => exact .inr (.inr (.inr (.inl ⟨rfl, (Host.Outcome.next.inj h).symm⟩)))
      all_goals exact .inr (.inr (.inr (.inr ⟨by decide, (Host.Outcome.next.inj h).symm⟩)))
  case inr.inl =>
    split at h
    · refine .inr (.inr (.inr (.inr ⟨?_, (Host.Outcome.next.inj h).symm⟩)))
      simp only [List.mem_cons, List.not_mem_nil, or_false]
      omega
    · nomatch h
  all_goals nomatch h

/-- An 8-bit write stores a byte of KEY or IBUF, or changes nothing. -/
theorem hostWriteByte_next {offset : Nat} {v : Byte} {s t : State} (h : hostWriteByte offset v s = .next t) :
    (∃ k < 32, offset = 0x0040 + k ∧ t = { s with key := memWrite s.key k v }) ∨
      (∃ a < 4096, offset = 0x1000 + a ∧ t = { s with ibuf := memWrite s.ibuf a v }) ∨
      (¬(0x0040 ≤ offset ∧ offset < 0x0060) ∧ ¬(0x1000 ≤ offset ∧ offset < 0x2000) ∧ t = s) := by
  rcases locate_cases offset with ⟨-, hl⟩ | ⟨hr, hl⟩ | ⟨k, hk, ho, hl⟩ | ⟨a, ha, ho, hl⟩ | ⟨a, ha, ho, hl⟩ | ⟨-, hl⟩ <;>
    simp only [hostWriteByte, hl] at h
  case inr.inl => exact .inr (.inr ⟨by omega, by omega, (Host.Outcome.next.inj h).symm⟩)
  case inr.inr.inl => exact .inl ⟨k, hk, ho, (Host.Outcome.next.inj h).symm⟩
  case inr.inr.inr.inl => exact .inr (.inl ⟨a, ha, ho, (Host.Outcome.next.inj h).symm⟩)
  case inr.inr.inr.inr.inl => exact .inr (.inr ⟨by omega, by omega, (Host.Outcome.next.inj h).symm⟩)
  all_goals nomatch h

end Steps

end Sys2Proof.Machine
end

