-- ==== Sys2Proof/Laws/KeySchedule.lean ====
section
/-! SUPPORT. Key expansion (43_key_schedule.md): what the head load, the clearing and the expansion loop leave in each
word, the values of RCON, and that the expansion is a function of the first NK words. -/

namespace Sys2Proof.Machine

theorem ksRead_loadKeyHead (key : Memory) (n j : Nat) (ks : Schedule) (i : Nat) (h : j + n ≤ 60) :
    ksRead (loadKeyHead key n j ks) i = if j ≤ i ∧ i < j + n then keyWord key i else ksRead ks i := by
  induction n generalizing j ks with
  | zero => rw [if_neg (by omega)]; rfl
  | succ n ih =>
    rw [loadKeyHead, ih (j + 1) _ (by omega)]
    by_cases hij : i = j
    · subst hij
      rw [if_neg (by omega), if_pos (by omega), ksRead_ksWrite_self _ _ (by omega)]
    · rw [ksRead_ksWrite_ne _ _ hij]
      by_cases hr : j + 1 ≤ i ∧ i < j + 1 + n
      · rw [if_pos hr, if_pos (by omega)]
      · rw [if_neg hr, if_neg (by omega)]

theorem ksRead_ksClearFrom (n j : Nat) (ks : Schedule) (i : Nat) (h : j + n ≤ 60) :
    ksRead (ksClearFrom n j ks) i = if j ≤ i ∧ i < j + n then 0 else ksRead ks i := by
  induction n generalizing j ks with
  | zero => rw [if_neg (by omega)]; rfl
  | succ n ih =>
    rw [ksClearFrom, ih (j + 1) _ (by omega)]
    by_cases hij : i = j
    · subst hij
      rw [if_neg (by omega), if_pos (by omega), ksRead_ksWrite_self _ _ (by omega)]
    · rw [ksRead_ksWrite_ne _ _ hij]
      by_cases hr : j + 1 ≤ i ∧ i < j + 1 + n
      · rw [if_pos hr, if_pos (by omega)]
      · rw [if_neg hr, if_neg (by omega)]

/-- CTXREL's clearing leaves every word zero (R124). -/
theorem ksClearFrom_all (ks : Schedule) : ksClearFrom 60 0 ks = Vector.replicate 60 0 :=
  schedule_ext fun i hi => by rw [ksRead_ksClearFrom _ _ _ _ (by decide), if_pos (by omega), ksRead_replicate]

/-- RCON before iteration `i` of the expansion: it has been advanced once for each multiple of `nk` in `nk .. i-1`
(R120). -/
def rconAt (nk i : Nat) : Byte := xtimePow ((i - 1) / nk) 1

theorem roundConstants_eq : ∀ k : Fin 11, roundConstants.getD k.val 0 = xtimePow k.val 1 := by decide

theorem gfMul_two {log ilog : Table} (h : GoodTables log ilog) (a : Byte) : gfMul log ilog a 0x02 = xtime a := by
  rw [gfMul_eq_mulSlow h]
  have : (0x02 : Byte) = xtime 1 := by decide
  rw [this, mulSlow_xtime_right, mulSlow_one_right]

/-- One iteration advances RCON exactly when it used it (R121). -/
theorem nextRcon_rconAt {log ilog : Table} (h : GoodTables log ilog) {nk i : Nat} (hi : 0 < i) :
    nextRcon log ilog nk i (rconAt nk i) = rconAt nk (i + 1) := by
  obtain ⟨m, rfl⟩ : ∃ m, i = m + 1 := ⟨i - 1, by omega⟩
  simp only [nextRcon, rconAt, Nat.add_sub_cancel]
  split
  · next hd =>
    have hdvd : nk ∣ m + 1 := Nat.dvd_of_mod_eq_zero hd
    rw [gfMul_two h, xtime_xtimePow, Nat.succ_div_of_dvd hdvd]
  · next hd => rw [Nat.succ_div_of_not_dvd fun hc => hd (Nat.mod_eq_zero_of_dvd hc)]

/-- The recurrence of R121 for one word. -/
def ExpandsAt (sbox : Table) (nk : Nat) (ks : Schedule) (i : Nat) : Prop :=
  ksRead ks i = ksRead ks (i - nk) ^^^ expandTemp sbox nk i (rconAt nk i) (ksRead ks (i - 1))

/-- What the expansion loop leaves: words outside its range are kept, and words inside obey the recurrence. -/
theorem expandLoop_spec {log ilog : Table} (h : GoodTables log ilog) (sbox : Table) {nk : Nat} (hn : 0 < nk)
    (count i : Nat) (ks : Schedule) (hi : nk ≤ i) (hc : i + count ≤ 60) :
    (∀ j, j < i ∨ i + count ≤ j → ksRead (expandLoop log ilog sbox nk count i (rconAt nk i) ks) j = ksRead ks j) ∧
      ∀ j, i ≤ j → j < i + count →
        ExpandsAt sbox nk (expandLoop log ilog sbox nk count i (rconAt nk i) ks) j := by
  induction count generalizing i ks with
  | zero => exact ⟨fun _ _ => rfl, fun j h1 h2 => by omega⟩
  | succ n ih =>
    rw [expandLoop, nextRcon_rconAt h (by omega)]
    obtain ⟨keep, expand⟩ := ih (i + 1)
      (ksWrite ks i (ksRead ks (i - nk) ^^^ expandTemp sbox nk i (rconAt nk i) (ksRead ks (i - 1)))) (by omega) (by omega)
    refine ⟨fun j hj => ?_, fun j h1 h2 => ?_⟩
    · rw [keep j (by omega), ksRead_ksWrite_ne _ _ (by omega)]
    · by_cases hji : j = i
      · subst hji
        unfold ExpandsAt
        rw [keep j (by omega), keep (j - nk) (by omega), keep (j - 1) (by omega), ksRead_ksWrite_self _ _ (by omega),
          ksRead_ksWrite_ne _ _ (by omega), ksRead_ksWrite_ne _ _ (by omega)]
      · exact expand j (by omega) (by omega)

/-- What `ExpandKey` leaves (R121). -/
theorem expandKey_spec {log ilog : Table} (h : GoodTables log ilog) (sbox : Table) {nk r : Nat} (hn : 0 < nk)
    (hr : nk ≤ scheduleLength r) (h60 : scheduleLength r ≤ 60) (ks : Schedule) :
    (∀ j, j < nk ∨ scheduleLength r ≤ j → ksRead (expandKey log ilog sbox nk r ks) j = ksRead ks j) ∧
      ∀ j, nk ≤ j → j < scheduleLength r → ExpandsAt sbox nk (expandKey log ilog sbox nk r ks) j := by
  have h1 : rconAt nk nk = 0x01 := by
    rw [rconAt, Nat.div_eq_of_lt (by omega)]
    rfl
  have := expandLoop_spec h sbox hn (scheduleLength r - nk) nk ks (Nat.le_refl nk) (by omega)
  rw [h1] at this
  refine ⟨fun j hj => this.1 j (by omega), fun j h1 h2 => this.2 j h1 (by omega)⟩

/-- The recurrence determines every word from the first `nk`. -/
theorem expandsAt_unique {sbox : Table} {nk len : Nat} (hn : 0 < nk) {a b : Schedule}
    (head : ∀ j < nk, ksRead a j = ksRead b j) (ha : ∀ j, nk ≤ j → j < len → ExpandsAt sbox nk a j)
    (hb : ∀ j, nk ≤ j → j < len → ExpandsAt sbox nk b j) : ∀ j < len, ksRead a j = ksRead b j := by
  intro j
  induction j using Nat.strong_induction_on with
  | _ j ih =>
    intro hj
    by_cases hjn : j < nk
    · exact head j hjn
    · rw [ha j (by omega) hj, hb j (by omega) hj, ih (j - nk) (by omega) (by omega), ih (j - 1) (by omega) (by omega)]

/-- A schedule whose words obey the recurrence is its own expansion (R34 (c)). -/
theorem expandKey_fixed {log ilog : Table} (h : GoodTables log ilog) (sbox : Table) {nk r : Nat} (hn : 0 < nk)
    (hr : nk ≤ scheduleLength r) (h60 : scheduleLength r ≤ 60) {ks : Schedule}
    (hks : ∀ j, nk ≤ j → j < scheduleLength r → ExpandsAt sbox nk ks j) :
    expandKey log ilog sbox nk r ks = ks := by
  obtain ⟨keep, expand⟩ := expandKey_spec h sbox hn hr h60 ks
  refine schedule_ext fun j _ => ?_
  by_cases hj : j < scheduleLength r
  · exact expandsAt_unique hn (fun j hj => keep j (.inl hj)) expand hks j hj
  · exact keep j (.inr (by omega))

/-- What KEYINIT leaves in the schedule: the key words, the recurrence, zeros above (R117, R121, R122). -/
theorem keySchedule_spec {log ilog : Table} (h : GoodTables log ilog) (sbox : Table) (key : Memory) {nk : Nat}
    (hn : 0 < nk) (h8 : nk ≤ 8) (ks : Schedule) :
    (∀ j < nk, ksRead (keySchedule log ilog sbox key nk ks) j = keyWord key j) ∧
      (∀ j, nk ≤ j → j < scheduleLength (nk + 6) → ExpandsAt sbox nk (keySchedule log ilog sbox key nk ks) j) ∧
      ∀ j, scheduleLength (nk + 6) ≤ j → ksRead (keySchedule log ilog sbox key nk ks) j = 0 := by
  have hlen : scheduleLength (nk + 6) ≤ 60 ∧ nk ≤ scheduleLength (nk + 6) := by simp only [scheduleLength]; omega
  obtain ⟨keep, expand⟩ := expandKey_spec h sbox hn hlen.2 hlen.1 (loadKeyHead key nk 0 ks)
  have below : ∀ j, j < scheduleLength (nk + 6) → ksRead (keySchedule log ilog sbox key nk ks) j =
      ksRead (expandKey log ilog sbox nk (nk + 6) (loadKeyHead key nk 0 ks)) j := fun j hj => by
    rw [keySchedule, ksRead_ksClearFrom _ _ _ _ (by omega), if_neg (by omega)]
  refine ⟨fun j hj => ?_, fun j h1 h2 => ?_, fun j hj => ?_⟩
  · rw [below j (by omega), keep j (.inl hj), ksRead_loadKeyHead _ _ _ _ _ (by omega), if_pos (by omega)]
  · unfold ExpandsAt
    rw [below j h2, below (j - nk) (by omega), below (j - 1) (by omega)]
    exact expand j h1 h2
  · by_cases h60 : j < 60
    · rw [keySchedule, ksRead_ksClearFrom _ _ _ _ (by omega), if_pos (by omega)]
    · exact ksRead_of_le _ (by omega)

/-- The three key lengths and their NK (R115). -/
theorem validKeyLength_cases {len : Nat} (h : validKeyLength len = true) :
    (len = 16 ∧ len / 4 = 4) ∨ (len = 24 ∧ len / 4 = 6) ∨ (len = 32 ∧ len / 4 = 8) := by
  simp only [validKeyLength, Bool.or_eq_true, beq_iff_eq] at h
  omega

/-- The schedule `installContext` leaves is that of the rebuilt tables. -/
theorem installContext_ks (s : State) : (installContext s).ks =
    keySchedule (rebuildTables s).log (rebuildTables s).ilog (rebuildTables s).sbox s.key (s.keylen.toNat / 4) s.ks := by
  rw [installContext, expandAndInstall, setContext_ks, rebuildTables_key, rebuildTables_keylen, rebuildTables_ks]

/-- What KEYINIT changes after its check, and nothing else (R122). -/
theorem installContext_frame (s : State) :
    installContext s = { s with
      log := (rebuildTables s).log, ilog := (rebuildTables s).ilog, gfValid := true, sbox := (rebuildTables s).sbox,
      isbox := (rebuildTables s).isbox, sbValid := true, ctxValid := true, nk := BitVec.ofNat 4 (s.keylen.toNat / 4),
      r := BitVec.ofNat 4 (s.keylen.toNat / 4 + 6), ks := (installContext s).ks, state := zeroMatrix } := by
  have h := rebuildTables_frame s
  rw [installContext_ks]
  rw [installContext, expandAndInstall, setContext, rebuildTables_keylen, rebuildTables_key, rebuildTables_ks]
  generalize rebuildTables s = u at *
  generalize keySchedule u.log u.ilog u.sbox s.key (s.keylen.toNat / 4) s.ks = k
  rw [h]

end Sys2Proof.Machine
end

