-- ==== Sys2Proof/Laws/Invariant.lean ====
section
/-! SUPPORT. The invariant of 10_state.md R34 and the shared effects: each of them keeps it. -/

namespace Sys2Proof.Machine

section Outcome

theorem ErrorKind.code_ne_zero (e : ErrorKind) : e.code ≠ 0 := by cases e <;> decide

theorem raise_inv {s : State} (h : Inv s) (e : ErrorKind) : Inv (raise e s) :=
  ⟨h.sb_gf, h.ctx_sb, h.released, h.shape, h.expanded, h.unwritten, h.gf, h.sb,
    ⟨by simp [raise], by have := e.code_ne_zero; simp [raise]; exact this⟩, h.key, h.ibuf, h.obuf⟩

theorem succeed_inv {s : State} (h : Inv s) : Inv (succeed s) :=
  ⟨h.sb_gf, h.ctx_sb, h.released, h.shape, h.expanded, h.unwritten, h.gf, h.sb,
    ⟨by simp [succeed], by simp [succeed]⟩, h.key, h.ibuf, h.obuf⟩

end Outcome

section Fields

theorem result_inv {s : State} (h : Inv s) (v : Word) : Inv { s with result := v } :=
  ⟨h.sb_gf, h.ctx_sb, h.released, h.shape, h.expanded, h.unwritten, h.gf, h.sb, h.outcome, h.key, h.ibuf, h.obuf⟩

theorem replies_inv {s : State} (h : Inv s) (l : List HostReply) : Inv { s with replies := l } :=
  ⟨h.sb_gf, h.ctx_sb, h.released, h.shape, h.expanded, h.unwritten, h.gf, h.sb, h.outcome, h.key, h.ibuf, h.obuf⟩

theorem pending_inv {s : State} (h : Inv s) (l : List HostAccess) : Inv { s with pending := l } :=
  ⟨h.sb_gf, h.ctx_sb, h.released, h.shape, h.expanded, h.unwritten, h.gf, h.sb, h.outcome, h.key, h.ibuf, h.obuf⟩

theorem state_inv {s : State} (h : Inv s) (hc : s.ctxValid = true) (S : Matrix) : Inv { s with state := S } :=
  ⟨h.sb_gf, h.ctx_sb, fun h' => absurd (hc.symm.trans h') (by decide), h.shape, h.expanded, h.unwritten, h.gf, h.sb,
    h.outcome, h.key, h.ibuf, h.obuf⟩

theorem obuf_inv {s : State} (h : Inv s) {m : Memory} (h1 : m.wf = true) (h2 : m.within Config.bufBytes = true) :
    Inv { s with obuf := m } :=
  ⟨h.sb_gf, h.ctx_sb, h.released, h.shape, h.expanded, h.unwritten, h.gf, h.sb, h.outcome, h.key, h.ibuf, ⟨h1, h2⟩⟩

theorem state_obuf_inv {s : State} (h : Inv s) (hc : s.ctxValid = true) (S : Matrix) {m : Memory} (h1 : m.wf = true)
    (h2 : m.within Config.bufBytes = true) : Inv { s with state := S, obuf := m } :=
  obuf_inv (state_inv h hc S) h1 h2

end Fields

section Effects

theorem buildGfTables_inv {s : State} (h : Inv s) : Inv (buildGfTables s) := by
  have frame := buildGfTables_frame s
  have built := buildGfTables_built s
  have keep := buildGfTables_unwritten s
  have same : s.gfValid = true → (buildGfTables s).log = s.log ∧ (buildGfTables s).ilog = s.ilog :=
    fun hv => buildGfTables_of_built (h.gf hv)
  generalize buildGfTables s = g at *
  rw [frame] at built ⊢
  refine ⟨fun _ => rfl, h.ctx_sb, h.released, h.shape, fun hc => ?_,
    ⟨keep.1.trans h.unwritten.1, keep.2.trans h.unwritten.2⟩, fun _ => built, h.sb, h.outcome, h.key, h.ibuf, h.obuf⟩
  obtain ⟨hl, hi⟩ := same (h.sb_gf (h.ctx_sb hc))
  rw [hl, hi]
  exact h.expanded hc

theorem buildSbox_inv {s : State} (h : Inv s) (hv : s.gfValid = true) : Inv (buildSbox s) := by
  have frame := buildSbox_frame s
  have built := buildSbox_built (h.gf hv)
  have same : s.sbValid = true → (buildSbox s).sbox = s.sbox ∧ (buildSbox s).isbox = s.isbox :=
    fun hs => sboxTables_unique built (h.sb hs)
  generalize buildSbox s = g at *
  rw [frame] at built ⊢
  refine ⟨fun _ => hv, fun _ => rfl, h.released, h.shape, fun hc => ?_, h.unwritten, h.gf, fun _ => built, h.outcome,
    h.key, h.ibuf, h.obuf⟩
  rw [(same (h.ctx_sb hc)).1]
  exact h.expanded hc

theorem rebuildTables_inv {s : State} (h : Inv s) : Inv (rebuildTables s) :=
  buildSbox_inv (buildGfTables_inv h) (by simp)

theorem installContext_inv {s : State} (h : Inv s) (hv : validKeyLength s.keylen.toNat = true) :
    Inv (installContext s) := by
  have tables := rebuildTables_inv h
  have built := rebuildTables_built s
  have frame := installContext_frame s
  have cases := validKeyLength_cases hv
  have spec := keySchedule_spec built.1 (rebuildTables s).sbox s.key (nk := s.keylen.toNat / 4) (by omega) (by omega) s.ks
  rw [← installContext_ks] at spec
  have hnk : (BitVec.ofNat 4 (s.keylen.toNat / 4)).toNat = s.keylen.toNat / 4 := by rw [BitVec.toNat_ofNat]; omega
  have hr : (BitVec.ofNat 4 (s.keylen.toNat / 4 + 6)).toNat = s.keylen.toNat / 4 + 6 := by
    rw [BitVec.toNat_ofNat]; omega
  have fixed := expandKey_fixed built.1 (rebuildTables s).sbox (nk := s.keylen.toNat / 4) (r := s.keylen.toNat / 4 + 6)
    (by omega) (by simp only [scheduleLength]; omega) (by simp only [scheduleLength]; omega) spec.2.1
  generalize installContext s = g at *
  generalize rebuildTables s = u at *
  rw [frame]
  refine ⟨fun _ => rfl, fun _ => rfl, (fun h => nomatch h), fun _ => ?_, fun _ => ?_, tables.unwritten, fun _ => built.1,
    fun _ => built.2, h.outcome, h.key, h.ibuf, h.obuf⟩
  · rcases cases with ⟨-, h4⟩ | ⟨-, h4⟩ | ⟨-, h4⟩ <;> simp only [ContextShape, h4] <;> decide
  · simp only [hnk, hr]
    exact fixed

theorem releaseContext_inv {s : State} (h : Inv s) : Inv (releaseContext s) :=
  ⟨h.sb_gf, (fun h => nomatch h), fun _ => ⟨rfl, rfl, ksClearFrom_all _, rfl⟩, (fun h => nomatch h),
    (fun h => nomatch h), h.unwritten, h.gf, h.sb, h.outcome, h.key, h.ibuf, h.obuf⟩

/-- A block index in a byte names a block inside the buffer (R164). -/
theorem block_in_buffer (n : Byte) : 16 * n.toNat + 16 ≤ Config.bufBytes := by
  have := n.isLt
  simp only [Config.bufBytes]
  omega

theorem storeState_inv {s : State} (h : Inv s) (n : Byte) : Inv (storeState n.toNat s) := by
  have wf := storeState_wf n.toNat h.obuf.1
  have within := storeState_within (block_in_buffer n) h.obuf.2
  have frame : storeState n.toNat s = { s with obuf := (storeState n.toNat s).obuf } := by
    simp only [storeState, setObuf]
  generalize storeState n.toNat s = g at *
  rw [frame]
  exact obuf_inv h wf within

theorem processBlock_inv {s : State} (h : Inv s) (hc : s.ctxValid = true) (f : State → Matrix → Matrix) (n : Byte) :
    Inv (processBlock f n.toNat s) := by
  have frame := processBlock_frame f n.toNat s
  have wf := processBlock_wf f n.toNat h.obuf.1
  have within := processBlock_within f (block_in_buffer n) h.obuf.2
  generalize processBlock f n.toNat s = g at *
  rw [frame]
  exact state_obuf_inv h hc _ wf within

theorem blockLoop_inv {s : State} (h : Inv s) {f : State → Matrix → Matrix} (hf : Independent f)
    (hb : checkBuffer s = none) : Inv (blockLoop (processBlock f) (s.inlen.toNat / 16) 0 s) := by
  obtain ⟨hc, -, h2, h3⟩ := checkBuffer_eq_none.1 hb
  obtain ⟨S, m, heq, hw, -, -, -, -, hwin⟩ := blockLoop_spec hf (s.inlen.toNat / 16) 0 s
  rw [heq]
  exact state_obuf_inv h hc S (hw h.obuf.1) (hwin _ (by simp only [Config.bufBytes] at *; omega) h.obuf.2)

end Effects

/-- The effect of a command whose check passes keeps the invariant. -/
theorem effectOf_inv {i : Instr} {s : State} (h : Inv s) (hf : failureOf i s = none) : Inv (effectOf i s) := by
  cases i
  case gfinit => exact buildGfTables_inv h
  case sbinit => exact buildSbox_inv h (checkGf_eq_none.1 hf)
  case keyinit => exact installContext_inv h (checkKeyLength_eq_none.1 hf)
  case ctxrel => exact releaseContext_inv h
  case initvec => exact rebuildTables_inv h
  case enc => exact blockLoop_inv h encryptMatrix_independent hf
  case dec => exact blockLoop_inv h decryptMatrix_independent hf
  case encblk n => exact processBlock_inv h (by simpa [failureOf] using hf) encryptMatrix n
  case decblk n => exact processBlock_inv h (by simpa [failureOf] using hf) decryptMatrix n
  case stst n => exact storeState_inv h n
  case ldst n => exact state_inv h (by simpa [failureOf] using hf) _
  case ark n => exact state_inv h (by simp [failureOf] at hf; exact hf.1) _
  case subb => exact state_inv h (checkCtx_eq_none.1 hf) _
  case shr => exact state_inv h (checkCtx_eq_none.1 hf) _
  case mixc => exact state_inv h (checkCtx_eq_none.1 hf) _
  case isubb => exact state_inv h (checkCtx_eq_none.1 hf) _
  case ishr => exact state_inv h (checkCtx_eq_none.1 hf) _
  case imixc => exact state_inv h (checkCtx_eq_none.1 hf) _
  all_goals exact result_inv h _

end Sys2Proof.Machine
end

