-- ==== Sys2Proof/Laws/PerInstr.lean ====
section
/-! SUPPORT. Statements made for every command: the encoder writes a well-formed word (30_encoding.md R61, R64). -/

namespace Sys2Proof.Laws.WellFormed

/-- The command's word is well formed by the opcode table. -/
def Statement (i : Instr) : Prop := i.wellFormed = true

/-- A word is well formed when its opcode's row and its must-be-zero fields are known. -/
theorem wordWellFormed_of_fields {w : Word} (row : Row) (hop : opcodeTable.find? (fun r => r.op == row.op) = some row)
    (h0 : opField w = row.op) (hz : zField w = 0) (hb : row.format ≠ .AB → bField w = 0)
    (ha : row.format = .N → aField w = 0) : wordWellFormed w = true := by
  have found : rowOf w = some row := by rw [rowOf, h0, hop]
  rcases row with ⟨name, op, format⟩
  cases format <;> simp_all [wordWellFormed, opcodeAssigned, reservedZero]

/-- The word of a format N command is well formed. -/
theorem wellFormed_N (op : Nat) (h : op < 256) (name : String)
    (hop : opcodeTable.find? (fun r => r.op == BitVec.ofNat 8 op) = some ⟨name, BitVec.ofNat 8 op, .N⟩) :
    wordWellFormed (encodeN op) = true := by
  obtain ⟨h0, h1, h2, h3⟩ := fields_encodeN op h
  exact wordWellFormed_of_fields ⟨name, BitVec.ofNat 8 op, .N⟩ hop h0 h3 (fun _ => h2) (fun _ => h1)

/-- The word of a format A command is well formed. -/
theorem wellFormed_A (op : Nat) (a : Byte) (h : op < 256) (name : String)
    (hop : opcodeTable.find? (fun r => r.op == BitVec.ofNat 8 op) = some ⟨name, BitVec.ofNat 8 op, .A⟩) :
    wordWellFormed (encodeA op a) = true := by
  obtain ⟨h0, -, h2, h3⟩ := fields_encodeA op a h
  exact wordWellFormed_of_fields ⟨name, BitVec.ofNat 8 op, .A⟩ hop h0 h3 (fun _ => h2) (fun e => nomatch e)

/-- The word of a format AB command is well formed. -/
theorem wellFormed_AB (op : Nat) (a b : Byte) (h : op < 256) (name : String)
    (hop : opcodeTable.find? (fun r => r.op == BitVec.ofNat 8 op) = some ⟨name, BitVec.ofNat 8 op, .AB⟩) :
    wordWellFormed (encodeAB op a b) = true := by
  obtain ⟨h0, -, -, h3⟩ := fields_encodeAB op a b h
  exact wordWellFormed_of_fields ⟨name, BitVec.ofNat 8 op, .AB⟩ hop h0 h3 (fun e => absurd rfl e) (fun e => nomatch e)

theorem gfinit : Statement .gfinit := wellFormed_N 0x10 (by decide) "GFINIT" (by decide)

theorem gfmul (a b : Byte) : Statement (.gfmul a b) := wellFormed_AB 0x11 a b (by decide) "GFMUL" (by decide)

theorem gfinv (a : Byte) : Statement (.gfinv a) := wellFormed_A 0x12 a (by decide) "GFINV" (by decide)

theorem logrd (a : Byte) : Statement (.logrd a) := wellFormed_A 0x13 a (by decide) "LOGRD" (by decide)

theorem ilogrd (a : Byte) : Statement (.ilogrd a) := wellFormed_A 0x14 a (by decide) "ILOGRD" (by decide)

theorem sbinit : Statement .sbinit := wellFormed_N 0x20 (by decide) "SBINIT" (by decide)

theorem sbox (a : Byte) : Statement (.sbox a) := wellFormed_A 0x21 a (by decide) "SBOX" (by decide)

theorem isbox (a : Byte) : Statement (.isbox a) := wellFormed_A 0x22 a (by decide) "ISBOX" (by decide)

theorem keyinit : Statement .keyinit := wellFormed_N 0x30 (by decide) "KEYINIT" (by decide)

theorem ksrd (a : Byte) : Statement (.ksrd a) := wellFormed_A 0x31 a (by decide) "KSRD" (by decide)

theorem ctxrel : Statement .ctxrel := wellFormed_N 0x32 (by decide) "CTXREL" (by decide)

theorem ldst (a : Byte) : Statement (.ldst a) := wellFormed_A 0x40 a (by decide) "LDST" (by decide)

theorem stst (a : Byte) : Statement (.stst a) := wellFormed_A 0x41 a (by decide) "STST" (by decide)

theorem ark (a : Byte) : Statement (.ark a) := wellFormed_A 0x42 a (by decide) "ARK" (by decide)

theorem subb : Statement .subb := wellFormed_N 0x43 (by decide) "SUBB" (by decide)

theorem shr : Statement .shr := wellFormed_N 0x44 (by decide) "SHR" (by decide)

theorem mixc : Statement .mixc := wellFormed_N 0x45 (by decide) "MIXC" (by decide)

theorem isubb : Statement .isubb := wellFormed_N 0x46 (by decide) "ISUBB" (by decide)

theorem ishr : Statement .ishr := wellFormed_N 0x47 (by decide) "ISHR" (by decide)

theorem imixc : Statement .imixc := wellFormed_N 0x48 (by decide) "IMIXC" (by decide)

theorem encblk (a : Byte) : Statement (.encblk a) := wellFormed_A 0x4E a (by decide) "ENCBLK" (by decide)

theorem decblk (a : Byte) : Statement (.decblk a) := wellFormed_A 0x4F a (by decide) "DECBLK" (by decide)

theorem initvec : Statement .initvec := wellFormed_N 0x50 (by decide) "INITVEC" (by decide)

theorem enc : Statement .enc := wellFormed_N 0x51 (by decide) "ENC" (by decide)

theorem dec : Statement .dec := wellFormed_N 0x52 (by decide) "DEC" (by decide)

end Sys2Proof.Laws.WellFormed
end

