-- ==== Sys2Proof/Laws/Sequencer.lean ====
section
/-! SUPPORT. The round-control sequencer (44_block_transform.md R151): a schedule runs piece by piece, the two block passes
are runs of their schedules, and where each step stands in a schedule. -/

namespace Sys2Proof.Machine

section Runs

theorem runSchedule_append (n : Nat) (a b : List SeqStep) (s : State) :
    runSchedule n (a ++ b) s = runSchedule n b (runSchedule n a s) := by
  induction a generalizing s with
  | nil => rfl
  | cons x a ih => rw [List.cons_append, runSchedule, runSchedule, ih]

/-- A run of forward rounds replaces STATE by their composition. -/
theorem runSchedule_encryptRounds (n count k : Nat) (s : State) :
    runSchedule n ((List.range' k count).flatMap encryptRoundSteps) s = setMatrix (encryptRounds s count k) s := by
  induction count generalizing k s with
  | zero => rfl
  | succ count ih =>
    rw [List.range'_succ, List.flatMap_cons, runSchedule_append, ih]
    have same : encryptRounds (runSchedule n (encryptRoundSteps k) s) = encryptRounds s := by
      funext c j S
      exact encryptRounds_independent s
        (addRoundKey s.ks k (mixColumns s.log s.ilog (shiftRows (substitute s.sbox s.state)))) s.obuf c j S
    rw [same]
    simp only [encryptRoundSteps, runSchedule, runSeqStep, setMatrix, encryptRounds]

/-- A run of inverse rounds replaces STATE by their composition. -/
theorem runSchedule_decryptRounds (n count : Nat) (s : State) :
    runSchedule n ((List.range' 1 count).reverse.flatMap decryptRoundSteps) s =
      setMatrix (decryptRounds s count) s := by
  induction count generalizing s with
  | zero => rfl
  | succ count ih =>
    rw [List.range'_1_concat, List.reverse_append, List.reverse_singleton, List.singleton_append, List.flatMap_cons,
      runSchedule_append, ih]
    have same : decryptRounds (runSchedule n (decryptRoundSteps (1 + count)) s) = decryptRounds s := by
      funext c S
      exact decryptRounds_independent s
        (invMixColumns s.log s.ilog (addRoundKey s.ks (1 + count) (substitute s.isbox (invShiftRows s.state)))) s.obuf c S
    rw [same, Nat.add_comm 1 count]
    simp only [decryptRoundSteps, runSchedule, runSeqStep, setMatrix, decryptRounds]

/-- `EncryptBlock` is the run of its schedule (R149, R151). -/
theorem encryptBlock_eq_runSchedule (n : Nat) (s : State) :
    encryptBlock n s = runSchedule n (encryptSchedule s.r.toNat) s := by
  rw [encryptSchedule]
  simp only [runSchedule, runSeqStep, List.append_eq, runSchedule_append, runSchedule_encryptRounds]
  rw [encryptBlock]
  have first : setMatrix (addRoundKey (loadState n s).ks 0) (loadState n s) =
      { s with state := addRoundKey s.ks 0 (loadMatrix s.ibuf n), obuf := s.obuf } := rfl
  have same : encryptRounds { s with state := addRoundKey s.ks 0 (loadMatrix s.ibuf n), obuf := s.obuf } =
      encryptRounds s := by
    funext c k S
    exact encryptRounds_independent s _ _ c k S
  rw [first, same]
  simp only [setMatrix, loadState, encryptMatrix]

/-- `DecryptBlock` is the run of its schedule (R150, R151). -/
theorem decryptBlock_eq_runSchedule (n : Nat) (s : State) :
    decryptBlock n s = runSchedule n (decryptSchedule s.r.toNat) s := by
  rw [decryptSchedule]
  simp only [runSchedule, runSeqStep, List.append_eq, runSchedule_append, runSchedule_decryptRounds]
  rw [decryptBlock]
  have first : setMatrix (addRoundKey (loadState n s).ks s.r.toNat) (loadState n s) =
      { s with state := addRoundKey s.ks s.r.toNat (loadMatrix s.ibuf n), obuf := s.obuf } := rfl
  have same : decryptRounds { s with state := addRoundKey s.ks s.r.toNat (loadMatrix s.ibuf n), obuf := s.obuf } =
      decryptRounds s := by
    funext c S
    exact decryptRounds_independent s _ _ c S
  rw [first, same]
  simp only [setMatrix, loadState, decryptMatrix]

end Runs

section Positions

/-- The length of a list of four-step rounds. -/
theorem length_flatMap_four {α β : Type} (g : α → List β) (hg : ∀ a, (g a).length = 4) (l : List α) :
    (l.flatMap g).length = 4 * l.length := by
  induction l with
  | nil => rfl
  | cons a l ih => rw [List.flatMap_cons, List.length_append, ih, hg, List.length_cons]; omega

/-- Step `j` of round `i` in a list of four-step rounds. -/
theorem getElem?_flatMap_four {α β : Type} (g : α → List β) (hg : ∀ a, (g a).length = 4) (l : List α) (i j : Nat)
    (hj : j < 4) : (l.flatMap g)[4 * i + j]? = (l[i]?).bind (fun a => (g a)[j]?) := by
  induction l generalizing i with
  | nil => simp
  | cons a l ih =>
    rw [List.flatMap_cons]
    cases i with
    | zero => rw [List.getElem?_append_left (by rw [hg]; omega)]; simp
    | succ i =>
      rw [List.getElem?_append_right (by rw [hg]; omega), hg, show 4 * (i + 1) + j - 4 = 4 * i + j by omega, ih]
      simp

/-- Where the steps of a schedule stand: two first steps, `r - 1` rounds of four, and a tail. -/
theorem schedule_positions (a b : SeqStep) (g : Nat → List SeqStep) (hg : ∀ k, (g k).length = 4) (l : List Nat)
    (tail : List SeqStep) (r : Nat) (hl : l.length = r - 1) (hr : 1 ≤ r) :
    (a :: b :: List.append (l.flatMap g) tail).length = 4 * r - 2 + tail.length ∧
      (∀ i j, i < r - 1 → j < 4 →
        (a :: b :: List.append (l.flatMap g) tail)[2 + j + 4 * i]? = (l[i]?).bind (fun k => (g k)[j]?)) ∧
      ∀ j, (a :: b :: List.append (l.flatMap g) tail)[4 * r - 2 + j]? = tail[j]? := by
  have hlen := length_flatMap_four g hg l
  have shift : ∀ k, (a :: b :: List.append (l.flatMap g) tail)[2 + k]? = (l.flatMap g ++ tail)[k]? := fun k => by
    rw [Nat.add_comm]
    simp
  refine ⟨by simp [hlen, hl]; omega, fun i j hi hj => ?_, fun j => ?_⟩
  · rw [Nat.add_assoc, shift, Nat.add_comm j, List.getElem?_append_left (by rw [hlen, hl]; omega),
      getElem?_flatMap_four g hg l i j hj]
  · rw [show 4 * r - 2 + j = 2 + (4 * (r - 1) + j) by omega, shift,
      List.getElem?_append_right (by rw [hlen, hl]; omega), hlen, hl]
    congr 1
    omega

end Positions

section Commands

/-- The command that has the effect of a sequencer step on block `n` (30_encoding.md R70). -/
def commandOf (n : Byte) : SeqStep → Instr
  | .load => .ldst n
  | .ark round => .ark (BitVec.ofNat 8 round)
  | .subb => .subb
  | .shr => .shr
  | .mixc => .mixc
  | .isubb => .isubb
  | .ishr => .ishr
  | .imixc => .imixc
  | .store => .stst n

/-- The round of an AddRoundKey step is at most `r`. -/
def stepInRange (r : Nat) : SeqStep → Bool
  | .ark round => round ≤ r
  | .load | .subb | .shr | .mixc | .isubb | .ishr | .imixc | .store => true

@[simp] theorem runSeqStep_ctxValid (n : Nat) (x : SeqStep) (s : State) :
    (runSeqStep n x s).ctxValid = s.ctxValid := by cases x <;> simp [runSeqStep]

@[simp] theorem runSeqStep_r (n : Nat) (x : SeqStep) (s : State) : (runSeqStep n x s).r = s.r := by
  cases x <;> simp [runSeqStep]

/-- A sequencer step does not look at the outcome fields. -/
theorem runSeqStep_succeed (n : Nat) (x : SeqStep) (s : State) :
    runSeqStep n x (succeed s) = succeed (runSeqStep n x s) := by
  cases x <;> simp only [runSeqStep, setMatrix, loadState, storeState, setObuf, succeed]

/-- A step's command has the step's effect and succeeds. -/
theorem exec_commandOf (n : Byte) (x : SeqStep) (s : State) (h : s.ctxValid = true)
    (hx : stepInRange s.r.toNat x = true) : exec (commandOf n x) s = .next (succeed (runSeqStep n.toNat x s)) := by
  cases x with
  | ark round =>
    simp only [stepInRange, decide_eq_true_eq] at hx
    have := s.r.isLt
    have e : (BitVec.ofNat 8 round).toNat = round := by rw [BitVec.toNat_ofNat]; omega
    rw [commandOf, exec_ok (by simp [failureOf, h]; omega), effectOf, e, runSeqStep]
  | _ => rw [commandOf, exec_ok (by simp [failureOf, h])]; rfl

/-- The commands of a schedule, from a state whose last command succeeded, have the schedule's effect. -/
theorem execAll_commandOf (n : Byte) (l : List SeqStep) (s : State) (h : s.ctxValid = true)
    (hl : ∀ x ∈ l, stepInRange s.r.toNat x = true) :
    execAll (l.map (commandOf n)) (succeed s) = .next (succeed (runSchedule n.toNat l s)) := by
  induction l generalizing s with
  | nil => rfl
  | cons x l ih =>
    rw [List.map_cons, execAll, exec_commandOf n x (succeed s) h (hl x (List.mem_cons_self ..)), runSeqStep_succeed]
    exact ih (runSeqStep n.toNat x s) (by rw [runSeqStep_ctxValid, h]) fun y hy => by
      rw [runSeqStep_r]
      exact hl y (List.mem_cons_of_mem _ hy)

/-- The expansion of ENCBLK is its schedule, command by command. -/
theorem encryptCommands_eq (n : Byte) (r : Nat) : encryptCommands n r = (encryptSchedule r).map (commandOf n) := by
  simp [encryptCommands, encryptSchedule, commandOf, List.map_flatMap, encryptRoundSteps]

/-- The expansion of DECBLK is its schedule, command by command. -/
theorem decryptCommands_eq (n : Byte) (r : Nat) : decryptCommands n r = (decryptSchedule r).map (commandOf n) := by
  simp [decryptCommands, decryptSchedule, commandOf, List.map_flatMap, decryptRoundSteps]

end Commands

end Sys2Proof.Machine
end

