-- ==== Sys2Proof/Tests/Slice0.lean ====
section
/-! SUPPORT. The model's own tests: well-formedness, decoding, one step of each command on values of 95_test_vectors.md,
the host port, and for each statement with hypotheses a witness that meets them. -/

namespace Sys2Proof.Tests
open Sys2Proof.Machine

section WellFormed

/-! The words 30_encoding.md R65 and R66 and 95_test_vectors.md section 7 call illegal. -/

theorem test_check_opcode_refuses_0x49 : opcodeAssigned 0x00000049 = false := by decide
theorem test_check_opcode_refuses_zero : opcodeAssigned 0x00000000 = false := by decide
theorem test_check_reserved_refuses_N_with_A : reservedZero 0x00000143 = false := by decide
theorem test_check_reserved_refuses_A_with_B : reservedZero 0x00010012 = false := by decide
theorem test_check_reserved_refuses_AB_with_Z : reservedZero 0x01835711 = false := by decide
theorem test_illegal_words_are_ill_formed :
    [0x00000000, 0xFFFFFFFF, 0x00000049, 0x00000143, 0x00010012, 0x01835711, 0x00000150].all
      (fun w => !wordWellFormed w) = true := by decide
theorem test_illegal_words_do_not_decode :
    decode 0x00000000 = .error .unassignedOpcode ∧ decode 0xFFFFFFFF = .error .unassignedOpcode ∧
      decode 0x00000049 = .error .unassignedOpcode ∧ decode 0x00000143 = .error .reservedBits ∧
      decode 0x00010012 = .error .reservedBits ∧ decode 0x01835711 = .error .reservedBits ∧
      decode 0x00000150 = .error .reservedBits := by decide

end WellFormed

section Decoding

/-! Words written out in 95_test_vectors.md sections 3 to 8 and 30_encoding.md. -/

theorem test_decode_gf :
    decode 0x00000010 = .ok .gfinit ∧ decode 0x00835711 = .ok (.gfmul 0x57 0x83) ∧
      decode 0x00005312 = .ok (.gfinv 0x53) ∧ decode 0x0000F613 = .ok (.logrd 0xf6) ∧
      decode 0x00001914 = .ok (.ilogrd 0x19) := by decide
theorem test_decode_sbox :
    decode 0x00000020 = .ok .sbinit ∧ decode 0x00005321 = .ok (.sbox 0x53) ∧ decode 0x0000ED22 = .ok (.isbox 0xed) := by
  decide
theorem test_decode_keySchedule :
    decode 0x00000030 = .ok .keyinit ∧ decode 0x00002B31 = .ok (.ksrd 43) ∧ decode 0x00000032 = .ok .ctxrel := by decide
theorem test_decode_blockTransform :
    decode 0x00000140 = .ok (.ldst 1) ∧ decode 0x0000FF41 = .ok (.stst 255) ∧ decode 0x0000C842 = .ok (.ark 200) ∧
      decode 0x00000043 = .ok .subb ∧ decode 0x00000044 = .ok .shr ∧ decode 0x00000045 = .ok .mixc ∧
      decode 0x00000046 = .ok .isubb ∧ decode 0x00000047 = .ok .ishr ∧ decode 0x00000048 = .ok .imixc ∧
      decode 0x0000004E = .ok (.encblk 0) ∧ decode 0x0000004F = .ok (.decblk 0) := by decide
theorem test_decode_buffer :
    decode 0x00000050 = .ok .initvec ∧ decode 0x00000051 = .ok .enc ∧ decode 0x00000052 = .ok .dec := by decide
theorem test_encode : encode (.gfmul 0x57 0x83) = 0x00835711 ∧ encode (.ark 10) = 0x00000A42 ∧ encode .dec = 0x00000052 := by
  decide
theorem test_decodeTableWord :
    decodeTableWord 8 0x43 = some .subb ∧ decodeTableWord 32 0x00835711 = some (.gfmul 0x57 0x83) ∧
      decodeTableWord 32 0x00000143 = none := by decide

end Decoding

section States

/-! Small states with the tables and the schedule that 95_test_vectors.md prints. -/

def stateAfter : Outcome → Option State
  | .next t => some t
  | .fault _ => none
  | .refused _ => none

def resultAfter (o : Outcome) : Option Word := (stateAfter o).map State.result

/-- ERR and STATUS, the two columns of section 7. -/
def reportAfter (o : Outcome) : Option (Word × Word) := (stateAfter o).map (fun t => (t.err, statusWord t))

def matrixAfter (o : Outcome) : Option Matrix := (stateAfter o).map State.state

def logTable : Table := ⟨⟨specLogEntries.map (BitVec.ofNat 8)⟩, by decide +kernel⟩
def ilogTable : Table := ⟨⟨specIlogEntries.map (BitVec.ofNat 8)⟩, by decide +kernel⟩
def sboxTable : Table := ⟨⟨specSboxEntries.map (BitVec.ofNat 8)⟩, by decide +kernel⟩
def isboxTable : Table := ⟨⟨specIsboxEntries.map (BitVec.ofNat 8)⟩, by decide +kernel⟩

/-- Reset, then GFINIT. -/
def gfState : State := { State.reset with log := logTable, ilog := ilogTable, gfValid := true }

/-- Reset, GFINIT, then SBINIT. -/
def sbState : State := { gfState with sbox := sboxTable, isbox := isboxTable, sbValid := true }

/-- The schedule of section 4.2, key 00 01 .. 0f. -/
def schedule42 : List Nat :=
  [0x03020100, 0x07060504, 0x0b0a0908, 0x0f0e0d0c, 0xfd74aad6, 0xfa72afd2, 0xf178a6da, 0xfe76abd6, 0x0bcf92b6, 0xf1bd3d64, 0x00c59bbe] ++
  [0xfeb33068, 0x4e74ffb6, 0xbfc9c2d2, 0xbf0c596c, 0x41bf6904, 0xbcf7f747, 0x033e3595, 0xbc326cf9, 0xfd8d05fd, 0xe8a3aa3c, 0xeb9d9fa9] ++
  [0x57aff350, 0xaa22f6ad, 0x7d0f395e, 0x9692a6f7, 0xc13d55a7, 0x6b1fa30a, 0x1a70f914, 0x8ce25fe3, 0x4ddf0a44, 0x26c0a94e, 0x35874347] ++
  [0xb9651ca4, 0xf4ba16e0, 0xd27abfae, 0xd1329954, 0x685785f0, 0x9ced9310, 0x4e972cbe, 0x7f1d1113, 0x174a94e3, 0x8ba707f3, 0xc5302b4d]

/-- The context of section 4.2. -/
def ctxState : State :=
  { sbState with
    ctxValid := true
    nk := 4
    r := 10
    ks := ⟨⟨schedule42.map (BitVec.ofNat 32) ++ List.replicate 16 0⟩, by decide +kernel⟩ }

/-- A block of 16 bytes, written in block order. -/
def blockOf (n : Nat) (i : Nat) : Byte := BitVec.ofNat 8 (n / 256 ^ (15 - i))

/-- The state a block is loaded to. -/
def matrixOfBlock (n : Nat) : Matrix := matrixOf (fun x y => blockOf n (x.val + 4 * y.val))

/-- A byte window that holds a block at `base` and zeros elsewhere. -/
def windowOfBlock (base n : Nat) : Memory :=
  (List.range 16).filterMap (fun i => if blockOf n i = 0 then none else some (base + i, blockOf n i))

/-- The context of section 4.2 with a block in STATE. -/
def withBlock (n : Nat) : State := { ctxState with state := matrixOfBlock n }

/-- KEY = 00 01 .. 0f, KEYLEN = 16. -/
def keyState : State := { State.reset with key := windowOfBlock 0 0x000102030405060708090a0b0c0d0e0f, keylen := 16 }

end States

section Commands

/-! Sections 3, 3.1, 4.2, 5, 6 and 7. One kernel check at a time, for the memory's sake. -/

set_option Elab.async false

theorem test_gfinit_tables :
    (stateAfter (exec .gfinit State.reset)).map
        (fun t => (tableRead t.log 0x53, tableRead t.ilog 0xfe, tableRead t.ilog 0xff, statusWord t)) =
      some (0x30, 0xf6, 0x00, 0x00000005) := by decide +kernel
theorem test_gfmul_wraps_at_255 : resultAfter (exec (.gfmul 0x03 0xf6) gfState) = some 0x01 := by decide +kernel
theorem test_gfmul_zero_reads_no_table : resultAfter (exec (.gfmul 0x00 0x57) gfState) = some 0x00 := by decide +kernel
theorem test_gfinv : resultAfter (exec (.gfinv 0x53) gfState) = some 0xca := by decide +kernel
theorem test_gfinv_one_is_the_unwritten_entry : resultAfter (exec (.gfinv 0x01) gfState) = some 0x00 := by decide +kernel
theorem test_logrd : resultAfter (exec (.logrd 0xf6) gfState) = some 0xfe := by decide +kernel
theorem test_logrd_before_gfinit : reportAfter (exec (.logrd 0x02) State.reset) = some (7, 0x00000002) := by decide +kernel
theorem test_ilogrd : resultAfter (exec (.ilogrd 0x33) gfState) = some 0x0c := by decide +kernel
theorem test_sbinit :
    (stateAfter (exec .sbinit gfState)).map
        (fun t => (tableRead t.sbox 0x53, tableRead t.isbox 0x7c, tableRead t.isbox 0x63, statusWord t)) =
      some (0xed, 0x01, 0x00, 0x0000000d) := by decide +kernel
theorem test_sbinit_before_gfinit : reportAfter (exec .sbinit State.reset) = some (7, 0x00000002) := by decide +kernel
theorem test_sbox : resultAfter (exec (.sbox 0x53) sbState) = some 0xed := by decide +kernel
theorem test_sbox_before_sbinit : reportAfter (exec (.sbox 0x00) gfState) = some (7, 0x00000006) := by decide +kernel
theorem test_isbox : resultAfter (exec (.isbox 0xed) sbState) = some 0x53 := by decide +kernel
theorem test_keyinit :
    (stateAfter (exec .keyinit keyState)).map (fun t => (ksRead t.ks 4, ksRead t.ks 43, ctxinfoWord t, statusWord t)) =
      some (0xfd74aad6, 0xc5302b4d, 0x00002CA4, 0x0000001d) := by decide +kernel
theorem test_keyinit_length_17 :
    reportAfter (exec .keyinit { ctxState with keylen := 17 }) = some (1, 0x0000001e) := by decide +kernel
theorem test_ksrd_43 : resultAfter (exec (.ksrd 43) ctxState) = some 0xc5302b4d := by decide +kernel
theorem test_ksrd_44 : reportAfter (exec (.ksrd 44) ctxState) = some (9, 0x0000001e) := by decide +kernel
theorem test_ctxrel :
    (stateAfter (exec .ctxrel ctxState)).map (fun t => (ksRead t.ks 43, ctxinfoWord t, statusWord t)) =
      some (0, 0x00000000, 0x0000000d) := by decide +kernel
theorem test_ldst_1 :
    matrixAfter (exec (.ldst 1) { ctxState with ibuf := windowOfBlock 16 0x00112233445566778899aabbccddeeff }) =
      some (matrixOfBlock 0x00112233445566778899aabbccddeeff) := by decide +kernel
theorem test_stst_255 :
    (stateAfter (exec (.stst 255) (withBlock 0x00112233445566778899aabbccddeeff))).map State.obuf =
      some (windowOfBlock 4080 0x00112233445566778899aabbccddeeff) := by decide +kernel
theorem test_ark_10 :
    matrixAfter (exec (.ark 10) (withBlock 0)) = some (matrixOfBlock 0x13111d7fe3944a17f307a78b4d2b30c5) := by
  decide +kernel
theorem test_ark_11 : reportAfter (exec (.ark 11) ctxState) = some (9, 0x0000001e) := by decide +kernel
theorem test_subb :
    matrixAfter (exec .subb (withBlock 0x000102030405060708090a0b0c0d0e0f)) =
      some (matrixOfBlock 0x637c777bf26b6fc53001672bfed7ab76) := by decide +kernel
theorem test_shr :
    matrixAfter (exec .shr (withBlock 0x000102030405060708090a0b0c0d0e0f)) =
      some (matrixOfBlock 0x00050a0f04090e03080d02070c01060b) := by decide +kernel
theorem test_mixc :
    matrixAfter (exec .mixc (withBlock 0xdb135345f20a225c01010101c6c6c6c6)) =
      some (matrixOfBlock 0x8e4da1bc9fdc589d01010101c6c6c6c6) := by decide +kernel
theorem test_isubb :
    matrixAfter (exec .isubb (withBlock 0x637c777bf26b6fc53001672bfed7ab76)) =
      some (matrixOfBlock 0x000102030405060708090a0b0c0d0e0f) := by decide +kernel
theorem test_ishr :
    matrixAfter (exec .ishr (withBlock 0x000102030405060708090a0b0c0d0e0f)) =
      some (matrixOfBlock 0x000d0a0704010e0b0805020f0c090603) := by decide +kernel
theorem test_imixc :
    matrixAfter (exec .imixc (withBlock 0x01000000000100000000010000000001)) =
      some (matrixOfBlock 0x0e090d0b0b0e090d0d0b0e09090d0b0e) := by decide +kernel
theorem test_encblk :
    (stateAfter (exec (.encblk 0) { ctxState with ibuf := windowOfBlock 0 0x00112233445566778899aabbccddeeff })).map
        State.obuf =
      some (windowOfBlock 0 0x69c4e0d86a7b0430d8cdb78070b4c55a) := by decide +kernel
theorem test_encblk_without_context : reportAfter (exec (.encblk 0) gfState) = some (6, 0x00000006) := by decide +kernel
theorem test_decblk :
    (stateAfter (exec (.decblk 0) { ctxState with ibuf := windowOfBlock 0 0x69c4e0d86a7b0430d8cdb78070b4c55a })).map
        State.obuf =
      some (windowOfBlock 0 0x00112233445566778899aabbccddeeff) := by decide +kernel
theorem test_decblk_without_context : reportAfter (exec (.decblk 0) sbState) = some (6, 0x0000000e) := by
  decide +kernel
theorem test_initvec_keeps_the_context :
    (stateAfter (exec .initvec ctxState)).map (fun t => (ctxinfoWord t, statusWord t)) = some (0x00002CA4, 0x0000001d) := by
  decide +kernel
theorem test_enc_one_block :
    (stateAfter (exec .enc { ctxState with
        ibuf := windowOfBlock 0 0x00112233445566778899aabbccddeeff, inlen := 16, outlen := 16 })).map State.obuf =
      some (windowOfBlock 0 0x69c4e0d86a7b0430d8cdb78070b4c55a) := by decide +kernel
theorem test_enc_check_order :
    reportAfter (exec .enc { State.reset with inlen := 5, outlen := 7 }) = some (6, 0x00000002) ∧
      reportAfter (exec .enc { ctxState with inlen := 17, outlen := 16 }) = some (3, 0x0000001e) ∧
      reportAfter (exec .enc { ctxState with inlen := 8191, outlen := 8191 }) = some (4, 0x0000001e) ∧
      reportAfter (exec .enc { ctxState with inlen := 8192, outlen := 8192 }) = some (10, 0x0000001e) := by decide +kernel
theorem test_dec_check_order :
    reportAfter (exec .dec { ctxState with inlen := 15, outlen := 15 }) = some (4, 0x0000001e) ∧
      reportAfter (exec .dec { ctxState with inlen := 4112, outlen := 4112 }) = some (10, 0x0000001e) := by decide +kernel
theorem test_dec_zero_length :
    (stateAfter (exec .dec (withBlock 0x01000000000100000000010000000001))).map (fun t => (t.obuf, t.state, statusWord t)) =
      some ([], matrixOfBlock 0x01000000000100000000010000000001, 0x0000001d) := by decide +kernel

end Commands

section Host

/-! 20_memory.md R41 to R44, 95_test_vectors.md section 7. -/

theorem test_step_runs_the_fetched_word :
    resultAfter (step (gfState.withFetchWord 32 0x00835711)) = some 0xc1 := by decide +kernel
theorem test_illegal_word_reports_code_8 :
    reportAfter (step (ctxState.withAccess (.writeReg 0x0000 0x00000143))) = some (8, 0x0000001e) := by decide +kernel
theorem test_bufsz_reads_4096 :
    (stateAfter (step (State.reset.withAccess (.readReg 0x0020)))).map State.replies = some [.word 0x00001000] := by
  decide +kernel
theorem test_last_byte_of_obuf_is_readable :
    (stateAfter (step ((({ State.reset with obuf := [(4095, 0xab)] } : State)).withAccess (.readByte 0x2FFF)))).map
      State.replies = some [.byte 0xab] := by decide +kernel
theorem test_word_access_to_key_is_refused :
    stateAfter (step (State.reset.withAccess (.readReg 0x0040))) = none := by decide +kernel
theorem test_write_order_of_a_window :
    memWrite (memWrite [] 31 0x02) 0 0x01 = [(0, 0x01), (31, 0x02)] ∧ memWrite [(0, 0x01), (31, 0x02)] 31 0x00 = [(0, 0x01)] := by
  decide

end Host

section Witnesses

/-! A concrete state, with operands, for every statement that has hypotheses; the names are those of the statements. -/

theorem tableRead_ofEntries {l : List Nat} (h : l.length = 256) (h' : (l.map (BitVec.ofNat 8)).toArray.size = 256) (v : Byte) :
    tableRead ⟨(l.map (BitVec.ofNat 8)).toArray, h'⟩ v = BitVec.ofNat 8 (l.getD v.toNat 0) := by
  have := v.isLt
  simp [tableRead, List.getD_eq_getElem?_getD, List.getElem?_eq_getElem (show v.toNat < l.length by omega)]

theorem sbState_gf : GfTablesBuilt sbState :=
  ⟨fun v _ => tableRead_ofEntries specEntries_length.2.1 (by decide +kernel) v,
    fun v _ => tableRead_ofEntries specEntries_length.1 (by decide +kernel) v⟩

theorem sbState_sbox : SboxTablesBuilt sbState := fun v =>
  ⟨tableRead_ofEntries specEntries_length.2.2.1 (by decide +kernel) v,
    tableRead_ofEntries specEntries_length.2.2.2 (by decide +kernel) v⟩

/-- No context, all tables built. -/
theorem sbState_inv : Inv sbState where
  sb_gf _ := rfl
  ctx_sb h := nomatch h
  released _ := ⟨rfl, rfl, rfl, rfl⟩
  shape h := nomatch h
  expanded h := nomatch h
  unwritten := ⟨by decide +kernel, by decide +kernel⟩
  gf _ := sbState_gf
  sb _ := sbState_sbox
  outcome := ⟨by decide, by decide⟩
  key := ⟨by decide, by decide⟩
  ibuf := ⟨by decide, by decide⟩
  obuf := ⟨by decide, by decide⟩

/-- The context KEYINIT installs for an all-zero key of `len` bytes, with legal buffer lengths. -/
def active (len : Word) : State := installContext { sbState with keylen := len, inlen := 16, outlen := 16 }

theorem lengths_inv {s : State} (h : Inv s) (k a b : Word) : Inv { s with keylen := k, inlen := a, outlen := b } :=
  ⟨h.sb_gf, h.ctx_sb, h.released, h.shape, h.expanded, h.unwritten, h.gf, h.sb, h.outcome, h.key, h.ibuf, h.obuf⟩

theorem active_inv (len : Word) (h : validKeyLength len.toNat = true) : Inv (active len) := by
  have i := installContext_inv (lengths_inv sbState_inv len 16 16) h
  exact i

theorem active_fields (len : Word) : (active len).ctxValid = true ∧ (active len).nk = BitVec.ofNat 4 (len.toNat / 4) ∧
    (active len).r = BitVec.ofNat 4 (len.toNat / 4 + 6) ∧ (active len).inlen = 16 ∧ (active len).outlen = 16 := by
  have frame := installContext_frame { sbState with keylen := len, inlen := 16, outlen := 16 }
  unfold active
  rw [frame]
  exact ⟨rfl, rfl, rfl, rfl, rfl⟩

theorem ctxState_tables : TablesBuilt ctxState := ⟨sbState_gf, sbState_sbox⟩

/-- `s` with buffer lengths. -/
def withLengths (s : State) (a b : Word) : State := { s with inlen := a, outlen := b }

theorem witness_EncodeOfDecode : decode 0x00835711 = .ok (.gfmul 0x57 0x83) := by decide

theorem witness_WordMatchesItsRowExactly :
    (⟨"GFINIT", 0x10, .N⟩ ∈ opcodeTable ∧ decode 0x00000010 = .ok .gfinit ∧ Instr.gfinit.mnemonic = "GFINIT") ∧
      (⟨"GFINV", 0x12, .A⟩ ∈ opcodeTable ∧ decode 0x0000FF12 = .ok (.gfinv 0xff) ∧
        (Instr.gfinv 0xff).mnemonic = "GFINV") ∧
      ⟨"GFMUL", 0x11, .AB⟩ ∈ opcodeTable ∧ decode 0x00FFFF11 = .ok (.gfmul 0xff 0xff) ∧
        (Instr.gfmul 0xff 0xff).mnemonic = "GFMUL" := by decide

theorem witness_IllegalWordOnlyReportsIllegalCommand :
    (∀ row ∈ opcodeTable, row.accepts 0x00000049 = false) ∧ ∀ row ∈ opcodeTable, row.accepts 0x00000143 = false := by
  decide

theorem witness_StepRunsDecodedCommand :
    decode 0x00000043 = .ok .subb ∧ decode 0x00000143 = .error .reservedBits ∧
      decode 0x00000049 = .error .unassignedOpcode := by decide

theorem witness_IdleStepKeepsTheState : State.reset.pending = [] := rfl

theorem witness_CtxinfoShowsTheContext :
    (Inv sbState ∧ sbState.ctxValid = false) ∧
      (Inv (active 16) ∧ (active 16).ctxValid = true ∧ (active 16).nk = 4 ∧ (active 16).r = 10) ∧
      (Inv (active 24) ∧ (active 24).ctxValid = true ∧ (active 24).nk = 6 ∧ (active 24).r = 12) ∧
      Inv (active 32) ∧ (active 32).ctxValid = true ∧ (active 32).nk = 8 ∧ (active 32).r = 14 :=
  ⟨⟨sbState_inv, rfl⟩,
    ⟨active_inv 16 (by decide), (active_fields 16).1, (active_fields 16).2.1, (active_fields 16).2.2.1⟩,
    ⟨active_inv 24 (by decide), (active_fields 24).1, (active_fields 24).2.1, (active_fields 24).2.2.1⟩,
    active_inv 32 (by decide), (active_fields 32).1, (active_fields 32).2.1, (active_fields 32).2.2.1⟩

theorem witness_ReadsFollowTheAddressMap :
    (0 < 32 ∧ 31 < 32) ∧ (0 < 4096 ∧ 4095 < 4096) ∧
      ∀ offset ∈ [0x0024, 0x003C, 0x0060, 0x0FFC],
        ((0x0024 ≤ offset ∧ offset < 0x0040) ∨ (0x0060 ≤ offset ∧ offset < 0x1000)) ∧ offset % 4 = 0 := by decide

theorem witness_OnlyCmdHasASideEffect :
    step (State.reset.withAccess (.readReg 0x002C)) = .next { State.reset with replies := [.word 0] } ∧
      step (State.reset.withAccess (.readByte 0x1FFF)) = .next { State.reset with replies := [.byte 0] } ∧
      (31 < 32 ∧ 4095 < 4096) ∧ State.reset.key.wf = true ∧ State.reset.ibuf.wf = true ∧
      (0x0004 ∉ [0x0000, 0x0010, 0x0014, 0x0018] ∧
        step (State.reset.withAccess (.writeReg 0x0004 7)) = .next State.reset) ∧
      ¬(0x0040 ≤ 0x2FFF ∧ 0x2FFF < 0x0060) ∧ ¬(0x1000 ≤ 0x2FFF ∧ 0x2FFF < 0x2000) ∧
      step (State.reset.withAccess (.writeByte 0x2FFF 7)) = .next State.reset :=
  ⟨rfl, rfl, by decide, rfl, rfl, ⟨by decide, rfl⟩, by decide, by decide, rfl⟩

/-- The first and last offsets of each clause; `otherWidth` is refused on both sides of the window's end. -/
theorem witness_InterfaceAccessesComplete :
    ([.writeReg 0x0000 0x10, .readReg 0x0020, .readReg 0x0FFC, .writeByte 0x0040 1, .readByte 0x0024, .readByte 0x2FFF] :
        List HostAccess).all HostAccess.inInterface = true ∧
      ([.readReg 0x3000, .writeReg 0x3000 1, .readByte 0x3000, .writeByte 0x3000 1, .readReg 0x3001] : List HostAccess).all
        (fun a => 0x3000 ≤ a.offset && a != .otherWidth a.offset) = true ∧
      ([.writeReg 0x0002 1, .readReg 0x0040, .readReg 0x2FFC, .readByte 0x0023, .otherWidth 0x0000, .otherWidth 0x3000] :
        List HostAccess).all
        (fun a => !a.inInterface && (decide (a.offset < 0x3000) || a == .otherWidth a.offset)) = true := by decide

theorem witness_GfmulUsesTheLogTables :
    State.reset.gfValid = false ∧ gfState.gfValid = true ∧ (0x57 : Byte) ≠ 0 ∧ (0x83 : Byte) ≠ 0 := by decide

theorem witness_GfmulIsTheFieldProduct : sbState.gfValid = true ∧ GfTablesBuilt sbState := ⟨rfl, sbState_gf⟩

theorem witness_FieldLaws : GfTablesBuilt sbState ∧ tableRead sbState.ilog 0xFF = 0x00 := ⟨sbState_gf, sbState_inv.unwritten.2⟩

theorem witness_GfinvInvertsItsOperand :
    State.reset.gfValid = false ∧ sbState.gfValid = true ∧ GfTablesBuilt sbState ∧ (0x02 : Byte) ≠ 0 ∧ (0x02 : Byte) ≠ 1 :=
  ⟨rfl, rfl, sbState_gf, by decide, by decide⟩

theorem witness_LogrdAndIlogrdReadOneEntry : State.reset.gfValid = false ∧ sbState.gfValid = true ∧ Inv sbState :=
  ⟨rfl, rfl, sbState_inv⟩

/-- GF_VALID with all-zero tables: every byte's `inv` is 0. -/
def zeroGfState : State :=
  { State.reset with log := Vector.replicate 256 0, ilog := Vector.replicate 256 0, gfValid := true }

/-- The two clauses on ISBOX: 0x16 is the image of index 255, and with all-zero GF tables nothing gives 0x00. -/
theorem witness_SbinitRunsTheLoopAndThePatch :
    State.reset.gfValid = false ∧ sbState.gfValid = true ∧
      (affine (gfInv sbState.log sbState.ilog 0xff) = 0x16 ∧
        ∀ j : Byte, (0xff : Byte).toNat < j.toNat → affine (gfInv sbState.log sbState.ilog j) ≠ 0x16) ∧
      zeroGfState.gfValid = true ∧ ∀ i, affine (gfInv zeroGfState.log zeroGfState.ilog i) ≠ 0x00 := by
  refine ⟨rfl, rfl, ⟨by decide +kernel, fun j hj => ?_⟩, rfl, fun i => ?_⟩
  · have := j.isLt
    exact absurd hj (by simp only [BitVec.reduceToNat]; omega)
  · have h : gfInv zeroGfState.log zeroGfState.ilog i = 0 := by
      simp only [gfInv, zeroGfState, tableRead_replicate]
      split <;> rfl
    rw [h]
    decide

theorem witness_FinishedSboxTables : sbState.gfValid = true ∧ GfTablesBuilt sbState ∧ mulSlow 0x53 0xca = 0x01 :=
  ⟨rfl, sbState_gf, by decide⟩

theorem witness_SboxAndIsboxReadOneEntry : gfState.sbValid = false ∧ sbState.sbValid = true ∧ SboxTablesBuilt sbState :=
  ⟨rfl, rfl, sbState_sbox⟩

theorem witness_RoundConstantsDouble : GfTablesBuilt sbState ∧ 9 < 10 ∧ 40 % 4 = 0 ∧ 41 % 4 ≠ 0 := ⟨sbState_gf, by decide⟩

theorem witness_KeyinitExpandsTheKey :
    ([16, 24, 32] : List Word).all (fun len => ({ State.reset with keylen := len } : State).keylen.toNat ∈ [16, 24, 32]) = true ∧
      ([0, 15, 17, 20, 31, 33, 64, 0x110] : List Word).all (fun len => len.toNat ∉ [16, 24, 32]) = true ∧
      (active 32).nk.toNat = 8 ∧ 4 * ((active 32).r.toNat + 1) = 60 := by
  refine ⟨by decide, by decide, ?_, ?_⟩
  · rw [(active_fields 32).2.1]; rfl
  · rw [(active_fields 32).2.2.1]; rfl

/-- Two keys that differ only at byte 16, which a 16-byte key does not use. -/
theorem witness_ContextDependsOnTheKeyBytesAlone :
    ({ State.reset with keylen := 16, key := [(3, 0x07)] } : State).keylen.toNat ∈ [16, 24, 32] ∧
      ∀ k < 16, memRead [(3, 0x07), (16, 0x09)] k = memRead [(3, 0x07)] k := by decide

theorem witness_KsrdReadsOneWord :
    State.reset.ctxValid = false ∧ ctxState.ctxValid = true ∧ 4 * (ctxState.r.toNat + 1) ≤ (44 : Byte).toNat ∧
      (43 : Byte).toNat < 4 * (ctxState.r.toNat + 1) := by decide

theorem witness_CtxrelClearsTheContext : Instr.enc.needsContext = true := rfl

theorem witness_LdstLoadsABlock : State.reset.ctxValid = false ∧ ctxState.ctxValid = true := ⟨rfl, rfl⟩

theorem witness_StstStoresABlock :
    State.reset.ctxValid = false ∧ ctxState.ctxValid = true ∧ ctxState.obuf.wf = true ∧
      (4079 < 16 * (255 : Byte).toNat ∧ 16 * (254 : Byte).toNat + 16 ≤ 4080) := by decide

theorem witness_ArkXorsTheRoundKey :
    State.reset.ctxValid = false ∧ ctxState.ctxValid = true ∧ ctxState.r.toNat < (11 : Byte).toNat ∧
      (10 : Byte).toNat ≤ ctxState.r.toNat := by decide

theorem witness_SubbAndIsubbSubstitute : State.reset.ctxValid = false ∧ ctxState.ctxValid = true := ⟨rfl, rfl⟩

theorem witness_ShrAndIshrRotateRows : State.reset.ctxValid = false ∧ ctxState.ctxValid = true := ⟨rfl, rfl⟩

theorem witness_MixcAndImixcMultiplyColumns :
    State.reset.ctxValid = false ∧ ctxState.ctxValid = true ∧ GfTablesBuilt ctxState := ⟨rfl, rfl, ctxState_tables.1⟩

theorem witness_InverseStepsUndo :
    ctxState.ctxValid = true ∧ TablesBuilt ctxState ∧ (10 : Byte).toNat ≤ ctxState.r.toNat :=
  ⟨rfl, ctxState_tables, by decide⟩

theorem witness_BlockCommandsRunTheSequencer : ctxState.ctxValid = true ∧ 1 ≤ ctxState.r.toNat ∧ 9 < ctxState.r.toNat := by
  decide

theorem witness_BlockCommandsEqualTheirExpansions : ctxState.ctxValid = true := rfl

/-- Two states that differ in STATE, in OBUF and in an input block the command does not read. -/
theorem witness_BlockCommandsArePure :
    State.reset.ctxValid = false ∧ ctxState.ctxValid = true ∧ ctxState.obuf.wf = true ∧
      ∀ k < 16, memRead [(16, 0x01)] (16 * (0 : Byte).toNat + k) = memRead ctxState.ibuf (16 * (0 : Byte).toNat + k) := by
  decide

theorem witness_BlockRoundTrip :
    Inv (active 16) ∧ (active 16).ctxValid = true ∧ Inv (active 24) ∧ (active 24).ctxValid = true ∧ Inv (active 32) ∧
      (active 32).ctxValid = true :=
  ⟨active_inv 16 (by decide), (active_fields 16).1, active_inv 24 (by decide), (active_fields 24).1,
    active_inv 32 (by decide), (active_fields 32).1⟩

theorem witness_ContextCommandsNeedAContext : (Instr.ark 200).needsContext = true ∧ State.reset.ctxValid = false := ⟨rfl, rfl⟩

theorem witness_InitvecRebuildsTheTables : Inv (active 16) ∧ (active 16).ctxValid = true :=
  ⟨active_inv 16 (by decide), (active_fields 16).1⟩

/-- One state for each of the five outcomes, at the boundary lengths. -/
theorem witness_BufferChecksInOrder :
    ctxState.ctxValid = true ∧ State.reset.ctxValid = false ∧ (17 : Word) ≠ 16 ∧ (15 : Word).toNat % 16 ≠ 0 ∧
      ((4112 : Word).toNat % 16 = 0 ∧ 4096 < (4112 : Word).toNat) ∧
      ((4096 : Word).toNat % 16 = 0 ∧ (4096 : Word).toNat ≤ 4096) := by decide

theorem witness_EncProcessesEachBlock :
    (withLengths ctxState 4096 4096).ctxValid = true ∧
      (withLengths ctxState 4096 4096).inlen = (withLengths ctxState 4096 4096).outlen ∧
      (withLengths ctxState 4096 4096).inlen.toNat % 16 = 0 ∧ (withLengths ctxState 4096 4096).inlen.toNat ≤ 4096 ∧
      (255 : Byte).toNat + 1 = (withLengths ctxState 4096 4096).inlen.toNat / 16 ∧
      (withLengths ctxState 4096 4096).obuf.wf = true := by decide

theorem witness_DecProcessesEachBlock :
    (withLengths ctxState 16 16).ctxValid = true ∧
      (withLengths ctxState 16 16).inlen = (withLengths ctxState 16 16).outlen ∧
      (withLengths ctxState 16 16).inlen.toNat % 16 = 0 ∧ (withLengths ctxState 16 16).inlen.toNat ≤ 4096 ∧
      (0 : Byte).toNat + 1 = (withLengths ctxState 16 16).inlen.toNat / 16 ∧
      (withLengths ctxState 16 16).obuf.wf = true := by decide

theorem witness_ZeroLengthSucceeds : ctxState.ctxValid = true ∧ ctxState.inlen = 0 ∧ ctxState.outlen = 0 := ⟨rfl, rfl, rfl⟩

theorem witness_BufferRoundTrip :
    Inv (active 32) ∧ (active 32).ctxValid = true ∧ (active 32).inlen = (active 32).outlen ∧
      (active 32).inlen.toNat % 16 = 0 ∧ (active 32).inlen.toNat ≤ 4096 ∧ 15 < (active 32).inlen.toNat := by
  obtain ⟨h, -, -, hi, ho⟩ := active_fields 32
  exact ⟨active_inv 32 (by decide), h, hi.trans ho.symm, by rw [hi]; decide, by rw [hi]; decide, by rw [hi]; decide⟩

theorem witness_FailureChangesOnlyTheOutcome :
    (∃ t, exec (.gfmul 1 1) State.reset = .next t ∧ t.fail = true) ∧ ∃ t, exec .subb ctxState = .next t ∧ t.fail = false :=
  ⟨⟨_, rfl, rfl⟩, ⟨_, rfl, rfl⟩⟩

theorem witness_RaisedKinds :
    (∃ t, exec (.ark 11) ctxState = .next t ∧ t.fail = true) ∧
      (∃ t, exec .ctxrel ctxState = .next t ∧ Instr.ctxrel ∈ [.gfinit, .ctxrel, .initvec]) ∧ sbState.gfValid = true ∧
      ({ State.reset with keylen := 24 } : State).keylen.toNat ∈ [16, 24, 32] ∧ (∀ i, decode 0x00000049 ≠ .ok i) ∧
      ∃ t, step (ctxState.withAccess (.writeReg 0x0000 0x00000049)) = .next t :=
  ⟨⟨_, rfl, rfl⟩, ⟨_, rfl, by decide⟩, rfl, by decide, fun i h => by simp [decode, opField] at h, ⟨_, rfl⟩⟩

theorem witness_StateIsWrittenOnlyByItsWriters :
    (∃ t, exec .subb ctxState = .next t) ∧ Instr.subb.mnemonic ∉ ["GFINIT", "KEYINIT", "INITVEC"] ∧
      Instr.subb.mnemonic ∉ ["SBINIT", "KEYINIT", "INITVEC"] ∧ Instr.subb.mnemonic ∉ ["KEYINIT", "CTXREL"] ∧
      Instr.gfinit.mnemonic ∉ ["LDST", "ARK", "SUBB", "SHR", "MIXC", "ISUBB", "ISHR", "IMIXC", "ENCBLK", "DECBLK", "ENC",
        "DEC", "KEYINIT", "CTXREL"] ∧
      Instr.subb.mnemonic ∉ ["STST", "ENCBLK", "DECBLK", "ENC", "DEC"] ∧
      Instr.subb.mnemonic ∉ ["GFMUL", "GFINV", "LOGRD", "ILOGRD", "SBOX", "ISBOX", "KSRD"] :=
  ⟨⟨_, rfl⟩, by decide, by decide, by decide, by decide, by decide, by decide⟩

theorem witness_ValidityFlagsStateMachine :
    validity State.reset ∈ [(false, false, false), (true, false, false), (true, true, false), (true, true, true)] ∧
      (∃ t, exec .sbinit State.reset = .next t ∧ t.fail = true) ∧
      validity ctxState ∈ [(false, false, false), (true, false, false), (true, true, false), (true, true, true)] ∧
      ∃ t, exec .ctxrel ctxState = .next t ∧ t.ok = true :=
  ⟨by decide, ⟨_, rfl, rfl⟩, by decide, ⟨_, rfl, rfl⟩⟩

theorem witness_AfterResetOnlyFourCommandsSucceed :
    validity State.reset = (false, false, false) ∧ Instr.sbinit.mnemonic ∉ ["GFINIT", "KEYINIT", "CTXREL", "INITVEC"] ∧
      Instr.ctxrel.mnemonic ∈ ["GFINIT", "CTXREL", "INITVEC"] ∧
      ({ State.reset with keylen := 16 } : State).keylen.toNat ∈ [16, 24, 32] ∧
      decode 0x00000000 = .error .unassignedOpcode := by decide

theorem witness_StepKeepsTheInvariant : Inv sbState ∧ step sbState = .next sbState := ⟨sbState_inv, rfl⟩

theorem witness_SafeStatesNeverStop : Safe (sbState.withAccess (.writeReg 0x0000 0x00005321)) :=
  ⟨pending_inv sbState_inv _, rfl⟩

end Witnesses

end Sys2Proof.Tests
end

section
/-! PROOFS. The outcome fields: both records a command can end with leave exactly one of OK and FAIL set, and ERR zero
exactly on success (10_state.md R24, 60_exceptions.md R188). -/

namespace Sys2Proof.Machine

/-- Exactly one outcome bit is set, and the error code is zero exactly on success. -/
def State.HasOneOutcome (t : State) : Prop := t.ok = !t.fail ∧ (t.err = 0 ↔ t.ok = true)

theorem raise_hasOneOutcome (e : ErrorKind) (s : State) : (raise e s).HasOneOutcome :=
  ⟨rfl, iff_of_false e.code_ne_zero Bool.false_ne_true⟩

theorem succeed_hasOneOutcome (s : State) : (succeed s).HasOneOutcome := ⟨rfl, iff_of_true rfl rfl⟩

theorem exec_hasOneOutcome {i : Instr} {s t : State} (h : exec i s = .next t) : t.HasOneOutcome := by
  obtain ⟨e, -, rfl⟩ | ⟨-, rfl⟩ := exec_cases h
  · exact raise_hasOneOutcome e s
  · exact succeed_hasOneOutcome (effectOf i s)

/-- Settles O50: `exec` always answers a next state, which carries the failure record of the command's check or the
success record, and each of the two is one outcome. -/
theorem everyCommandCompletes : Obligations.EveryCommandCompletes := by
  intro i s
  obtain ⟨t, ht⟩ := exec_next i s
  exact ⟨t, ht, exec_hasOneOutcome ht⟩

end Sys2Proof.Machine
end

section
/-! PROOFS. The host's view of the registers (20_memory.md R41 to R44): an aligned access below 0x0024 reads or writes the
register of its offset, and what STATUS and CTXINFO then read (10_state.md R24, R26). -/

namespace Sys2Proof.Machine

section Registers

theorem perform_readReg {offset : Nat} (h : offset < 0x0024) (h4 : offset % 4 = 0) (s : State) :
    perform (.readReg offset) s = reply (.word (readRegister (registerAt offset) s)) s := by
  simp only [perform, hostReadReg, locate_register h, if_pos h4]

theorem perform_writeReg {offset : Nat} (h : offset < 0x0024) (h4 : offset % 4 = 0) (v : Word) (s : State) :
    perform (.writeReg offset v) s = writeRegister (registerAt offset) v s := by
  simp only [perform, hostWriteReg, locate_register h, if_pos h4]

theorem step_readReg {offset : Nat} (h : offset < 0x0024) (h4 : offset % 4 = 0) (s : State) :
    step (s.withAccess (.readReg offset)) =
      .next { s with replies := s.replies ++ [.word (readRegister (registerAt offset) s)] } := by
  rw [step_withAccess, perform_readReg h h4, reply]

theorem step_writeReg {offset : Nat} (h : offset < 0x0024) (h4 : offset % 4 = 0) (v : Word) (s : State) :
    step (s.withAccess (.writeReg offset v)) = writeRegister (registerAt offset) v s := by
  rw [step_withAccess, perform_writeReg h h4]

/-- Settles O7: the step performs the access, a CMD write issues its word, and issuing is `exec` of what the word decodes
to or the failure record of IllegalCommand. -/
theorem stepRunsDecodedCommand : Obligations.StepRunsDecodedCommand := by
  intro s w
  refine ⟨fun i hi => ⟨?_, ?_⟩, fun e he => ?_, step_readReg (by decide) (by decide) s⟩
  · rw [step_withAccess, perform_writeReg_cmd, issueCommand_ok s hi]
  · rw [step_withFetchWord, issueCommand_ok s hi]
  · rw [step_withAccess, perform_writeReg_cmd, issueCommand_error s he]
    rfl

theorem statusWord_toNat (s : State) : (statusWord s).toNat =
    s.ok.toNat + 2 * s.fail.toNat + 4 * s.gfValid.toNat + 8 * s.sbValid.toNat + 16 * s.ctxValid.toNat := by
  have flags : ∀ ok fail gf sb ctx : Bool,
      ((BitVec.ofBool ctx ++ BitVec.ofBool sb ++ BitVec.ofBool gf ++ BitVec.ofBool fail ++ BitVec.ofBool ok).setWidth
        32).toNat = ok.toNat + 2 * fail.toNat + 4 * gf.toNat + 8 * sb.toNat + 16 * ctx.toNat := by decide
  exact flags s.ok s.fail s.gfValid s.sbValid s.ctxValid

/-- Settles O9: offset 0x0004 is STATUS, whose word is the weighted sum of the flags and whose writes are ignored. -/
theorem statusReadsTheFlags : Obligations.StatusReadsTheFlags := fun s =>
  ⟨⟨statusWord s, step_readReg (by decide) (by decide) s, statusWord_toNat s⟩,
    fun v => step_writeReg (by decide) (by decide) v s⟩

end Registers

section Ctxinfo

/-- The third field of CTXINFO: the number of schedule words while a context is active (R26). -/
def ctxinfoLength (s : State) : Byte := if s.ctxValid then BitVec.ofNat 8 (scheduleLength s.r.toNat) else 0

theorem getLsbD_ctxinfoWord (s : State) {i : Nat} (h : i < 32) : (ctxinfoWord s).getLsbD i =
    if i < 4 then s.nk.getLsbD i else if i < 8 then s.r.getLsbD (i - 4) else (ctxinfoLength s).getLsbD (i - 8) := by
  have : i - 4 < 4 ↔ i < 8 := by omega
  rw [ctxinfoWord, BitVec.getLsbD_setWidth, BitVec.getLsbD_append, BitVec.getLsbD_append, ctxinfoLength, Nat.sub_sub]
  simp [h, this]

theorem ctxinfoWord_nk (s : State) : (ctxinfoWord s).extractLsb' 0 4 = s.nk := by
  ext i hi
  rw [BitVec.getElem_extractLsb', getLsbD_ctxinfoWord s (by omega), if_pos (by omega), Nat.zero_add,
    BitVec.getLsbD_eq_getElem hi]

theorem ctxinfoWord_r (s : State) : (ctxinfoWord s).extractLsb' 4 4 = s.r := by
  ext i hi
  rw [BitVec.getElem_extractLsb', getLsbD_ctxinfoWord s (by omega), if_neg (by omega), if_pos (by omega),
    Nat.add_sub_cancel_left, BitVec.getLsbD_eq_getElem hi]

theorem ctxinfoWord_length (s : State) : (ctxinfoWord s).extractLsb' 8 8 = ctxinfoLength s := by
  ext i hi
  rw [BitVec.getElem_extractLsb', getLsbD_ctxinfoWord s (by omega), if_neg (by omega), if_neg (by omega),
    Nat.add_sub_cancel_left, BitVec.getLsbD_eq_getElem hi]

theorem ctxinfoWord_zero_above (s : State) : (ctxinfoWord s).extractLsb' 16 16 = 0 := by
  ext i hi
  rw [BitVec.getElem_extractLsb', getLsbD_ctxinfoWord s (by omega), if_neg (by omega), if_neg (by omega),
    BitVec.getLsbD_of_ge _ _ (by omega)]
  exact (BitVec.getElem_zero ..).symm

/-- `4*(R+1)` fits its field for every R. -/
theorem ctxinfoLength_toNat (s : State) :
    (ctxinfoLength s).toNat = if s.ctxValid then 4 * (s.r.toNat + 1) else 0 := by
  have := s.r.isLt
  unfold ctxinfoLength scheduleLength
  split
  · rw [BitVec.toNat_ofNat, Nat.mod_eq_of_lt (by omega)]
  · rfl

/-- Under the invariant CTXINFO has one of four values, each with its context (R26). -/
theorem ctxinfoWord_of_inv {s : State} (h : Inv s) :
    (s.ctxValid = false ∧ ctxinfoWord s = 0x00000000) ∨
      (s.ctxValid = true ∧ s.nk = 4 ∧ s.r = 10 ∧ ctxinfoWord s = 0x00002CA4) ∨
      (s.ctxValid = true ∧ s.nk = 6 ∧ s.r = 12 ∧ ctxinfoWord s = 0x000034C6) ∨
      (s.ctxValid = true ∧ s.nk = 8 ∧ s.r = 14 ∧ ctxinfoWord s = 0x00003CE8) := by
  cases hc : s.ctxValid with
  | false =>
    obtain ⟨hnk, hr, -, -⟩ := h.released hc
    exact .inl ⟨rfl, by rw [ctxinfoWord, hc, hnk, hr]; decide⟩
  | true =>
    rcases h.shape hc with ⟨hnk, hr⟩ | ⟨hnk, hr⟩ | ⟨hnk, hr⟩
    · exact .inr (.inl ⟨rfl, hnk, hr, by rw [ctxinfoWord, hc, hnk, hr]; decide⟩)
    · exact .inr (.inr (.inl ⟨rfl, hnk, hr, by rw [ctxinfoWord, hc, hnk, hr]; decide⟩))
    · exact .inr (.inr (.inr ⟨rfl, hnk, hr, by rw [ctxinfoWord, hc, hnk, hr]; decide⟩))

/-- Settles O10: offset 0x001C is CTXINFO, whose word has the three fields, and whose writes are ignored. -/
theorem ctxinfoShowsTheContext : Obligations.CtxinfoShowsTheContext := fun s =>
  ⟨⟨ctxinfoWord s, step_readReg (by decide) (by decide) s, ctxinfoWord_nk s, ctxinfoWord_r s,
      (congrArg BitVec.toNat (ctxinfoWord_length s)).trans (ctxinfoLength_toNat s), ctxinfoWord_zero_above s,
      ctxinfoWord_of_inv⟩,
    fun v => step_writeReg (by decide) (by decide) v s⟩

end Ctxinfo

end Sys2Proof.Machine
end

section
/-! PROOFS. The "written by" column of 10_state.md R10: what each command that succeeds may replace. -/

namespace Sys2Proof.Machine

/-- A run over the buffer changes STATE and OBUF, and nothing else (R172, R173). -/
theorem blockLoop_frame {f : State → Matrix → Matrix} (hf : Independent f) (count blk : Nat) (s : State) :
    ∃ S m, blockLoop (processBlock f) count blk s = { s with state := S, obuf := m } := by
  obtain ⟨S, m, heq, -⟩ := blockLoop_spec hf count blk s
  exact ⟨S, m, heq⟩

/-- The table of R10 read by commands: `RowEffect s i t` when `t` is `s` with new values only in the pieces of state that
name `i` as a writer. -/
inductive RowEffect (s : State) (i : Instr) : State → Prop where
  | gfTables (l m : Table) (v : Bool) (h : i.mnemonic ∈ ["GFINIT"]) :
      RowEffect s i { s with log := l, ilog := m, gfValid := v }
  | sboxTables (b c : Table) (v : Bool) (h : i.mnemonic ∈ ["SBINIT"]) :
      RowEffect s i { s with sbox := b, isbox := c, sbValid := v }
  | allTables (l m b c : Table) (v w : Bool) (h : i.mnemonic ∈ ["INITVEC"]) :
      RowEffect s i { s with log := l, ilog := m, gfValid := v, sbox := b, isbox := c, sbValid := w }
  | tablesAndContext (l m b c : Table) (v w x : Bool) (nk r : BitVec 4) (ks : Schedule) (S : Matrix)
      (h : i.mnemonic ∈ ["KEYINIT"]) :
      RowEffect s i { s with log := l, ilog := m, gfValid := v, sbox := b, isbox := c, sbValid := w, ctxValid := x,
                             nk := nk, r := r, ks := ks, state := S }
  | context (x : Bool) (nk r : BitVec 4) (ks : Schedule) (S : Matrix) (h : i.mnemonic ∈ ["CTXREL"]) :
      RowEffect s i { s with ctxValid := x, nk := nk, r := r, ks := ks, state := S }
  | matrix (S : Matrix) (h : i.mnemonic ∈ ["LDST", "ARK", "SUBB", "SHR", "MIXC", "ISUBB", "ISHR", "IMIXC"]) :
      RowEffect s i { s with state := S }
  | output (m : Memory) (h : i.mnemonic ∈ ["STST"]) : RowEffect s i { s with obuf := m }
  | matrixAndOutput (S : Matrix) (m : Memory) (h : i.mnemonic ∈ ["ENCBLK", "DECBLK", "ENC", "DEC"]) :
      RowEffect s i { s with state := S, obuf := m }
  | result (v : Word) (h : i.mnemonic ∈ ["GFMUL", "GFINV", "LOGRD", "ILOGRD", "SBOX", "ISBOX", "KSRD"]) :
      RowEffect s i { s with result := v }

/-- Every command keeps to its rows of R10. -/
theorem effectOf_rowEffect (i : Instr) (s : State) : RowEffect s i (effectOf i s) := by
  cases i
  case gfinit =>
    rw [effectOf, buildGfTables_frame]
    exact .gfTables (h := by simp [Instr.mnemonic]) ..
  case sbinit =>
    rw [effectOf, buildSbox_frame]
    exact .sboxTables (h := by simp [Instr.mnemonic]) ..
  case initvec =>
    rw [effectOf, rebuildTables_frame]
    exact .allTables (h := by simp [Instr.mnemonic]) ..
  case keyinit =>
    rw [effectOf, installContext_frame]
    exact .tablesAndContext (h := by simp [Instr.mnemonic]) ..
  case enc =>
    obtain ⟨S, m, (hloop : effectOf .enc s = _)⟩ := blockLoop_frame encryptMatrix_independent (s.inlen.toNat / 16) 0 s
    rw [hloop]
    exact .matrixAndOutput S m (by simp [Instr.mnemonic])
  case dec =>
    obtain ⟨S, m, (hloop : effectOf .dec s = _)⟩ := blockLoop_frame decryptMatrix_independent (s.inlen.toNat / 16) 0 s
    rw [hloop]
    exact .matrixAndOutput S m (by simp [Instr.mnemonic])
  case encblk | decblk => exact .matrixAndOutput (h := by simp [Instr.mnemonic]) ..
  case ctxrel => exact .context (h := by simp [Instr.mnemonic]) ..
  case stst => exact .output (h := by simp [Instr.mnemonic]) ..
  case gfmul | gfinv | logrd | ilogrd | sbox | isbox | ksrd => exact .result (h := by simp [Instr.mnemonic]) ..
  case ldst | ark | subb | shr | mixc | isubb | ishr | imixc => exact .matrix (h := by simp [Instr.mnemonic]) ..

/-- A command of a row is none that a clause leaves out, when the clause leaves out the whole row. -/
theorem absurd_of_row_excluded {p : Prop} {m : String} {row excluded : List String} (h : m ∈ row) (hn : m ∉ excluded)
    (hsub : row ⊆ excluded := by decide) : p := absurd (hsub h) hn

/-- Settles O51: a failure writes the outcome alone, and a success keeps to the rows of R10 that name the command. -/
theorem stateIsWrittenOnlyByItsWriters : Obligations.StateIsWrittenOnlyByItsWriters := by
  intro i s t ht
  obtain ⟨e, -, rfl⟩ | ⟨-, rfl⟩ := exec_cases ht
  · exact ⟨⟨rfl, rfl, rfl, rfl, rfl, rfl, rfl⟩, fun _ => ⟨rfl, rfl, rfl⟩, fun _ => ⟨rfl, rfl, rfl⟩,
      fun _ => ⟨rfl, rfl, rfl, rfl⟩, fun _ => rfl, fun _ => rfl, fun _ => rfl⟩
  · have effect := effectOf_rowEffect i s
    generalize effectOf i s = u at effect
    refine ⟨?host, fun hn => ?gf, fun hn => ?sbox, fun hn => ?context, fun hn => ?matrix, fun hn => ?output,
      fun hn => ?result⟩ <;> cases effect
    case gf.gfTables h | gf.allTables h | gf.tablesAndContext h => exact absurd_of_row_excluded h hn
    case sbox.sboxTables h | sbox.allTables h | sbox.tablesAndContext h => exact absurd_of_row_excluded h hn
    case context.tablesAndContext h | context.context h => exact absurd_of_row_excluded h hn
    case matrix.tablesAndContext h | matrix.context h | matrix.matrix h | matrix.matrixAndOutput h =>
      exact absurd_of_row_excluded h hn
    case output.output h | output.matrixAndOutput h => exact absurd_of_row_excluded h hn
    case result.result h => exact absurd_of_row_excluded h hn
    all_goals simp

end Sys2Proof.Machine
end

section
/-! PROOFS. The invariant of 10_state.md R34: it holds after reset, and every step keeps it. -/

namespace Sys2Proof.Machine

section Reset

theorem reset_log (i : Byte) : tableRead State.reset.log i = 0x00 := by
  have : State.reset.log = tableWrite (Vector.replicate 256 0) 0 Config.log0 := rfl
  rw [this, tableRead_tableWrite, tableRead_replicate, Config.log0, ite_self]

theorem reset_ilog (i : Byte) : tableRead State.reset.ilog i = 0x00 := by
  have : State.reset.ilog = tableWrite (Vector.replicate 256 0) 255 Config.ilog255 := rfl
  rw [this, tableRead_tableWrite, tableRead_replicate, Config.ilog255, ite_self]

theorem reset_state : State.reset.state = zeroMatrix := rfl

/-- Settles O53: the tables, the schedule and the cells by their read lemmas, the rest by the definition. -/
theorem resetClearsTheState : Obligations.ResetClearsTheState :=
  ⟨fun i => ⟨reset_log i, reset_ilog i, tableRead_replicate 0 i, tableRead_replicate 0 i⟩, rfl, rfl, rfl, rfl, rfl,
    ksRead_replicate, fun x y => by rw [reset_state, zeroMatrix, cell_matrixOf], fun _ => ⟨rfl, rfl, rfl⟩, rfl, rfl, rfl,
    rfl, rfl, rfl, rfl, by decide, by decide, by decide⟩

/-- Settles O55: no flag is set, so only the released context, the two unwritten entries, the outcome and the empty windows
are to be seen. -/
theorem invariantAtReset : Obligations.InvariantAtReset where
  sb_gf h := nomatch h
  ctx_sb h := nomatch h
  released _ := ⟨rfl, rfl, rfl, reset_state⟩
  shape h := nomatch h
  expanded h := nomatch h
  unwritten := ⟨reset_log 0, reset_ilog 255⟩
  gf h := nomatch h
  sb h := nomatch h
  outcome := by decide
  key := by decide
  ibuf := by decide
  obuf := by decide

end Reset

section Steps

variable {s t : State}

/-- What the host can store by a write keeps the invariant, whatever the lengths, while the windows keep their form. -/
theorem hostStored_inv (h : Inv s) (keylen inlen outlen : Word) {key ibuf : Memory}
    (hkey : key.wf = true ∧ key.within Config.keyBytes = true)
    (hibuf : ibuf.wf = true ∧ ibuf.within Config.bufBytes = true) :
    Inv { s with keylen := keylen, inlen := inlen, outlen := outlen, key := key, ibuf := ibuf } :=
  ⟨h.sb_gf, h.ctx_sb, h.released, h.shape, h.expanded, h.unwritten, h.gf, h.sb, h.outcome, hkey, hibuf, h.obuf⟩

theorem exec_inv {i : Instr} (h : Inv s) (ht : exec i s = .next t) : Inv t := by
  obtain ⟨e, -, rfl⟩ | ⟨hf, rfl⟩ := exec_cases ht
  · exact raise_inv h e
  · exact succeed_inv (effectOf_inv h hf)

theorem issueCommand_inv {w : Word} (h : Inv s) (ht : issueCommand w s = .next t) : Inv t := by
  cases hw : decode w with
  | ok i => exact exec_inv h (issueCommand_ok s hw ▸ ht)
  | error e =>
    obtain rfl := Host.Outcome.next.inj ((issueCommand_error s hw).symm.trans ht)
    exact raise_inv h .illegalCommand

theorem hostWriteReg_inv {offset : Nat} {v : Word} (h : Inv s) (ht : hostWriteReg offset v s = .next t) : Inv t := by
  obtain ⟨-, hc⟩ | ⟨-, rfl⟩ | ⟨-, rfl⟩ | ⟨-, rfl⟩ | ⟨-, rfl⟩ := hostWriteReg_next ht
  · exact issueCommand_inv h hc
  · exact hostStored_inv h v s.inlen s.outlen h.key h.ibuf
  · exact hostStored_inv h s.keylen v s.outlen h.key h.ibuf
  · exact hostStored_inv h s.keylen s.inlen v h.key h.ibuf
  · exact h

theorem hostWriteByte_inv {offset : Nat} {v : Byte} (h : Inv s) (ht : hostWriteByte offset v s = .next t) : Inv t := by
  obtain ⟨k, hk, -, rfl⟩ | ⟨a, ha, -, rfl⟩ | ⟨-, -, rfl⟩ := hostWriteByte_next ht
  · obtain ⟨hwf, hwithin⟩ := h.key
    exact hostStored_inv h s.keylen s.inlen s.outlen ⟨memWrite_wf k v hwf, memWrite_within v hk hwithin⟩ h.ibuf
  · obtain ⟨hwf, hwithin⟩ := h.ibuf
    exact hostStored_inv h s.keylen s.inlen s.outlen h.key ⟨memWrite_wf a v hwf, memWrite_within v ha hwithin⟩
  · exact h

theorem perform_inv {a : HostAccess} (h : Inv s) (ht : perform a s = .next t) : Inv t := by
  cases a with
  | writeReg offset v => exact hostWriteReg_inv h ht
  | readReg offset =>
    obtain ⟨v, rfl⟩ := hostReadReg_next ht
    exact replies_inv h _
  | writeByte offset v => exact hostWriteByte_inv h ht
  | readByte offset =>
    obtain ⟨v, rfl⟩ := hostReadByte_next ht
    exact replies_inv h _
  | otherWidth offset => nomatch ht

/-- Settles O56: an idle step keeps the state, and any other performs one access, which keeps the invariant. -/
theorem stepKeepsTheInvariant : Obligations.StepKeepsTheInvariant := by
  intro s t h ht
  cases hp : s.pending with
  | nil =>
    rw [step, hostStep, hp] at ht
    exact Host.Outcome.next.inj ht ▸ h
  | cons a rest => exact perform_inv (pending_inv h rest) (step_of_pending hp ▸ ht)

end Steps

end Sys2Proof.Machine
end

section
/-! PROOFS. The host's accesses (20_memory.md R40 to R44): what each reads and stores, which of them complete, fault or are
refused, and that a state with only accesses of the interface waiting never stops (60_exceptions.md R185). -/

namespace Sys2Proof.Machine

section Rows

section Reserved

variable {offset : Nat} (h : (0x0024 ≤ offset ∧ offset < 0x0040) ∨ (0x0060 ≤ offset ∧ offset < 0x1000))
include h

theorem perform_readReg_reserved (h4 : offset % 4 = 0) (s : State) :
    perform (.readReg offset) s = reply (.word 0) s := by
  simp only [perform, hostReadReg, locate_reserved h, if_pos h4]

theorem perform_writeReg_reserved (h4 : offset % 4 = 0) (v : Word) (s : State) :
    perform (.writeReg offset v) s = .next s := by
  simp only [perform, hostWriteReg, locate_reserved h, if_pos h4]

theorem perform_readByte_reserved (s : State) : perform (.readByte offset) s = reply (.byte 0) s := by
  simp only [perform, hostReadByte, locate_reserved h]

end Reserved

theorem perform_readByte_key {k : Nat} (h : k < 32) (s : State) :
    perform (.readByte (0x0040 + k)) s = reply (.byte (memRead s.key k)) s := by
  simp only [perform, hostReadByte, locate_keyByte h]

theorem perform_readByte_ibuf {a : Nat} (h : a < 4096) (s : State) :
    perform (.readByte (0x1000 + a)) s = reply (.byte (memRead s.ibuf a)) s := by
  simp only [perform, hostReadByte, locate_ibufByte h]

theorem perform_readByte_obuf {a : Nat} (h : a < 4096) (s : State) :
    perform (.readByte (0x2000 + a)) s = reply (.byte (memRead s.obuf a)) s := by
  simp only [perform, hostReadByte, locate_obufByte h]

theorem perform_writeByte_key {k : Nat} (h : k < 32) (v : Byte) (s : State) :
    perform (.writeByte (0x0040 + k) v) s = .next { s with key := memWrite s.key k v } := by
  simp only [perform, hostWriteByte, locate_keyByte h]

theorem perform_writeByte_ibuf {a : Nat} (h : a < 4096) (v : Byte) (s : State) :
    perform (.writeByte (0x1000 + a) v) s = .next { s with ibuf := memWrite s.ibuf a v } := by
  simp only [perform, hostWriteByte, locate_ibufByte h]

/-- Settles O11: the row of each offset, by the lemma that says what a read of that row answers. -/
theorem readsFollowTheAddressMap : Obligations.ReadsFollowTheAddressMap := by
  intro s
  refine ⟨?cmd, ?status, ?err, ?result, ?keylen, ?inlen, ?outlen, ?ctxinfo, ?bufsz, fun _ hk => perform_readByte_key hk s,
    fun _ ha => perform_readByte_ibuf ha s, fun _ ha => perform_readByte_obuf ha s,
    fun _ h => ⟨fun h4 => perform_readReg_reserved h h4 s, perform_readByte_reserved h s⟩⟩
  all_goals exact step_readReg (by decide) (by decide) s

/-- Settles O12: reads by their inversion lemmas, stores by the row written to, the rest by the inversion of the writes. -/
theorem onlyCmdHasASideEffect : Obligations.OnlyCmdHasASideEffect := by
  refine fun s => ⟨fun offset t ht => ?reads, fun v => ⟨?keylen, ?inlen, ?outlen⟩, fun k v hk => ?key,
    fun a v ha => ?ibuf, fun offset v t hn ht => ?words, fun offset v t hkey hibuf ht => ?bytes⟩
  case reads =>
    rcases ht with ht | ht
    · obtain ⟨v, rfl⟩ := hostReadReg_next ht
      exact ⟨.word v, rfl⟩
    · obtain ⟨v, rfl⟩ := hostReadByte_next ht
      exact ⟨.byte v, rfl⟩
  case keylen | inlen | outlen => exact step_writeReg (by decide) (by decide) v s
  case key =>
    exact ⟨memWrite s.key k v, perform_writeByte_key hk v s, memRead_memWrite_self s.key k v,
      fun _ hb => memRead_memWrite_ne s.key v hb⟩
  case ibuf =>
    exact ⟨memWrite s.ibuf a v, perform_writeByte_ibuf ha v s, memRead_memWrite_self s.ibuf a v,
      fun _ hb => memRead_memWrite_ne s.ibuf v hb⟩
  case words =>
    obtain ⟨rfl, -⟩ | ⟨rfl, -⟩ | ⟨rfl, -⟩ | ⟨rfl, -⟩ | ⟨-, rfl⟩ := hostWriteReg_next ht
    case inr.inr.inr.inr => rfl
    all_goals exact absurd (by decide) hn
  case bytes =>
    obtain ⟨k, hk, rfl, -⟩ | ⟨a, ha, rfl, -⟩ | ⟨-, -, rfl⟩ := hostWriteByte_next ht
    · omega
    · omega
    · rfl

end Rows

section Interface

variable {a : HostAccess} {offset : Nat}

/-- The 32-bit accesses of the interface are the aligned ones in a register or a reserved row (R42); `inInterface` does not
tell a write from a read, so this serves both. -/
theorem readReg_inInterface : (HostAccess.readReg offset).inInterface = true ↔ offset % 4 = 0 ∧
    (offset < 0x0024 ∨ (0x0024 ≤ offset ∧ offset < 0x0040) ∨ (0x0060 ≤ offset ∧ offset < 0x1000)) := by
  simp only [HostAccess.inInterface, inByteWindow_eq, Bool.and_eq_true, beq_iff_eq, decide_eq_true_eq, Bool.not_eq_true',
    decide_eq_false_iff_not]
  omega

/-- The 8-bit accesses of the interface, reads and writes alike, are those above the registers (R42; log 7). -/
theorem readByte_inInterface :
    (HostAccess.readByte offset).inInterface = true ↔ 0x0024 ≤ offset ∧ offset < 0x3000 := by
  simp only [HostAccess.inInterface, Bool.and_eq_true, decide_eq_true_eq]

theorem issueCommand_completes (w : Word) (s : State) : ∃ t, issueCommand w s = .next t := by
  cases hw : decode w with
  | ok i => exact issueCommand_ok s hw ▸ exec_next i s
  | error e => exact ⟨_, issueCommand_error s hw⟩

theorem writeRegister_completes (reg : HostReg) (v : Word) (s : State) : ∃ t, writeRegister reg v s = .next t := by
  cases reg
  case cmd => exact issueCommand_completes v s
  all_goals exact ⟨_, rfl⟩

theorem perform_completes (h : a.inInterface = true) (s : State) : ∃ t, perform a s = .next t := by
  cases a with
  | writeReg offset v =>
    obtain ⟨h4, hlt | hr⟩ := readReg_inInterface.1 h
    · exact perform_writeReg hlt h4 v s ▸ writeRegister_completes _ v s
    · exact ⟨s, perform_writeReg_reserved hr h4 v s⟩
  | readReg offset =>
    obtain ⟨h4, hlt | hr⟩ := readReg_inInterface.1 h
    · exact ⟨_, perform_readReg hlt h4 s⟩
    · exact ⟨_, perform_readReg_reserved hr h4 s⟩
  | writeByte offset v | readByte offset =>
    have hrange := readByte_inInterface.1 h
    obtain ⟨_, _⟩ | ⟨-, hl⟩ | ⟨k, -, -, hl⟩ | ⟨b, -, -, hl⟩ | ⟨b, -, -, hl⟩ | ⟨_, _⟩ := locate_cases offset
    case inl | inr.inr.inr.inr.inr => omega
    all_goals simp [perform, hostReadByte, hostWriteByte, reply, hl]
  | otherWidth offset => nomatch h

/-- An 8-bit or 32-bit access outside the window faults with its offset (R40; log 6). -/
theorem perform_outside (h : 0x3000 ≤ a.offset) (hw : a ≠ .otherWidth a.offset) (s : State) :
    perform a s = .fault (.offsetOutsideWindow a.offset) := by
  cases a with
  | otherWidth offset => exact absurd rfl hw
  | writeReg offset _ | readReg offset | writeByte offset _ | readByte offset =>
    have hl : locate offset = .outside := locate_outside h
    simp only [perform, hostWriteReg, hostReadReg, hostWriteByte, hostReadByte, hl, HostAccess.offset]

/-- What is no part of the interface and not outside the window is refused (R42; log 8). -/
theorem perform_refused (h : a.inInterface = false) (ho : a.offset < 0x3000 ∨ a = .otherWidth a.offset) (s : State) :
    ∃ r, perform a s = .refused r := by
  cases a with
  | otherWidth offset => exact ⟨_, rfl⟩
  | writeReg offset _ | readReg offset =>
    have hlt : offset < 0x3000 := ho.resolve_right (nomatch ·)
    have excluded := mt readReg_inInterface.2 (Bool.eq_false_iff.1 h)
    obtain ⟨hr, hl⟩ | ⟨hr, hl⟩ | ⟨k, -, -, hl⟩ | ⟨b, -, -, hl⟩ | ⟨b, -, -, hl⟩ | ⟨_, _⟩ := locate_cases offset
    case inr.inr.inr.inr.inr => omega
    case inl | inr.inl =>
      have h4 : offset % 4 ≠ 0 := fun h4 => excluded ⟨h4, by omega⟩
      exact ⟨.misalignedRegisterAccess offset, by simp only [perform, hostWriteReg, hostReadReg, hl, if_neg h4]⟩
    all_goals exact ⟨.wordAccessToByteWindow offset, by simp only [perform, hostWriteReg, hostReadReg, hl]⟩
  | writeByte offset _ | readByte offset =>
    have hlt : offset < 0x3000 := ho.resolve_right (nomatch ·)
    have hreg : offset < 0x0024 :=
      Nat.lt_of_not_le fun hle => absurd (readByte_inInterface.2 ⟨hle, hlt⟩) (Bool.eq_false_iff.1 h)
    exact ⟨.byteAccessToRegister offset, by simp only [perform, hostWriteByte, hostReadByte, locate_register hreg]⟩

/-- Settles O13: a step performs the access, and the three clauses are the three kinds of access. -/
theorem interfaceAccessesComplete : Obligations.InterfaceAccessesComplete := fun s _ =>
  ⟨fun h => perform_completes h s, fun h hw => perform_outside h hw s, fun h ho => perform_refused h ho s⟩

end Interface

section Waiting

variable {s t : State}

theorem issueCommand_pending {w : Word} (h : issueCommand w s = .next t) : t.pending = s.pending := by
  cases hw : decode w with
  | ok i =>
    obtain ⟨⟨-, -, -, -, -, hpending, -⟩, -⟩ := stateIsWrittenOnlyByItsWriters i s t (issueCommand_ok s hw ▸ h)
    exact hpending
  | error e =>
    obtain rfl := Host.Outcome.next.inj ((issueCommand_error s hw).symm.trans h)
    rfl

/-- Performing an access presents no new one. -/
theorem perform_pending {a : HostAccess} (h : perform a s = .next t) : t.pending = s.pending := by
  cases a with
  | writeReg offset v =>
    obtain ⟨-, hc⟩ | ⟨-, rfl⟩ | ⟨-, rfl⟩ | ⟨-, rfl⟩ | ⟨-, rfl⟩ := hostWriteReg_next h
    case inl => exact issueCommand_pending hc
    all_goals rfl
  | readReg offset =>
    obtain ⟨v, rfl⟩ := hostReadReg_next h
    rfl
  | writeByte offset v => obtain ⟨k, -, -, rfl⟩ | ⟨b, -, -, rfl⟩ | ⟨-, -, rfl⟩ := hostWriteByte_next h <;> rfl
  | readByte offset =>
    obtain ⟨v, rfl⟩ := hostReadByte_next h
    rfl
  | otherWidth offset => nomatch h

/-- Settles O57: an idle step keeps the state; any other performs an access of the interface, which completes, and the
rest of the accesses wait. -/
theorem safeStatesNeverStop : Obligations.SafeStatesNeverStop := by
  intro s hs
  cases hp : s.pending with
  | nil => exact ⟨s, by rw [step, hostStep, hp], hs⟩
  | cons a rest =>
    obtain ⟨ha, hrest⟩ : a.inInterface = true ∧ rest.all HostAccess.inInterface = true := by
      simpa [hp] using hs.pending
    obtain ⟨t, ht⟩ := perform_completes ha { s with pending := rest }
    exact ⟨t, step_of_pending hp ▸ ht, perform_inv (pending_inv hs.inv rest) ht, perform_pending ht ▸ hrest⟩

end Waiting

end Sys2Proof.Machine
end

section
/-! PROOFS. The encoding (30_encoding.md R60 to R67): a word decodes to a command exactly when a row of the opcode table
accepts it, and the command is the row's with the operand fields of the word. -/

namespace Sys2Proof

section Fields

theorem word_eq_iff_fields {v w : Word} :
    v = w ↔ opField v = opField w ∧ aField v = aField w ∧ bField v = bField w ∧ zField v = zField w :=
  ⟨fun h => h ▸ ⟨rfl, rfl, rfl, rfl⟩, fun ⟨h0, h1, h2, h3⟩ => word_eq_of_fields h0 h1 h2 h3⟩

/-- The fields of a masked word are the masked fields. -/
theorem fields_and (v w : Word) : opField (v &&& w) = opField v &&& opField w ∧
    aField (v &&& w) = aField v &&& aField w ∧ bField (v &&& w) = bField v &&& bField w ∧
    zField (v &&& w) = zField v &&& zField w :=
  ⟨BitVec.extractLsb'_and, BitVec.extractLsb'_and, BitVec.extractLsb'_and, BitVec.extractLsb'_and⟩

/-- The fields of an opcode's word: OP and zeros. -/
theorem fields_setWidth (op : Byte) : opField (op.setWidth 32) = op ∧ aField (op.setWidth 32) = 0 ∧
    bField (op.setWidth 32) = 0 ∧ zField (op.setWidth 32) = 0 := by
  have : op.setWidth 32 = encodeN op.toNat := by rw [encodeN, BitVec.ofNat_toNat]
  simpa [this] using fields_encodeN op.toNat op.isLt

theorem byte_and_ones (v : Byte) : v &&& 255#8 = v := BitVec.and_allOnes

/-- The must-be-zero fields of a format are zero (R61). -/
def Format.Clear (w : Word) : Format → Prop
  | .N => aField w = 0 ∧ bField w = 0 ∧ zField w = 0
  | .A => bField w = 0 ∧ zField w = 0
  | .AB => zField w = 0

/-- The fields that the mask of a format keeps are OP and the must-be-zero ones (R61). -/
theorem Row.accepts_iff {row : Row} {w : Word} :
    row.accepts w = true ↔ opField w = row.op ∧ row.format.Clear w := by
  obtain ⟨m0, m1, m2, m3⟩ := fields_and w row.format.mask
  obtain ⟨o0, o1, o2, o3⟩ := fields_setWidth row.op
  rw [Row.accepts, beq_iff_eq, word_eq_iff_fields, m0, m1, m2, m3, o0, o1, o2, o3]
  cases row.format <;> simp [Format.Clear, Format.mask, opField, aField, bField, zField, byte_and_ones]

/-- The bits outside OP and the operand bits of a format are its must-be-zero fields (R60, R61). -/
theorem Format.clear_iff_reservedBits {format : Format} {w : Word} :
    format.Clear w ↔ w &&& ~~~(0xFF ||| format.operandBits) = 0 := by
  obtain ⟨m0, m1, m2, m3⟩ := fields_and w (~~~(0xFF ||| format.operandBits))
  rw [word_eq_iff_fields, m0, m1, m2, m3]
  cases format <;> simp [Format.Clear, Format.operandBits, opField, aField, bField, zField, byte_and_ones]

/-- The word of an opcode with the operands a format has (R61). -/
def Format.encode (op : Nat) (a b : Byte) : Format → Word
  | .N => encodeN op
  | .A => encodeA op a
  | .AB => encodeAB op a b

/-- The operands that a format has. -/
def Format.operands (a b : Byte) : Format → List Byte
  | .N => []
  | .A => [a]
  | .AB => [a, b]

theorem Format.opField_encode (format : Format) {op : Nat} (h : op < 256) (a b : Byte) :
    (opField (format.encode op a b)).toNat = op := by
  cases format with
  | N => exact opField_encodeN op h
  | A => exact opField_encodeA op a h
  | AB => exact opField_encodeAB op a b h

theorem Format.clear_encode (format : Format) {op : Nat} (h : op < 256) (a b : Byte) :
    format.Clear (format.encode op a b) := by
  cases format with
  | N => exact (fields_encodeN op h).2
  | A => exact (fields_encodeA op a h).2.2
  | AB => exact (fields_encodeAB op a b h).2.2.2

theorem Format.encode_of_fields {format : Format} {op : Nat} {w : Word} (h : (opField w).toNat = op)
    (hc : format.Clear w) : format.encode op (aField w) (bField w) = w := by
  cases format with
  | N =>
    obtain ⟨ha, hb, hz⟩ := hc
    exact encodeN_of_fields h ha hb hz
  | A =>
    obtain ⟨hb, hz⟩ := hc
    exact encodeA_of_fields h hb hz
  | AB => exact encodeAB_of_fields h hc

/-- `OP + A*0x100 + B*0x10000` with the fields the format has (R61). -/
theorem Format.toNat_encode (format : Format) {op : Nat} (h : op < 256) (a b : Byte) :
    (format.encode op a b).toNat = op + ((format.operands a b).getD 0 0).toNat * 0x100 +
      ((format.operands a b).getD 1 0).toNat * 0x10000 := by
  have := a.isLt
  have := b.isLt
  cases format <;> simp [Format.encode, Format.operands, encodeN, encodeA, encodeAB] <;> omega

end Fields

section Families

/-- The commands of one opcode: one command, or one for every operand byte, or for every pair of them. -/
inductive Family where
  | N (i : Instr)
  | A (f : Byte → Instr)
  | AB (f : Byte → Byte → Instr)

namespace Family

def format : Family → Format
  | .N _ => .N
  | .A _ => .A
  | .AB _ => .AB

/-- The command of the family with operands `a` and `b`, as far as its format has them. -/
def apply (a b : Byte) : Family → Instr
  | .N i => i
  | .A f => f a
  | .AB f => f a b

/-- The row of the opcode table that a family has. -/
def row (family : Family) : Row :=
  ⟨(family.apply 0 0).mnemonic, opField (encode (family.apply 0 0)), family.format⟩

/-- A word keeps the operands that its format has. -/
theorem apply_encode (family : Family) {op : Nat} (h : op < 256) (a b : Byte) :
    family.apply (aField (family.format.encode op a b)) (bField (family.format.encode op a b)) = family.apply a b := by
  cases family with
  | N i => rfl
  | A f => exact congrArg f (fields_encodeA op a h).2.1
  | AB f =>
    obtain ⟨-, ha, hb, -⟩ := fields_encodeAB op a b h
    exact congrArg₂ f ha hb

/-- The arm of the decoder for the family's format. -/
def decodeArm (w : Word) : Family → Except Illegal Instr
  | .N i => decodeN w i
  | .A f => decodeA w f
  | .AB f => decodeAB w f

theorem decodeArm_of_clear {family : Family} {w : Word} (h : family.format.Clear w) :
    family.decodeArm w = .ok (family.apply (aField w) (bField w)) := by
  cases family <;> exact if_pos h

theorem decodeArm_of_not_clear {family : Family} {w : Word} (h : ¬family.format.Clear w) :
    family.decodeArm w = .error .reservedBits := by
  cases family <;> exact if_neg h

/-- All 25 families, in the order of the opcode table (R64). -/
def all : List Family :=
  [.N .gfinit, .AB .gfmul, .A .gfinv, .A .logrd, .A .ilogrd, .N .sbinit, .A .sbox, .A .isbox, .N .keyinit, .A .ksrd,
    .N .ctxrel, .A .ldst, .A .stst, .A .ark, .N .subb, .N .shr, .N .mixc, .N .isubb, .N .ishr, .N .imixc, .A .encblk,
    .A .decblk, .N .initvec, .N .enc, .N .dec]

theorem map_row_all : all.map row = opcodeTable := by decide

theorem row_mem {family : Family} (h : family ∈ all) : family.row ∈ opcodeTable :=
  map_row_all ▸ List.mem_map_of_mem h

theorem exists_of_row_mem {row : Row} (h : row ∈ opcodeTable) : ∃ family ∈ all, family.row = row :=
  List.mem_map.1 (map_row_all ▸ h)

/-- Every command is in a family. -/
theorem exists_apply_eq (i : Instr) : ∃ family ∈ all, ∃ a b, family.apply a b = i := by
  cases i <;> simp [all, apply]

/-- The decoder, the encoder, the mnemonics and the operands agree with the family's row (R61, R64). -/
structure Lawful (family : Family) : Prop where
  decode : ∀ w, opField w = family.row.op → Sys2Proof.decode w = family.decodeArm w
  encode : ∀ a b, Sys2Proof.encode (family.apply a b) = family.format.encode family.row.op.toNat a b
  mnemonic : ∀ a b, (family.apply a b).mnemonic = family.row.mnemonic
  operands : ∀ a b, (family.apply a b).operands = family.format.operands a b

/-- One case a row of the table: each of the four facts is the definition read at that row. -/
theorem lawful {family : Family} (h : family ∈ all) : family.Lawful := by
  fin_cases h <;>
    exact ⟨fun w h => by rw [Sys2Proof.decode, h]; rfl, fun _ _ => rfl, fun _ _ => rfl, fun _ _ => rfl⟩

end Family

end Families

section Decoder

theorem decode_unassigned {w : Word} (h : ∀ row ∈ opcodeTable, row.op ≠ opField w) :
    decode w = .error .unassignedOpcode := by
  have free : (opField w).toNat ∉ opcodeTable.map (fun row => row.op.toNat) := fun hm => by
    obtain ⟨row, hrow, hop⟩ := List.mem_map.1 hm
    exact h row hrow (BitVec.eq_of_toNat_eq hop)
  unfold decode
  split
  case h_26 => rfl
  all_goals next hop => exact absurd (hop ▸ by decide) free

/-- The decoder is the opcode table read by rows (R61, R67). -/
theorem decode_eq_ok_iff {w : Word} {i : Instr} : decode w = .ok i ↔
    ∃ family ∈ Family.all, family.row.accepts w = true ∧ i = family.apply (aField w) (bField w) := by
  constructor
  · intro h
    by_cases hop : ∃ row ∈ opcodeTable, row.op = opField w
    · obtain ⟨row, hrow, hop⟩ := hop
      obtain ⟨family, hf, rfl⟩ := Family.exists_of_row_mem hrow
      rw [(Family.lawful hf).decode w hop.symm] at h
      by_cases hc : family.format.Clear w
      · rw [Family.decodeArm_of_clear hc] at h
        exact ⟨family, hf, Row.accepts_iff.2 ⟨hop.symm, hc⟩, (Except.ok.inj h).symm⟩
      · rw [Family.decodeArm_of_not_clear hc] at h
        nomatch h
    · rw [decode_unassigned (by simpa using hop)] at h
      nomatch h
  · rintro ⟨family, hf, ha, rfl⟩
    obtain ⟨hop, hc⟩ := Row.accepts_iff.1 ha
    rw [(Family.lawful hf).decode w hop, Family.decodeArm_of_clear hc]

/-- Settles O1: the word of a command is accepted by its family's row, and its operand fields are the operands. -/
theorem decodeOfEncode : Obligations.DecodeOfEncode := by
  intro i
  obtain ⟨family, hf, a, b, rfl⟩ := Family.exists_apply_eq i
  have hop := family.row.op.isLt
  rw [(Family.lawful hf).encode]
  exact decode_eq_ok_iff.2 ⟨family, hf, Row.accepts_iff.2
    ⟨BitVec.eq_of_toNat_eq (family.format.opField_encode hop a b), family.format.clear_encode hop a b⟩,
    (family.apply_encode hop a b).symm⟩

/-- Settles O2: a word that a row accepts is the row's opcode with the operand fields of the row's format. -/
theorem encodeOfDecode : Obligations.EncodeOfDecode := by
  intro w i h
  obtain ⟨family, hf, ha, rfl⟩ := decode_eq_ok_iff.1 h
  obtain ⟨hop, hc⟩ := Row.accepts_iff.1 ha
  rw [(Family.lawful hf).encode]
  exact Format.encode_of_fields (congrArg BitVec.toNat hop) hc

/-- Settles O3: the row of the opcode names the family, whose arm tests the must-be-zero fields and reads the others. -/
theorem decodingIsTotalByTheTable : Obligations.DecodingIsTotalByTheTable := by
  refine ⟨rfl, by decide, fun w => ?_⟩
  cases h : opcodeTable.find? (fun row => row.op == w.extractLsb' 0 8) with
  | none => exact decode_unassigned (by simpa [opField] using List.find?_eq_none.1 h)
  | some row =>
    have found : (row.op == opField w) = true := List.find?_some (p := fun row : Row => row.op == opField w) h
    obtain ⟨family, hf, rfl⟩ := Family.exists_of_row_mem (List.mem_of_find?_eq_some h)
    have hop := (eq_of_beq found).symm
    have law := Family.lawful hf
    dsimp only
    split
    next hr =>
      rw [law.decode w hop]
      exact Family.decodeArm_of_not_clear (mt Format.clear_iff_reservedBits.1 hr)
    next hr =>
      refine ⟨family.apply (aField w) (bField w), ?_, law.mnemonic _ _, (law.operands _ _).trans ?_⟩
      · rw [law.decode w hop]
        exact Family.decodeArm_of_clear (Format.clear_iff_reservedBits.2 (not_not.1 hr))
      · cases family <;> rfl

/-- The mnemonic of a decoded command names the row that accepts the word. -/
theorem accepts_of_decode {w : Word} {i : Instr} {row : Row} (hrow : row ∈ opcodeTable) (h : decode w = .ok i)
    (hm : i.mnemonic = row.mnemonic) :
    ∃ family ∈ Family.all, family.row = row ∧ row.accepts w = true ∧ i = family.apply (aField w) (bField w) := by
  have distinct : ∀ p ∈ opcodeTable, ∀ q ∈ opcodeTable, p.mnemonic = q.mnemonic → p = q := by decide
  obtain ⟨family, hf, ha, rfl⟩ := decode_eq_ok_iff.1 h
  obtain rfl := distinct _ (Family.row_mem hf) row hrow (((Family.lawful hf).mnemonic _ _).symm.trans hm)
  exact ⟨family, hf, rfl, ha, rfl⟩

/-- Settles O4: the row accepts the word exactly when the word decodes into the row's family, whose format gives the
operands and the word. -/
theorem wordMatchesItsRowExactly : Obligations.WordMatchesItsRowExactly := by
  intro w row hrow
  refine ⟨⟨fun ha => ?_, fun ⟨i, hi, hm⟩ => ?_⟩, fun i hi hm => ?_⟩
  · obtain ⟨family, hf, rfl⟩ := Family.exists_of_row_mem hrow
    exact ⟨_, decode_eq_ok_iff.2 ⟨family, hf, beq_iff_eq.2 ha, rfl⟩, (Family.lawful hf).mnemonic _ _⟩
  · obtain ⟨family, hf, -, ha, -⟩ := accepts_of_decode hrow hi hm
    exact beq_iff_eq.1 ha
  · obtain ⟨family, hf, rfl, ha, rfl⟩ := accepts_of_decode hrow hi hm
    obtain ⟨hop, hc⟩ := Row.accepts_iff.1 ha
    rw [(Family.lawful hf).operands]
    refine ⟨by cases family <;> rfl, ?_⟩
    rw [← Format.toNat_encode _ family.row.op.isLt]
    exact congrArg BitVec.toNat (Format.encode_of_fields (congrArg BitVec.toNat hop) hc).symm

/-- A word that no row accepts is no command (R65, R66). -/
theorem decode_error_of_not_accepts {w : Word} (h : ∀ row ∈ opcodeTable, row.accepts w = false) :
    ∃ e, decode w = .error e := by
  cases hd : decode w with
  | error e => exact ⟨e, rfl⟩
  | ok i =>
    obtain ⟨family, hf, ha, -⟩ := decode_eq_ok_iff.1 hd
    exact absurd ha (by simp [h _ (Family.row_mem hf)])

/-- Settles O6: a word that no row accepts does not decode, so that its CMD write is the failure record alone. -/
theorem illegalWordOnlyReportsIllegalCommand : Obligations.IllegalWordOnlyReportsIllegalCommand := by
  refine ⟨fun s w h => ?_, by decide, by decide⟩
  obtain ⟨e, he⟩ := decode_error_of_not_accepts h
  obtain ⟨-, hillegal, -⟩ := Machine.stepRunsDecodedCommand s w
  exact hillegal e he

end Decoder

end Sys2Proof
end

section
/-! PROOFS. The block commands as single commands (30_encoding.md R70), and the idle step (R71). -/

namespace Sys2Proof.Machine

/-- A schedule of first step, rounds and tail stays in range when each of the three does. -/
theorem schedule_inRange {r : Nat} {first : SeqStep} {g : Nat → List SeqStep} {l : List Nat} {tail : List SeqStep}
    (hfirst : stepInRange r first = true) (hg : ∀ k ≤ r, ∀ x ∈ g k, stepInRange r x = true) (hl : ∀ k ∈ l, k ≤ r)
    (htail : ∀ x ∈ tail, stepInRange r x = true) :
    ∀ x ∈ .load :: first :: List.append (l.flatMap g) tail, stepInRange r x = true := by
  have hrounds : ∀ x ∈ l.flatMap g, stepInRange r x = true := fun x hx => by
    obtain ⟨k, hk, hx⟩ := List.mem_flatMap.1 hx
    exact hg k (hl k hk) x hx
  exact List.forall_mem_cons.2 ⟨rfl, List.forall_mem_cons.2 ⟨hfirst, List.forall_mem_append.2 ⟨hrounds, htail⟩⟩⟩

theorem le_of_mem_rounds {r k : Nat} (h : k ∈ List.range' 1 (r - 1)) : k ≤ r := by
  have := List.mem_range'_1.1 h
  omega

theorem encryptSchedule_inRange (r : Nat) : ∀ x ∈ encryptSchedule r, stepInRange r x = true :=
  schedule_inRange (by simp [stepInRange]) (fun k hk => by simpa [encryptRoundSteps, stepInRange] using hk)
    (fun _ => le_of_mem_rounds) (by simp [stepInRange])

theorem decryptSchedule_inRange (r : Nat) : ∀ x ∈ decryptSchedule r, stepInRange r x = true :=
  schedule_inRange (by simp [stepInRange]) (fun k hk => by simpa [decryptRoundSteps, stepInRange] using hk)
    (fun _ hk => le_of_mem_rounds (List.mem_reverse.1 hk)) (by simp [stepInRange])

/-- The commands of a schedule that is not empty have its effect from every state with a context: the first of them
leaves the success record. -/
theorem execAll_schedule (n : Byte) {l : List SeqStep} (hne : l ≠ []) {s : State} (h : s.ctxValid = true)
    (hl : ∀ x ∈ l, stepInRange s.r.toNat x = true) :
    execAll (l.map (commandOf n)) s = .next (succeed (runSchedule n.toNat l s)) := by
  cases l with
  | nil => exact absurd rfl hne
  | cons x l =>
    obtain ⟨hx, hl⟩ := List.forall_mem_cons.1 hl
    rw [List.map_cons, execAll, exec_commandOf n x s h hx]
    exact execAll_commandOf n l (runSeqStep n.toNat x s) (by rw [runSeqStep_ctxValid, h]) (by rwa [runSeqStep_r])

/-- Settles O38: the expansion is the sequencer's schedule command by command, and the block command is its run. -/
theorem blockCommandsEqualTheirExpansions : Obligations.BlockCommandsEqualTheirExpansions := by
  intro n s h
  constructor
  · have run := execAll_schedule n (l := encryptSchedule s.r.toNat) (List.cons_ne_nil _ _) h (encryptSchedule_inRange _)
    rw [encryptCommands_eq, run, exec_ok (by simp [failureOf, h]), effectOf, encryptBlock_eq_runSchedule]
  · have run := execAll_schedule n (l := decryptSchedule s.r.toNat) (List.cons_ne_nil _ _) h (decryptSchedule_inRange _)
    rw [decryptCommands_eq, run, exec_ok (by simp [failureOf, h]), effectOf, decryptBlock_eq_runSchedule]

/-- Settles O8: with no access waiting a step answers the state it was given. -/
theorem idleStepKeepsTheState : Obligations.IdleStepKeepsTheState := fun s h => by
  rw [step, hostStep, h]

end Sys2Proof.Machine
end

section
/-! PROOFS. GF(2^8) arithmetic (41_gf_arithmetic.md): GFINIT pairs each exponent with its power of the generator, and over
the tables it leaves the table multiply is the field product and the table inverse inverts. -/

namespace Sys2Proof.Machine

section Tables

theorem repeat_mulSlow_three (e : Nat) : Nat.repeat (fun v => mulSlow v 0x03) e 0x01 = genPow e := by
  induction e with
  | zero => exact genPow_zero.symm
  | succ e ih => rw [Nat.repeat, ih, mulSlow_three, genPow_succ]

theorem specIlog_eq_genPow {e : Byte} (he : e ≠ 255) : specIlog e = genPow e.toNat := by
  have hlt : e.toNat < 255 := by bv_omega
  rw [genPow, Nat.mod_eq_of_lt hlt, BitVec.ofNat_toNat, BitVec.setWidth_eq]

variable {log ilog : Table} (h : GoodTables log ilog)
include h

/-- ILOG undoes LOG (R93 (a)). -/
theorem tableRead_ilog_log {v : Byte} (hv : v ≠ 0) : tableRead ilog (tableRead log v) = v := by
  have hlt := specLog_lt v
  rw [h.1 v hv, h.2 _ (by bv_omega), specIlog_specLog v hv]

/-- LOG undoes ILOG (R93 (a)). -/
theorem tableRead_log_ilog {e : Byte} (he : e ≠ 255) : tableRead log (tableRead ilog e) = e := by
  have hne : specIlog e ≠ 0 := specIlog_eq_genPow he ▸ genPow_ne_zero e.toNat
  rw [h.2 e he, h.1 _ hne, specLog_specIlog e he]

/-- The tables pair the exponents below 255 with the powers of the generator (R83). -/
theorem tableRead_genPow {e : Nat} (he : e < 255) :
    tableRead log (genPow e) = BitVec.ofNat 8 e ∧ tableRead ilog (BitVec.ofNat 8 e) = genPow e := by
  have hne : BitVec.ofNat 8 e ≠ 255 := by bv_omega
  have power : tableRead ilog (BitVec.ofNat 8 e) = genPow e := by
    rw [h.2 _ hne, genPow, Nat.mod_eq_of_lt he]
  exact ⟨power ▸ tableRead_log_ilog h hne, power⟩

theorem tableRead_log_one : tableRead log 1 = 0 := (h.1 1 (by decide)).trans (by decide)

theorem tableRead_ilog_zero : tableRead ilog 0 = 1 := (h.2 0 (by decide)).trans (by decide)

end Tables

section Inverse

variable {log ilog : Table} {a b c : Byte}

theorem gfMul_of_zero (h : a = 0 ∨ b = 0) : gfMul log ilog a b = 0 := if_pos h

theorem gfMul_of_ne_zero (ha : a ≠ 0) (hb : b ≠ 0) : gfMul log ilog a b =
    tableRead ilog (BitVec.ofNat 8 (((tableRead log a).toNat + (tableRead log b).toNat) % 255)) :=
  if_neg (not_or.2 ⟨ha, hb⟩)

theorem gfInv_zero : gfInv log ilog 0 = 0 := if_pos rfl

/-- The index `255 - LOG[a]` is exact in 8 bits (R86, R87). -/
theorem gfInv_of_ne_zero (ha : a ≠ 0) :
    gfInv log ilog a = tableRead ilog (BitVec.ofNat 8 (255 - (tableRead log a).toNat)) := by
  have index : ∀ l : Byte, 255 - l = BitVec.ofNat 8 (255 - l.toNat) := fun l => by bv_omega
  rw [gfInv, if_neg ha, index]

/-- For element 1 the index is 255, the entry the walk never writes (R84, R86). -/
theorem gfInv_one (h : GoodTables log ilog) : gfInv log ilog 1 = tableRead ilog 255 := by
  rw [gfInv, if_neg (by decide), tableRead_log_one h]
  rfl

/-- An element with an inverse is the inverse of that inverse. -/
theorem eq_of_mulSlow_eq_one (hab : mulSlow a b = 1) (hbc : mulSlow b c = 1) : c = a := by
  calc c = mulSlow (mulSlow a b) c := by rw [hab, mulSlow_one_left]
    _ = mulSlow a (mulSlow b c) := mulSlow_assoc a b c
    _ = a := by rw [hbc, mulSlow_one_right]

/-- Inverting twice gives the element back from 2 on, and 0 for elements 0 and 1 when `ILOG[255]` is 0 (R93 (g)). -/
theorem gfInv_gfInv (h : GoodTables log ilog) (h255 : tableRead ilog 255 = 0) (a : Byte) :
    gfInv log ilog (gfInv log ilog a) = if a = 1 then 0 else a := by
  split
  case isTrue h1 => rw [h1, gfInv_one h, h255, gfInv_zero]
  case isFalse h1 =>
    by_cases h0 : a = 0
    · rw [h0, gfInv_zero, gfInv_zero]
    have inverse := mulSlow_gfInv h h0 h1
    have hne0 : gfInv log ilog a ≠ 0 := fun hz => by
      rw [hz, mulSlow_zero_right] at inverse
      exact absurd inverse (by decide)
    have hne1 : gfInv log ilog a ≠ 1 := fun hz => by
      rw [hz, mulSlow_one_right] at inverse
      exact h1 inverse
    exact eq_of_mulSlow_eq_one inverse (mulSlow_gfInv h hne0 hne1)

/-- Settles O17: the tables undo each other, the table multiply is the field product, whose laws the others are, and the
table inverse inverts from 2 on. -/
theorem fieldLaws : Obligations.FieldLaws := by
  intro s h h255
  have mul : gfMul s.log s.ilog = mulSlow := funext₂ (gfMul_eq_mulSlow h)
  have inv_one : gfInv s.log s.ilog 1 = 0 := (gfInv_one h).trans h255
  rw [mul, inv_one]
  exact ⟨fun _ hv => tableRead_ilog_log h hv, fun _ he => tableRead_log_ilog h he, mulSlow_comm,
    fun a => ⟨mulSlow_zero_right a, mulSlow_zero_left a⟩, fun _ h0 h1 => mulSlow_gfInv h h0 h1, mulSlow_zero_right 1,
    fun _ _ => rfl, mulSlow_one_right, mulSlow_assoc, mulSlow_xor_right, gfInv_gfInv h h255⟩

end Inverse

section Gfinit

theorem buildGfTables_succeed (s : State) : buildGfTables (succeed s) = succeed (buildGfTables s) := by
  simp only [buildGfTables, setGfTables, succeed]

theorem succeed_succeed (s : State) : succeed (succeed s) = succeed s := rfl

theorem gfTablesBuilt_succeed {s : State} : GfTablesBuilt (succeed s) ↔ GfTablesBuilt s := Iff.rfl

/-- Settles O14: the walk leaves tables that pair each exponent with its power, keeps all it does not write, and changes
nothing when it runs over its own tables. -/
theorem gfinitBuildsTheTables : Obligations.GfinitBuildsTheTables := by
  refine ⟨decodeOfEncode .gfinit, fun s => ⟨succeed (buildGfTables s), exec_ok rfl, ?frame, fun e he => ?powers, ?log0,
    ?ilog255, gfTablesBuilt_succeed.2 (buildGfTables_built s), ?again⟩⟩
  case frame =>
    conv_lhs => rw [buildGfTables_frame]
    rfl
  case powers =>
    rw [repeat_mulSlow_three]
    exact tableRead_genPow (buildGfTables_built s) he
  case log0 => exact (buildGfTables_unwritten s).1
  case ilog255 => exact (buildGfTables_unwritten s).2
  case again =>
    rw [exec_ok rfl, effectOf, buildGfTables_succeed, buildGfTables_idem, succeed_succeed]

end Gfinit

section Results

variable {i : Instr} {s : State}

/-- A command that needs the GF tables fails with code 7 while GF_VALID is 0 (R13). -/
theorem exec_of_gfInvalid (hcheck : failureOf i s = checkGf s) (h : s.gfValid = false) :
    exec i s = .next { s with ok := false, fail := true, err := 7 } :=
  exec_fail (e := .tablesNotReady) (by rw [hcheck, checkGf, h]; rfl)

/-- A command that needs the GF tables and answers a byte leaves it in RESULT while GF_VALID is 1 (R23). -/
theorem exec_of_gfValid {v : Byte} (hcheck : failureOf i s = checkGf s) (heffect : effectOf i s = setResultByte v s)
    (h : s.gfValid = true) :
    exec i s = .next { s with result := v.setWidth 32, ok := true, fail := false, err := 0 } := by
  rw [exec_ok (hcheck.trans (checkGf_eq_none.2 h)), heffect]
  rfl

/-- Settles O15: RESULT is `gfMul` of the operands. -/
theorem gfmulUsesTheLogTables : Obligations.GfmulUsesTheLogTables := fun a b s =>
  ⟨decodeOfEncode (.gfmul a b), exec_of_gfInvalid rfl,
    fun hv => ⟨gfMul s.log s.ilog a b, exec_of_gfValid rfl rfl hv, gfMul_of_zero, gfMul_of_ne_zero⟩⟩

/-- Settles O16: `gfMul` over built tables is the product of R82. -/
theorem gfmulIsTheFieldProduct : Obligations.GfmulIsTheFieldProduct := fun a b s hv h => by
  rw [← gfMul_eq_mulSlow h]
  exact exec_of_gfValid rfl rfl hv

/-- Settles O18: RESULT is `gfInv` of the operand. -/
theorem gfinvInvertsItsOperand : Obligations.GfinvInvertsItsOperand := fun a s => by
  refine ⟨decodeOfEncode (.gfinv a), exec_of_gfInvalid rfl, fun hv =>
    ⟨gfInv s.log s.ilog a, exec_of_gfValid rfl rfl hv, ?zero, gfInv_of_ne_zero, fun h => ⟨mulSlow_gfInv h, ?one⟩⟩⟩
  case zero =>
    rintro rfl
    exact gfInv_zero
  case one =>
    rintro rfl
    exact gfInv_one h

/-- Settles O19: RESULT is the entry read, and the invariant holds the four corner entries. -/
theorem logrdAndIlogrdReadOneEntry : Obligations.LogrdAndIlogrdReadOneEntry := by
  refine fun a s => ⟨decodeOfEncode (.logrd a), decodeOfEncode (.ilogrd a),
    fun hv => ⟨exec_of_gfInvalid rfl hv, exec_of_gfInvalid rfl hv⟩,
    fun hv => ⟨exec_of_gfValid rfl rfl hv, exec_of_gfValid rfl rfl hv⟩, fun hinv hv => ?corners⟩
  obtain ⟨hlog0, hilog255⟩ := hinv.unwritten
  have built := hinv.gf hv
  exact ⟨hlog0, tableRead_log_one built, hilog255, tableRead_ilog_zero built⟩

end Results

end Sys2Proof.Machine
end

section
/-! PROOFS. The S-box generator (42_sbox.md): the affine transform bit by bit, what SBINIT leaves in every entry of SBOX and
ISBOX, and that over built GF tables this is the S-box of the true inverses, whatever `ILOG[255]` holds. -/

namespace Sys2Proof.Machine

section Affine

variable {v : Byte} {i : Nat} (h : i < 8)
include h

theorem affine_getLsbD : (affine v).getLsbD i = affineBit v i := by
  -- The width as the definition's appends give it, so that the append lemma applies.
  change BitVec.getLsbD (w := 1 + 1 + 1 + 1 + 1 + 1 + 1 + 1) (affine v) i = affineBit v i
  rw [affine]
  simp only [BitVec.getLsbD_append]
  interval_cases i <;> simp

/-- Bit `i` of a byte rotated left by `k` is bit `i - k` (mod 8) of the byte. -/
theorem getLsbD_rotateLeft_byte {k : Nat} (hk : k < 8) :
    (v.rotateLeft k).getLsbD i = v.getLsbD ((i + (8 - k)) % 8) := by
  rw [BitVec.getLsbD_rotateLeft, Nat.mod_eq_of_lt hk]
  by_cases hik : i < k
  · rw [decide_eq_true hik, cond_true, Nat.mod_eq_of_lt (by omega), Nat.add_comm]
  · rw [decide_eq_false hik, cond_false, decide_eq_true h, Bool.true_and]
    congr 1
    omega

/-- The transform undone: bit `i` of the operand is a sum of three bits of the image and bit `i` of 0x05. -/
theorem getLsbD_of_affine : v.getLsbD i = ((affine v).getLsbD ((i + 2) % 8) ^^ (affine v).getLsbD ((i + 5) % 8) ^^
    (affine v).getLsbD ((i + 7) % 8) ^^ (0x05 : Byte).getLsbD i) := by
  simp only [affine_getLsbD, Nat.mod_lt, Nat.ofNat_pos]
  interval_cases i <;> simp [affineBit] <;> grind

end Affine

theorem affine_eq_rotations (v : Byte) :
    affine v = v ^^^ v.rotateLeft 1 ^^^ v.rotateLeft 2 ^^^ v.rotateLeft 3 ^^^ v.rotateLeft 4 ^^^ 0x63 := by
  refine BitVec.eq_of_getLsbD_eq fun i hi => ?_
  simp only [affine_getLsbD hi, affineBit, BitVec.getLsbD_xor, getLsbD_rotateLeft_byte hi, Nat.reduceLT, Nat.reduceSub]
  simp only [Bool.xor_assoc, Bool.xor_comm, Bool.xor_left_comm]

theorem affine_injective : Function.Injective affine := fun v w hvw =>
  BitVec.eq_of_getLsbD_eq fun i hi => by rw [getLsbD_of_affine hi, hvw, ← getLsbD_of_affine hi]

/-- Settles O20: the output bits are the definition's, the rotations give the same bits, and the bits of the operand come
back from those of the image. -/
theorem affineTransformForms : Obligations.AffineTransformForms :=
  ⟨fun _ _ hi => affine_getLsbD hi, affine_eq_rotations, Finite.injective_iff_bijective.1 affine_injective, by decide,
    by decide, by decide⟩

section Sbinit

theorem sboxPatch_sbox_one (t : Table × Table) : tableRead (sboxPatch t).1 1 = 0x7c := tableRead_tableWrite_self ..

theorem sboxPatch_sbox_ne (t : Table × Table) {i : Byte} (h : i ≠ 1) :
    tableRead (sboxPatch t).1 i = tableRead t.1 i := tableRead_tableWrite_ne _ _ h

theorem sboxPatch_isbox_patched (t : Table × Table) :
    tableRead (sboxPatch t).2 0x7c = 1 ∧ tableRead (sboxPatch t).2 0x63 = 0 := by
  simp [sboxPatch, tableRead_tableWrite]

theorem sboxPatch_isbox_ne (t : Table × Table) {b : Byte} (h7c : b ≠ 0x7c) (h63 : b ≠ 0x63) :
    tableRead (sboxPatch t).2 b = tableRead t.2 b := by
  rw [sboxPatch, tableRead_tableWrite_ne _ _ h63, tableRead_tableWrite_ne _ _ h7c]

variable (s : State) {i b : Byte}

/-- SBOX holds the affine image of `inv` outside the patched entry (R101, R102). -/
theorem buildSbox_sbox_ne (h : i ≠ 1) : tableRead (buildSbox s).sbox i = affine (gfInv s.log s.ilog i) := by
  rw [buildSbox_sbox, sboxPatch_sbox_ne _ h, sboxLoop_sbox _ _ _ _ _ _ (Nat.le_refl 256),
    if_pos ⟨Nat.zero_le _, by simpa using i.isLt⟩]

variable (h7c : b ≠ 0x7c) (h63 : b ≠ 0x63)
include h7c h63

/-- ISBOX holds the last index whose image an entry is (R101). -/
theorem buildSbox_isbox_last (hi : affine (gfInv s.log s.ilog i) = b)
    (later : ∀ j : Byte, i.toNat < j.toNat → affine (gfInv s.log s.ilog j) ≠ b) :
    tableRead (buildSbox s).isbox b = i := by
  have last := sboxLoop_isbox s.log s.ilog 256 0 i.toNat (s.sbox, s.isbox) b (Nat.zero_le _) (by simpa using i.isLt)
    (by simpa using hi) fun j hj hlt => later _ (by bv_omega)
  rw [buildSbox_isbox, sboxPatch_isbox_ne _ h7c h63, last, BitVec.ofNat_toNat, BitVec.setWidth_eq]

/-- ISBOX keeps an entry that is no image (R101). -/
theorem buildSbox_isbox_untouched (h : ∀ i, affine (gfInv s.log s.ilog i) ≠ b) :
    tableRead (buildSbox s).isbox b = tableRead s.isbox b := by
  rw [buildSbox_isbox, sboxPatch_isbox_ne _ h7c h63, sboxLoop_isbox_untouched _ _ _ _ _ _ fun _ _ _ => h _]

end Sbinit

theorem exec_sbinit {s : State} (h : s.gfValid = true) : exec .sbinit s = .next (succeed (buildSbox s)) :=
  exec_ok (checkGf_eq_none.2 h)

theorem succeed_buildSbox_frame (s : State) : succeed (buildSbox s) =
    { s with sbox := (buildSbox s).sbox, isbox := (buildSbox s).isbox, sbValid := true, ok := true, fail := false,
             err := 0 } := by
  conv_lhs => rw [buildSbox_frame]
  rfl

/-- Settles O21: the entries the loop leaves, read past the three writes of the patch. -/
theorem sbinitRunsTheLoopAndThePatch : Obligations.SbinitRunsTheLoopAndThePatch := by
  refine ⟨decodeOfEncode .sbinit, fun s => ⟨exec_of_gfInvalid rfl, fun hv => ⟨succeed (buildSbox s), exec_sbinit hv,
    succeed_buildSbox_frame s, ?_⟩⟩⟩
  obtain ⟨patched7c, patched63⟩ := sboxPatch_isbox_patched (sboxLoop s.log s.ilog 256 0 (s.sbox, s.isbox))
  exact ⟨sboxPatch_sbox_one _, patched7c, patched63, fun _ hi => buildSbox_sbox_ne s hi,
    fun _ _ h7c h63 hi later => buildSbox_isbox_last s h7c h63 hi later,
    fun _ h7c h63 hb => buildSbox_isbox_untouched s h7c h63 hb⟩

section Finished

variable {s : State}

theorem sboxTablesBuilt_succeed : SboxTablesBuilt (succeed s) ↔ SboxTablesBuilt s := Iff.rfl

/-- The finished SBOX is a permutation with ISBOX its inverse (R103 (b)). -/
theorem SboxTablesBuilt.inverse (h : SboxTablesBuilt s) :
    Function.Bijective (tableRead s.sbox) ∧ ∀ i, tableRead s.isbox (tableRead s.sbox i) = i := by
  have hsbox : tableRead s.sbox = specSbox := funext fun i => (h i).1
  have hisbox : tableRead s.isbox = specIsbox := funext fun i => (h i).2
  rw [hsbox, hisbox]
  exact ⟨Function.bijective_iff_has_inverse.2 ⟨specIsbox, specIsbox_specSbox, specSbox_specIsbox⟩, specIsbox_specSbox⟩

/-- The corner entries of the finished tables (R105, R106). -/
theorem SboxTablesBuilt.corners (h : SboxTablesBuilt s) :
    tableRead s.sbox 0 = 0x63 ∧ tableRead s.sbox 1 = 0x7c ∧ tableRead s.sbox 0x52 = 0x00 ∧
      tableRead s.isbox 0x63 = 0x00 ∧ tableRead s.isbox 0x7c = 0x01 ∧ tableRead s.isbox 0x00 = 0x52 := by
  obtain ⟨sbox0, sbox1, isbox63, isbox7c⟩ := specSbox_ends
  have isbox0 : specIsbox 0x00 = 0x52 := by decide
  have sbox52 : specSbox 0x52 = 0x00 := isbox0 ▸ specSbox_specIsbox 0x00
  exact ⟨(h _).1.trans sbox0, (h _).1.trans sbox1, (h _).1.trans sbox52, (h _).2.trans isbox63, (h _).2.trans isbox7c,
    (h _).2.trans isbox0⟩

/-- An inverse of an element is the one that the tables give, from 2 on. -/
theorem eq_gfInv_of_mulSlow_eq_one {log ilog : Table} (h : GoodTables log ilog) {a b : Byte} (hab : mulSlow a b = 1)
    (ha : a ≠ 1) : b = gfInv log ilog a := by
  have h0 : a ≠ 0 := by
    rintro rfl
    exact absurd ((mulSlow_zero_left b).symm.trans hab) (by decide)
  exact (eq_of_mulSlow_eq_one ((mulSlow_comm b a).trans hab) (mulSlow_gfInv h h0 ha)).symm

/-- SBOX holds the affine image of the true inverse. Element 1 is its own inverse, and the patch supplies its image, which
the loop reads from `ILOG[255]` (R103 (a)). -/
theorem buildSbox_sbox_of_inverse (h : GfTablesBuilt s) {i v : Byte} (hiv : mulSlow i v = 1) :
    tableRead (buildSbox s).sbox i = affine v := by
  by_cases h1 : i = 1
  · obtain rfl : v = 1 := by rwa [h1, mulSlow_one_left] at hiv
    rw [h1, buildSbox_sbox, sboxPatch_sbox_one]
    decide
  · rw [buildSbox_sbox_ne s h1, eq_gfInv_of_mulSlow_eq_one h hiv h1]

/-- Settles O22: SBINIT leaves the printed tables from every state with built GF tables, so no two of them differ. -/
theorem finishedSboxTables : Obligations.FinishedSboxTables := by
  intro s hv h
  have built : SboxTablesBuilt (succeed (buildSbox s)) := sboxTablesBuilt_succeed.2 (buildSbox_built h)
  obtain ⟨sbox0, sbox1, -⟩ := built.corners
  obtain ⟨permutation, inverse⟩ := built.inverse
  refine ⟨_, exec_sbinit hv, sbox0, sbox1, fun i v hiv => buildSbox_sbox_of_inverse h hiv, permutation, inverse, built,
    fun s' t' h' ht' hv' => ?_⟩
  obtain rfl := Host.Outcome.next.inj ((exec_sbinit hv').symm.trans ht')
  exact sboxTables_unique (sboxTablesBuilt_succeed.2 (buildSbox_built h')) built

end Finished

section Reads

theorem checkSb_of_invalid {s : State} (h : s.sbValid = false) : checkSb s = some .tablesNotReady := by
  rw [checkSb, h]
  rfl

/-- Settles O23: RESULT is the entry read, and the finished tables hold the corner entries. -/
theorem sboxAndIsboxReadOneEntry : Obligations.SboxAndIsboxReadOneEntry := fun a _ =>
  ⟨decodeOfEncode (.sbox a), decodeOfEncode (.isbox a),
    fun hv => ⟨exec_fail (i := .sbox a) (checkSb_of_invalid hv), exec_fail (i := .isbox a) (checkSb_of_invalid hv)⟩,
    fun hv => ⟨exec_ok (i := .sbox a) (checkSb_eq_none.2 hv), exec_ok (i := .isbox a) (checkSb_eq_none.2 hv)⟩,
    SboxTablesBuilt.corners⟩

end Reads

end Sys2Proof.Machine
end

section
/-! PROOFS. Key expansion (43_key_schedule.md): RotWord on the bytes of a word, the round constants, and the three commands
on the context. KEYINIT leaves the printed tables, so its schedule is the one the printed S-box and constants give. -/

namespace Sys2Proof.Machine

section Bytes

theorem getLsbD_byteLane (w : Word) (x : Nat) {i : Nat} (h : i < 8) :
    (byteLane w x).getLsbD i = w.getLsbD (8 * x + i) := by
  rw [byteLane, BitVec.getLsbD_extractLsb', decide_eq_true h, Bool.true_and]

/-- Byte `k` of a packed word stands in bits `8k+7:8k` (R6, R49). -/
theorem getLsbD_packWord (b0 b1 b2 b3 : Byte) (i : Nat) : (packWord b0 b1 b2 b3).getLsbD i =
    if i < 8 then b0.getLsbD i else if i < 16 then b1.getLsbD (i - 8)
    else if i < 24 then b2.getLsbD (i - 16) else b3.getLsbD (i - 24) := by
  -- The width as the definition's appends give it, so that the append lemma applies.
  change BitVec.getLsbD (w := 8 + 8 + 8 + 8) (packWord b0 b1 b2 b3) i = _
  rw [packWord]
  simp only [BitVec.getLsbD_append]
  grind

/-- A word gives back the bytes it was packed from (R6, R49). -/
theorem byteLane_packWord (b : Nat → Byte) {x : Nat} (hx : x < 4) :
    byteLane (packWord (b 0) (b 1) (b 2) (b 3)) x = b x := by
  refine BitVec.eq_of_getLsbD_eq fun i hi => ?_
  rw [getLsbD_byteLane _ _ hi, getLsbD_packWord]
  interval_cases x <;> grind

/-- Byte `x` of key word `j` is key byte `4j + x` (R117). -/
theorem byteLane_keyWord (key : Memory) (j : Nat) {x : Nat} (hx : x < 4) :
    byteLane (keyWord key j) x = memRead key (4 * j + x) :=
  byteLane_packWord (fun x => memRead key (4 * j + x)) hx

/-- Bytes 1, 2, 3 move one place down, and byte 0 to the top (R118). -/
theorem byteLane_rotWord (w : Word) {x : Nat} (hx : x < 4) : byteLane (rotWord w) x = byteLane w ((x + 1) % 4) :=
  byteLane_packWord (fun x => byteLane w ((x + 1) % 4)) hx

theorem rotWord_eq_shifts (w : Word) : rotWord w = (w >>> 8) ||| (w <<< 24) := by
  refine BitVec.eq_of_getLsbD_eq fun i hi => ?_
  rw [rotWord, getLsbD_packWord, BitVec.getLsbD_or, BitVec.getLsbD_ushiftRight, BitVec.getLsbD_shiftLeft]
  grind [getLsbD_byteLane]

/-- Settles O24: byte by byte, and bit by bit for the number. -/
theorem rotWordRotatesRightByEight : Obligations.RotWordRotatesRightByEight :=
  ⟨fun w => ⟨byteLane_rotWord w (by decide), byteLane_rotWord w (by decide), byteLane_rotWord w (by decide),
    byteLane_rotWord w (by decide)⟩, rotWord_eq_shifts, by decide⟩

end Bytes

section RoundConstants

theorem expandTemp_multiple {sbox : Table} {nk kidx : Nat} {rcon : Byte} {w : Word} (h : kidx % nk = 0) :
    expandTemp sbox nk kidx rcon w = subWord sbox (rotWord w) ^^^ zext32 rcon := if_pos h

/-- Entry `k` of the listed constants is `2^k` in the field (R120). -/
theorem roundConstants_getD {k : Nat} (h : k < 11) : roundConstants.getD k 0 = xtimePow k 1 := roundConstants_eq ⟨k, h⟩

variable {log ilog : Table} {nk kidx : Nat}

theorem nextRcon_multiple (hg : GoodTables log ilog) (h : kidx % nk = 0) (rcon : Byte) :
    nextRcon log ilog nk kidx rcon = xtime rcon := (if_pos h).trans (gfMul_two hg rcon)

theorem nextRcon_not_multiple (h : kidx % nk ≠ 0) (rcon : Byte) : nextRcon log ilog nk kidx rcon = rcon := if_neg h

/-- Settles O25: the loop is the definition's, and doubling is `xtime`, whose powers the listed constants are. -/
theorem roundConstantsDouble : Obligations.RoundConstantsDouble := by
  refine ⟨rfl, fun _ _ _ _ _ _ => rfl, fun _ _ _ _ _ _ _ _ => rfl, fun _ _ _ _ _ => expandTemp_multiple,
    fun s nk kidx hg => ⟨fun h => ⟨fun rcon => ?product, fun k hk => ?listed⟩, nextRcon_not_multiple⟩⟩
  case product => rw [nextRcon, if_pos h, gfMul_eq_mulSlow hg]
  case listed =>
    rw [nextRcon_multiple hg h, roundConstants_getD (by omega), roundConstants_getD (by omega), xtime_xtimePow]

end RoundConstants

section Keyinit

theorem validKeyLength_iff {len : Nat} : validKeyLength len = true ↔ len ∈ [16, 24, 32] := by
  simp [validKeyLength, or_assoc]

/-- SubWord over the finished S-box is SubWord over the printed one (R119). -/
theorem SboxTablesBuilt.subWord_eq {s : State} (h : SboxTablesBuilt s) : subWord s.sbox = specSubWord := by
  funext w
  simp only [subWord, specSubWord, (h _).1]

/-- With RCON as the loop has it at a word after the first, the model XORs in what the sentence of R121 says, as long as
the constant used is a listed one. -/
theorem expandTemp_rconAt (sbox : Table) {nk i : Nat} (hi : 0 < i) (hk : i / nk ≤ 11) (w : Word) :
    expandTemp sbox nk i (rconAt nk i) w = scheduleTemp nk i (subWord sbox) w := by
  obtain ⟨m, rfl⟩ := Nat.exists_eq_add_one_of_ne_zero hi.ne'
  by_cases h : (m + 1) % nk = 0
  · have quotient := Nat.succ_div_of_dvd (Nat.dvd_of_mod_eq_zero h)
    rw [expandTemp_multiple h, scheduleTemp, if_pos h, rconAt, quotient, Nat.add_sub_cancel, Nat.add_sub_cancel,
      roundConstants_getD (by omega)]
  · rw [expandTemp, scheduleTemp, if_neg h, if_neg h]

/-- A schedule with the key words of `key`, the recurrence of R121 up to round `nk + 6`, and zeros above. -/
structure IsScheduleOf (sbox : Table) (key : Memory) (nk : Nat) (ks : Schedule) : Prop where
  head : ∀ j < nk, ksRead ks j = keyWord key j
  expands : ∀ i, nk ≤ i → i < scheduleLength (nk + 6) → ExpandsAt sbox nk ks i
  zeros : ∀ i, scheduleLength (nk + 6) ≤ i → ksRead ks i = 0

/-- The schedule depends on no more of the key than its first `nk` words (R125). -/
theorem IsScheduleOf.unique {sbox : Table} {key key' : Memory} {nk : Nat} {a b : Schedule} (hn : 0 < nk)
    (ha : IsScheduleOf sbox key nk a) (hb : IsScheduleOf sbox key' nk b)
    (hkey : ∀ j < nk, keyWord key j = keyWord key' j) : a = b := by
  have below := expandsAt_unique hn (fun j hj => by rw [ha.head j hj, hb.head j hj, hkey j hj]) ha.expands hb.expands
  refine schedule_ext fun i _ => ?_
  by_cases hi : i < scheduleLength (nk + 6)
  · exact below i hi
  · rw [ha.zeros i (by omega), hb.zeros i (by omega)]

/-- The words KEYINIT computes are those the sentence of R121 gives: no use is past the listed constants. -/
theorem IsScheduleOf.recurrence {sbox : Table} {key : Memory} {nk : Nat} {ks : Schedule} (h : IsScheduleOf sbox key nk ks)
    (h4 : 4 ≤ nk) {i : Nat} (hi : nk ≤ i) (hlt : i < scheduleLength (nk + 6)) :
    ksRead ks i = ksRead ks (i - nk) ^^^ scheduleTemp nk i (subWord sbox) (ksRead ks (i - 1)) := by
  have listed : i / nk ≤ 11 := by
    rw [scheduleLength] at hlt
    exact Nat.le_of_lt_succ (Nat.div_lt_of_lt_mul (by omega))
  rw [← expandTemp_rconAt sbox (by omega) listed]
  exact h.expands i hi hlt

section Installed

variable {s : State} (h : s.keylen.toNat ∈ [16, 24, 32])
include h

theorem failureOf_keyinit : failureOf .keyinit s = none :=
  checkKeyLength_eq_none.2 (validKeyLength_iff.2 h)

theorem installContext_nk_toNat : (installContext s).nk.toNat = s.keylen.toNat / 4 := by
  have := validKeyLength_cases (validKeyLength_iff.2 h)
  rw [installContext_nk, BitVec.toNat_ofNat, Nat.mod_eq_of_lt (by omega)]

theorem installContext_r_toNat : (installContext s).r.toNat = s.keylen.toNat / 4 + 6 := by
  have := validKeyLength_cases (validKeyLength_iff.2 h)
  rw [installContext_r, BitVec.toNat_ofNat, Nat.mod_eq_of_lt (by omega)]

/-- KEYINIT leaves the schedule of the key (R117, R121, R122). -/
theorem installContext_isScheduleOf :
    IsScheduleOf (installContext s).sbox s.key (s.keylen.toNat / 4) (installContext s).ks := by
  have := validKeyLength_cases (validKeyLength_iff.2 h)
  obtain ⟨gf, -⟩ := rebuildTables_built s
  obtain ⟨head, expands, zeros⟩ := keySchedule_spec gf (rebuildTables s).sbox s.key (nk := s.keylen.toNat / 4) (by omega)
    (by omega) s.ks
  rw [installContext_ks, installContext_sbox]
  exact ⟨head, expands, zeros⟩

end Installed

theorem installContext_built (s : State) : TablesBuilt (installContext s) := by
  have := rebuildTables_built s
  rw [TablesBuilt, GfTablesBuilt, SboxTablesBuilt] at *
  rwa [installContext_log, installContext_ilog, installContext_sbox, installContext_isbox]

theorem installContext_unwritten (s : State) : tableRead (installContext s).log 0 = tableRead s.log 0 ∧
    tableRead (installContext s).ilog 255 = tableRead s.ilog 255 := by
  rw [installContext_log, installContext_ilog, rebuildTables_log, rebuildTables_ilog]
  exact buildGfTables_unwritten s

theorem tablesBuilt_succeed {s : State} : TablesBuilt (succeed s) ↔ TablesBuilt s := Iff.rfl

theorem succeed_installContext_frame (s : State) : succeed (installContext s) = { s with
    log := (installContext s).log, ilog := (installContext s).ilog, gfValid := true, sbox := (installContext s).sbox,
    isbox := (installContext s).isbox, sbValid := true, ctxValid := true, nk := (installContext s).nk,
    r := (installContext s).r, ks := (installContext s).ks, state := (installContext s).state, ok := true, fail := false,
    err := 0 } := by
  rw [installContext_log, installContext_ilog, installContext_sbox, installContext_isbox, installContext_nk,
    installContext_r, installContext_state]
  conv_lhs => rw [installContext_frame]
  rfl

/-- Settles O26: the tables rebuilt are the printed ones, and the schedule is that of the key over them. -/
theorem keyinitExpandsTheKey : Obligations.KeyinitExpandsTheKey := by
  refine ⟨decodeOfEncode .keyinit, fun s => ⟨fun h => ?legal, fun h => ?illegal⟩⟩
  case legal =>
    have := validKeyLength_cases (validKeyLength_iff.2 h)
    have built := installContext_built s
    have schedule := installContext_isScheduleOf h
    obtain ⟨hlog, hilog⟩ := installContext_unwritten s
    refine ⟨succeed (installContext s), exec_ok (failureOf_keyinit h), succeed_installContext_frame s,
      tablesBuilt_succeed.2 built, hlog, hilog, ?_⟩
    simp only [succeed_nk, succeed_r, succeed_ks, succeed_state, installContext_nk_toNat h, installContext_r_toNat h,
      installContext_state, ← built.2.subWord_eq, cell_zeroMatrix, implies_true, and_true, true_and]
    exact ⟨fun j x hj hx => by rw [schedule.head j hj, byteLane_keyWord _ _ hx],
      fun i hi hlt => schedule.recurrence (by omega) hi hlt, schedule.zeros⟩
  case illegal =>
    exact exec_fail (e := .invalidKeyLength) (if_neg fun hv => h (validKeyLength_iff.1 hv))

/-- Settles O27: both schedules are those of the same key words over the printed S-box. -/
theorem contextDependsOnTheKeyBytesAlone : Obligations.ContextDependsOnTheKeyBytesAlone := by
  intro s s' h hlen hkey
  have h' : s'.keylen.toNat ∈ [16, 24, 32] := hlen ▸ h
  have := validKeyLength_cases (validKeyLength_iff.2 h)
  have words : ∀ j < s.keylen.toNat / 4, keyWord s'.key j = keyWord s.key j := fun j hj => by
    rw [keyWord, keyWord, hkey _ (by omega), hkey _ (by omega), hkey _ (by omega), hkey _ (by omega)]
  have schedule' := installContext_isScheduleOf h'
  rw [hlen, (sboxTables_unique (installContext_built s').2 (installContext_built s).2).1] at schedule'
  refine ⟨succeed (installContext s), succeed (installContext s'), exec_ok (failureOf_keyinit h),
    exec_ok (failureOf_keyinit h'), installContext_ctxValid s, installContext_ctxValid s', ?nk, ?r,
    schedule'.unique (by omega) (installContext_isScheduleOf h) words, ?state⟩
  case nk => rw [succeed_nk, succeed_nk, installContext_nk, installContext_nk, hlen]
  case r => rw [succeed_r, succeed_r, installContext_r, installContext_r, hlen]
  case state => rw [succeed_state, succeed_state, installContext_state, installContext_state]

end Keyinit

section Context

variable {i : Instr} {s : State}

/-- The first check of a context command is on CTX_VALID (R164, R189). -/
theorem failureOf_of_needsContext (h : i.needsContext = true) : ∃ later, failureOf i s = (checkCtx s).or later := by
  cases i
  case ksrd | ldst | stst | ark | encblk | decblk | enc | dec => exact ⟨_, rfl⟩
  case subb | shr | mixc | isubb | ishr | imixc => exact ⟨none, (Option.or_none).symm⟩
  all_goals exact absurd h Bool.false_ne_true

/-- A context command fails with code 6 while CTX_VALID is 0, whatever else it checks (R164). -/
theorem exec_of_ctxInvalid (hi : i.needsContext = true) (h : s.ctxValid = false) :
    exec i s = .next { s with ok := false, fail := true, err := 6 } := by
  obtain ⟨later, hf⟩ := failureOf_of_needsContext (s := s) hi
  exact exec_fail (e := .noActiveContext) (by rw [hf, checkCtx, h]; rfl)

/-- With a context, KSRD has only the index to check (R123). -/
theorem failureOf_ksrd (h : s.ctxValid = true) (k : Byte) : failureOf (.ksrd k) s = checkScheduleIndex k s := by
  rw [failureOf, checkCtx_eq_none.2 h, Option.none_or]

/-- Settles O28: the context check comes first, then the index check, and RESULT is the word read. -/
theorem ksrdReadsOneWord : Obligations.KsrdReadsOneWord := fun i _ =>
  ⟨decodeOfEncode (.ksrd i), exec_of_ctxInvalid rfl,
    fun hv hi => exec_fail (i := .ksrd i) (e := .operandRange) ((failureOf_ksrd hv i).trans (if_neg (Nat.not_lt.2 hi))),
    fun hv hi => exec_ok (i := .ksrd i) ((failureOf_ksrd hv i).trans (if_pos hi))⟩

/-- Settles O29: the clearing reaches all 60 words, and with CTX_VALID 0 every context command fails. -/
theorem ctxrelClearsTheContext : Obligations.CtxrelClearsTheContext :=
  ⟨decodeOfEncode .ctxrel, fun s => ⟨succeed (releaseContext s), exec_ok rfl, rfl,
    fun i => by rw [succeed_ks, releaseContext_ks, ksClearFrom_all, ksRead_replicate],
    fun x y => by rw [succeed_state, releaseContext_state, cell_zeroMatrix],
    fun i hi => exec_of_ctxInvalid hi rfl⟩⟩

end Context

end Sys2Proof.Machine
end

section
/-! PROOFS. The block transform (44_block_transform.md): what each single step of a round does to STATE, the two block
commands as passes over one block, and what undoes what. -/

namespace Sys2Proof.Machine

section Context

variable {i : Instr} {s : State}

/-- Settles O41: the first check of a command that needs the context is on CTX_VALID. -/
theorem contextCommandsNeedAContext : Obligations.ContextCommandsNeedAContext := fun _ _ => exec_of_ctxInvalid

/-- With a context active, only the check after the one on CTX_VALID is left. -/
theorem failureOf_of_ctxValid {later : Option ErrorKind} (hcheck : failureOf i s = (checkCtx s).or later)
    (h : s.ctxValid = true) : failureOf i s = later := by
  rw [hcheck, checkCtx_eq_none.2 h, Option.none_or]

/-- With a context active, a command on a block passes its checks: every block index is below NBLK (R164). -/
theorem failureOf_of_blockIndex {n : Byte} (hcheck : failureOf i s = (checkCtx s).or (checkBlockIndex n))
    (h : s.ctxValid = true) : failureOf i s = none :=
  (failureOf_of_ctxValid hcheck h).trans (checkBlockIndex_eq_none n)

/-- A command that passes its checks and only transforms STATE. -/
theorem exec_of_setMatrix {f : Matrix → Matrix} (hcheck : failureOf i s = none)
    (heffect : effectOf i s = setMatrix f s) :
    exec i s = .next { s with state := f s.state, ok := true, fail := false, err := 0 } := by
  rw [exec_ok hcheck, heffect]
  rfl

/-- A round step that checks CTX_VALID alone and only transforms STATE. -/
theorem exec_roundStep {f : Matrix → Matrix} (hcheck : failureOf i s = checkCtx s)
    (heffect : effectOf i s = setMatrix f s) (h : s.ctxValid = true) :
    exec i s = .next { s with state := f s.state, ok := true, fail := false, err := 0 } :=
  exec_of_setMatrix (hcheck.trans (checkCtx_eq_none.2 h)) heffect

end Context

section LoadAndStore

/-- Block byte `i` is the cell at row `i mod 4`, column `i div 4` (R47). -/
theorem blockByte_eq_cell (S : Matrix) (i : Fin 16) :
    blockByte S i.val = cell S ⟨i.val % 4, by omega⟩ ⟨i.val / 4, by omega⟩ := by
  have hrow : rowOfByte i.val = ⟨i.val % 4, by omega⟩ := Fin.ext (Nat.mod_mod i.val 4)
  have hcol : colOfByte i.val = ⟨i.val / 4, by omega⟩ := Fin.ext (Nat.mod_eq_of_lt (by omega))
  rw [blockByte, hrow, hcol]

/-- Settles O30: STATE becomes the matrix that block `n` of IBUF maps to. -/
theorem ldstLoadsABlock : Obligations.LdstLoadsABlock := fun n s =>
  ⟨decodeOfEncode (.ldst n), exec_of_ctxInvalid rfl, fun h =>
    ⟨_, exec_ok (failureOf_of_blockIndex rfl h), rfl, fun i =>
      (blockByte_eq_cell (loadMatrix s.ibuf n.toNat) i).symm.trans (blockByte_loadMatrix s.ibuf n.toNat i.isLt)⟩⟩

/-- Storing replaces OBUF alone: block `n` of the new window is the state, every other byte is kept (R141). -/
theorem storeState_spec (n : Nat) (s : State) : ∃ out, storeState n s = setObuf out s ∧
    (s.obuf.wf = true → out.wf = true ∧ ∀ i < 16, memRead out (16 * n + i) = blockByte s.state i) ∧
    ∀ a, a < 16 * n ∨ 16 * n + 16 ≤ a → memRead out a = memRead s.obuf a :=
  ⟨(storeState n s).obuf, by rw [storeState, setObuf_obuf],
    fun hw => ⟨storeState_wf n hw, fun _ => memRead_storeState n hw⟩, fun _ => memRead_storeState_outside n s⟩

/-- Settles O31: the sixteen writes leave the block's bytes in place and reach no other byte. -/
theorem ststStoresABlock : Obligations.StstStoresABlock := by
  refine fun n s => ⟨decodeOfEncode (.stst n), exec_of_ctxInvalid rfl, fun h => ?_⟩
  obtain ⟨out, hstore, hblock, hkept⟩ := storeState_spec n.toNat s
  have run : exec (.stst n) s = .next (succeed (setObuf out s)) := by
    rw [exec_ok (failureOf_of_blockIndex rfl h), effectOf, hstore]
  exact ⟨_, run, rfl, fun hw i => ((hblock hw).2 i.val i.isLt).trans (blockByte_eq_cell s.state i), hkept⟩

end LoadAndStore

section RoundSteps

/-- ARK with a context and a round of it (R155). -/
theorem exec_ark {n : Byte} {s : State} (h : s.ctxValid = true) (hn : n.toNat ≤ s.r.toNat) :
    exec (.ark n) s =
      .next { s with state := addRoundKey s.ks n.toNat s.state, ok := true, fail := false, err := 0 } :=
  exec_of_setMatrix ((failureOf_of_ctxValid rfl h).trans (checkRound_eq_none.2 hn)) rfl

/-- Settles O32: each cell is XORed with its byte of the round key, and XOR undoes itself. -/
theorem arkXorsTheRoundKey : Obligations.ArkXorsTheRoundKey := by
  refine fun n s => ⟨decodeOfEncode (.ark n), exec_of_ctxInvalid rfl, fun h hn => ?above, fun h hn => ?within⟩
  case above =>
    exact exec_fail (i := .ark n) (e := .operandRange)
      ((failureOf_of_ctxValid rfl h).trans (if_neg (Nat.not_le.2 hn)))
  case within =>
    refine ⟨_, exec_ark h hn, rfl, fun x y => cell_matrixOf _ x y, (exec_ark ?_ ?_).trans ?_⟩
    · exact h
    · exact hn
    · rw [addRoundKey_twice]

/-- Settles O33: every cell is looked up in the table. -/
theorem subbAndIsubbSubstitute : Obligations.SubbAndIsubbSubstitute :=
  ⟨decodeOfEncode .subb, decodeOfEncode .isubb, fun _ =>
    ⟨fun h => ⟨exec_of_ctxInvalid rfl h, exec_of_ctxInvalid rfl h⟩, fun h =>
      ⟨⟨_, exec_roundStep rfl rfl h, rfl, fun x y => cell_matrixOf _ x y⟩,
        ⟨_, exec_roundStep rfl rfl h, rfl, fun x y => cell_matrixOf _ x y⟩⟩⟩⟩

theorem cell_shiftRows (S : Matrix) (x y : Fin 4) : cell (shiftRows S) x y = cell S x (y + x) := cell_matrixOf _ x y

theorem cell_invShiftRows (S : Matrix) (x y : Fin 4) : cell (invShiftRows S) x y = cell S x (y - x) :=
  cell_matrixOf _ x y

/-- ShiftRows in block order: byte `i` comes from byte `i + 4*(i mod 4)`, modulo 16 (R144). -/
theorem blockByte_shiftRows (S : Matrix) {i : Nat} (h : i < 16) :
    blockByte (shiftRows S) i = blockByte S ((i + 4 * (i % 4)) % 16) := by
  have source : ∀ j < 16, rowOfByte ((j + 4 * (j % 4)) % 16) = rowOfByte j ∧
      colOfByte ((j + 4 * (j % 4)) % 16) = colOfByte j + rowOfByte j := by decide
  obtain ⟨hrow, hcol⟩ := source i h
  rw [blockByte, cell_shiftRows, blockByte, hrow, hcol]

/-- Settles O34: row `x` takes from column `y + x`, or `y - x`, modulo 4. -/
theorem shrAndIshrRotateRows : Obligations.ShrAndIshrRotateRows := by
  refine ⟨decodeOfEncode .shr, decodeOfEncode .ishr, fun s =>
    ⟨fun h => ⟨exec_of_ctxInvalid rfl h, exec_of_ctxInvalid rfl h⟩, fun h =>
      ⟨⟨_, exec_roundStep rfl rfl h, rfl, cell_shiftRows s.state, fun i => blockByte_shiftRows s.state⟩,
        ⟨_, exec_roundStep rfl rfl h, rfl, fun x y => ?right⟩⟩⟩⟩
  have column : (y - x).val = (y.val + 4 - x.val) % 4 := by rw [Fin.val_sub]; omega
  exact (cell_invShiftRows s.state x y).trans (congrArg (cell s.state x) (Fin.ext column))

/-- The rows of the forward matrix are its first row rotated (R145). -/
theorem circulant_mixCoeff : ∀ x k, circulant ![0x02, 0x03, 0x01, 0x01] x k = mixCoeff x k := by decide

/-- The rows of the inverse matrix are its first row rotated (R148). -/
theorem circulant_invMixCoeff : ∀ x k, circulant ![0x0e, 0x0b, 0x0d, 0x09] x k = invMixCoeff x k := by decide

/-- MixColumns multiplies each column by the forward matrix (R145). -/
theorem cell_mixColumns {log ilog : Table} (h : GoodTables log ilog) (S : Matrix) (x y : Fin 4) :
    cell (mixColumns log ilog S) x y = dot4 (mixCoeff x) (fun k => cell S k y) :=
  (cell_matrixOf _ x y).trans (mixColumn_eq_dot4 h (fun k => cell S k y) x)

/-- InvMixColumns multiplies each column by the inverse matrix (R148). -/
theorem cell_invMixColumns {log ilog : Table} (h : GoodTables log ilog) (S : Matrix) (x y : Fin 4) :
    cell (invMixColumns log ilog S) x y = dot4 (invMixCoeff x) (fun k => cell S k y) :=
  (cell_matrixOf _ x y).trans (invMixColumn_eq_dot4 h (fun k => cell S k y) x)

/-- Settles O35: over built tables each cell is its matrix row times its column. -/
theorem mixcAndImixcMultiplyColumns : Obligations.MixcAndImixcMultiplyColumns := by
  refine ⟨decodeOfEncode .mixc, decodeOfEncode .imixc, fun s =>
    ⟨fun h => ⟨exec_of_ctxInvalid rfl h, exec_of_ctxInvalid rfl h⟩, fun h =>
      ⟨⟨_, exec_roundStep rfl rfl h, rfl, fun hg x y => ?forward⟩,
        ⟨_, exec_roundStep rfl rfl h, rfl, fun hg x y => ?inverse⟩⟩⟩⟩
  case forward =>
    simp only [circulant_mixCoeff]
    exact cell_mixColumns hg s.state x y
  case inverse =>
    simp only [circulant_invMixCoeff]
    exact cell_invMixColumns hg s.state x y

/-- Four rotations of a row by the same amount are a whole turn (R157). -/
theorem shiftRows_four (S : Matrix) : shiftRows (shiftRows (shiftRows (shiftRows S))) = S := by
  have turn : ∀ x y : Fin 4, y + x + x + x + x = y := by decide
  exact matrix_ext fun x y => by simp only [cell_shiftRows, turn]

/-- Steps whose joint effect on STATE is the identity leave, as commands, only the success record. -/
theorem execAll_of_identity (n : Byte) {l : List SeqStep} {s : State} (hne : l ≠ []) (h : s.ctxValid = true)
    (hl : ∀ x ∈ l, stepInRange s.r.toNat x = true) {f : Matrix → Matrix} (hf : ∀ S, f S = S)
    (hrun : runSchedule n.toNat l s = setMatrix f s) :
    execAll (l.map (commandOf n)) s = .next { s with ok := true, fail := false, err := 0 } := by
  rw [execAll_schedule n hne h hl, hrun, setMatrix, hf]
  rfl

/-- Two steps of which the second undoes the first. -/
theorem execAll_pair_of_identity (n : Byte) (x y : SeqStep) {s : State} (h : s.ctxValid = true)
    (hx : stepInRange s.r.toNat x = true) (hy : stepInRange s.r.toNat y = true) {f : Matrix → Matrix}
    (hf : ∀ S, f S = S) (hrun : runSchedule n.toNat [x, y] s = setMatrix f s) :
    execAll [commandOf n x, commandOf n y] s = .next { s with ok := true, fail := false, err := 0 } :=
  execAll_of_identity n (List.cons_ne_nil x [y]) h
    (List.forall_mem_cons.2 ⟨hx, List.forall_mem_singleton.2 hy⟩) hf hrun

/-- Settles O36: the transform of each list is the identity. -/
theorem inverseStepsUndo : Obligations.InverseStepsUndo := by
  rintro s h ⟨hgf, hsb⟩
  refine ⟨fun p hp => ?steps, fun n hn => ?ark⟩
  case steps =>
    simp only [List.mem_cons, List.not_mem_nil, or_false] at hp
    rcases hp with rfl | rfl | rfl | rfl | rfl | rfl | rfl
    · exact execAll_pair_of_identity 0 .subb .isubb h rfl rfl (substitute_substitute (isbox_sbox hsb)) rfl
    · exact execAll_pair_of_identity 0 .isubb .subb h rfl rfl (substitute_substitute (sbox_isbox hsb)) rfl
    · exact execAll_pair_of_identity 0 .shr .ishr h rfl rfl invShiftRows_shiftRows rfl
    · exact execAll_pair_of_identity 0 .ishr .shr h rfl rfl shiftRows_invShiftRows rfl
    · exact execAll_pair_of_identity 0 .mixc .imixc h rfl rfl (invMixColumns_mixColumns hgf hgf) rfl
    · exact execAll_pair_of_identity 0 .imixc .mixc h rfl rfl (mixColumns_invMixColumns hgf hgf) rfl
    · exact execAll_of_identity 0 (l := List.replicate 4 .shr) (List.cons_ne_nil _ _) h
        (fun x hx => by rw [List.eq_of_mem_replicate hx]; rfl) shiftRows_four rfl
  case ark =>
    have hround : stepInRange s.r.toNat (.ark n.toNat) = true := decide_eq_true hn
    have run := execAll_pair_of_identity n (.ark n.toNat) (.ark n.toNat) h hround hround
      (addRoundKey_twice s.ks n.toNat) rfl
    rwa [commandOf, BitVec.ofNat_toNat, BitVec.setWidth_eq] at run

end RoundSteps

section BlockCommands

/-- ENCBLK is one pass of the forward cipher (R162). -/
theorem exec_encblk (n : Byte) {s : State} (h : s.ctxValid = true) :
    exec (.encblk n) s = .next (succeed (processBlock encryptMatrix n.toNat s)) :=
  exec_ok (failureOf_of_blockIndex rfl h)

/-- DECBLK is one pass of the inverse cipher (R163). -/
theorem exec_decblk (n : Byte) {s : State} (h : s.ctxValid = true) :
    exec (.decblk n) s = .next (succeed (processBlock decryptMatrix n.toNat s)) :=
  exec_ok (failureOf_of_blockIndex rfl h)

/-- Where the steps of a schedule with four closing steps stand, round by round (R151). -/
theorem schedule_entries (a b : SeqStep) {g : Nat → List SeqStep} (hg : ∀ k, (g k).length = 4) {l : List Nat} {r : Nat}
    (hl : l.length = r - 1) (hr : 1 ≤ r) (t₀ t₁ t₂ t₃ : SeqStep) {schedule : List SeqStep}
    (hs : schedule = a :: b :: List.append (l.flatMap g) [t₀, t₁, t₂, t₃]) :
    schedule.length = 4 * r + 2 ∧ schedule[0]? = some a ∧ schedule[1]? = some b ∧
      (∀ i k, l[i]? = some k → schedule[2 + 4 * i]? = (g k)[0]? ∧ schedule[3 + 4 * i]? = (g k)[1]? ∧
        schedule[4 + 4 * i]? = (g k)[2]? ∧ schedule[5 + 4 * i]? = (g k)[3]?) ∧
      schedule[4 * r - 2]? = some t₀ ∧ schedule[4 * r - 1]? = some t₁ ∧ schedule[4 * r]? = some t₂ ∧
      schedule[4 * r + 1]? = some t₃ := by
  obtain ⟨hlength, hround, htail⟩ := schedule_positions a b g hg l [t₀, t₁, t₂, t₃] r hl hr
  rw [← hs] at hlength hround htail
  refine ⟨?length, by rw [hs]; rfl, by rw [hs]; rfl, fun i k hk => ?round, htail 0, ?second, ?third, ?last⟩
  case length =>
    rw [hlength, List.length_cons, List.length_cons, List.length_cons, List.length_singleton]
    omega
  case round =>
    have hi : i < r - 1 := hl ▸ (List.getElem?_eq_some_iff.1 hk).1
    have entry (j : Nat) (hj : j < 4) : schedule[2 + j + 4 * i]? = (g k)[j]? := by
      rw [hround i j hi hj, hk, Option.bind_some]
    exact ⟨entry 0 (by decide), entry 1 (by decide), entry 2 (by decide), entry 3 (by decide)⟩
  case second => rw [show 4 * r - 1 = 4 * r - 2 + 1 by omega, htail 1]; rfl
  case third => rw [show 4 * r = 4 * r - 2 + 2 by omega, htail 2]; rfl
  case last => rw [show 4 * r + 1 = 4 * r - 2 + 3 by omega, htail 3]; rfl

/-- Settles O37: the block commands are runs of their schedules, whose rounds count up (ENCBLK) or down (DECBLK). -/
theorem blockCommandsRunTheSequencer : Obligations.BlockCommandsRunTheSequencer := by
  refine ⟨fun n s h => ⟨?enc, ?dec⟩, fun r hr => ?entries⟩
  case enc =>
    rw [exec_encblk n h, ← encryptBlock_eq, encryptBlock_eq_runSchedule]
    rfl
  case dec =>
    rw [exec_decblk n h, ← decryptBlock_eq, decryptBlock_eq_runSchedule]
    rfl
  case entries =>
    have hlength : (List.range' 1 (r - 1)).length = r - 1 := List.length_range'
    obtain ⟨elength, e0, e1, eround, etail⟩ := schedule_entries .load (.ark 0) (g := encryptRoundSteps) (fun _ => rfl)
      hlength hr .subb .shr (.ark r) .store (schedule := encryptSchedule r) rfl
    obtain ⟨dlength, d0, d1, dround, dtail⟩ := schedule_entries .load (.ark r) (g := decryptRoundSteps) (fun _ => rfl)
      (List.length_reverse.trans hlength) hr .ishr .isubb (.ark 0) .store (schedule := decryptSchedule r) rfl
    obtain ⟨e2, e3, e4, e5⟩ := etail
    refine ⟨elength, e0, e1, fun k h1 hk => eround (k - 1) k ?up, e2, e3, e4, e5, dlength, d0, d1,
      fun k h1 hk => dround (r - 1 - k) k ?down, dtail⟩
    case up =>
      rw [List.getElem?_range' (by omega)]
      exact congrArg some (by omega)
    case down =>
      rw [List.getElem?_reverse (by rw [hlength]; omega), hlength, List.getElem?_range' (by omega)]
      exact congrArg some (by omega)

/-- On block `n` the command `i` is a pass of the transform `f`, which reads the tables, the schedule and R alone
(R152, R162). -/
structure IsBlockPass (n : Byte) (i : Instr) (f : State → Matrix → Matrix) : Prop where
  needsContext : i.needsContext = true
  run : ∀ s : State, s.ctxValid = true → exec i s = .next (succeed (processBlock f n.toNat s))
  reads : ∀ s u : State, u.log = s.log → u.ilog = s.ilog → u.sbox = s.sbox → u.isbox = s.isbox → u.ks = s.ks →
    u.r = s.r → f u = f s

theorem encblk_isBlockPass (n : Byte) : IsBlockPass n (.encblk n) encryptMatrix :=
  ⟨rfl, fun _ => exec_encblk n, fun _ _ hl hi hb _ hk hr => encryptMatrix_congr hl hi hb hk hr⟩

theorem decblk_isBlockPass (n : Byte) : IsBlockPass n (.decblk n) decryptMatrix :=
  ⟨rfl, fun _ => exec_decblk n, fun _ _ hl hi _ hb hk hr => decryptMatrix_congr hl hi hb hk hr⟩

/-- What a block command leaves: STATE is the transformed input block, and output block `n` holds it. -/
theorem IsBlockPass.spec {n : Byte} {i : Instr} {f : State → Matrix → Matrix} (hf : IsBlockPass n i f) {s : State}
    (h : s.ctxValid = true) : ∃ t, exec i s = .next t ∧
      t = { s with state := t.state, obuf := t.obuf, ok := true, fail := false, err := 0 } ∧
      t.state = f s (loadMatrix s.ibuf n.toNat) ∧
      (s.obuf.wf = true → t.obuf.wf = true ∧ ∀ k < 16, memRead t.obuf (16 * n.toNat + k) = blockByte t.state k) ∧
      ∀ a, a < 16 * n.toNat ∨ 16 * n.toNat + 16 ≤ a → memRead t.obuf a = memRead s.obuf a := by
  obtain ⟨out, hstore, hblock, hkept⟩ := storeState_spec n.toNat (setMatrix (f s) (loadState n.toNat s))
  have run : exec i s = .next (succeed (setObuf out (setMatrix (f s) (loadState n.toNat s)))) := by
    rw [hf.run s h, processBlock, hstore]
  exact ⟨_, run, rfl, rfl, hblock, hkept⟩

/-- Settles O39: a pass loads block `n`, and its transform reads nothing but tables, schedule and R. -/
theorem blockCommandsArePure : Obligations.BlockCommandsArePure := by
  intro n s i hi
  obtain ⟨f, hf⟩ : ∃ f, IsBlockPass n i f := by
    rcases hi with rfl | rfl
    · exact ⟨_, encblk_isBlockPass n⟩
    · exact ⟨_, decblk_isBlockPass n⟩
  refine ⟨exec_of_ctxInvalid hf.needsContext, fun h => ?_⟩
  obtain ⟨t, hrun, hframe, hstate, hstored, hkept⟩ := hf.spec h
  refine ⟨t, hrun, hframe, fun hw => (hstored hw).2, hkept, fun u hu hl hm hb hc hks hr hblock => ?_⟩
  obtain ⟨v, hrun', -, hstate', -⟩ := hf.spec hu
  exact ⟨v, hrun', by rw [hstate, hstate', hf.reads s u hl hm hb hc hks hr, loadMatrix_congr hblock]⟩

/-- The two block commands, in either order, are passes of transforms of which the second undoes the first over built
tables (R152). -/
theorem exists_inverse_blockPasses {n : Byte} {i j : Instr}
    (hij : (i = .encblk n ∧ j = .decblk n) ∨ (i = .decblk n ∧ j = .encblk n)) :
    ∃ f g : State → Matrix → Matrix, IsBlockPass n i f ∧ IsBlockPass n j g ∧
      ∀ (s : State) (S : Matrix), TablesBuilt s → g s (f s S) = S := by
  rcases hij with ⟨rfl, rfl⟩ | ⟨rfl, rfl⟩
  · exact ⟨_, _, encblk_isBlockPass n, decblk_isBlockPass n, fun s S h => decryptMatrix_encryptMatrix h h rfl rfl S⟩
  · exact ⟨_, _, decblk_isBlockPass n, encblk_isBlockPass n, fun s S h => encryptMatrix_decryptMatrix h h rfl rfl S⟩

/-- An active context has all four tables built (R34). -/
theorem Inv.tablesBuilt {s : State} (h : Inv s) (hc : s.ctxValid = true) : TablesBuilt s :=
  ⟨h.gf (h.sb_gf (h.ctx_sb hc)), h.sb (h.ctx_sb hc)⟩

/-- Settles O40: the second pass loads the block the first one stored, and its transform undoes the first. -/
theorem blockRoundTrip : Obligations.BlockRoundTrip := by
  intro n s i j hij hinv h
  obtain ⟨f, g, hf, hg, hundo⟩ := exists_inverse_blockPasses hij
  obtain ⟨t, hrun, hframe, hstate, hout, -⟩ := hf.spec h
  obtain ⟨hw, hstored⟩ := hout hinv.obuf.1
  refine ⟨t, hrun, fun m hm => ?_⟩
  obtain ⟨u, hrun', -, hstate', hout', -⟩ := hg.spec (s := { t with ibuf := m }) (by rw [hframe, h])
  refine ⟨u, hrun', fun k hk => ?_⟩
  have same : g { t with ibuf := m } = g s := hg.reads s { t with ibuf := m } (by rw [hframe])
    (by rw [hframe]) (by rw [hframe]) (by rw [hframe]) (by rw [hframe]) (by rw [hframe])
  have loaded : loadMatrix m n.toNat = t.state := matrix_ext_bytes fun b hb => by
    rw [blockByte_loadMatrix m n.toNat hb, blockAddr, hm b hb, hstored b hb]
  rw [(hout' hw).2 k hk, hstate', same, loaded, hstate, hundo s _ (hinv.tablesBuilt h),
    blockByte_loadMatrix s.ibuf n.toNat hk, blockAddr]

end BlockCommands

end Sys2Proof.Machine
end

section
/-! PROOFS. Table re-arm and the buffer processor (45_context_buffer.md): INITVEC is the two table builders in a row, and ENC
and DEC are four checks and then one block pass after another. -/

namespace Sys2Proof.Machine

section Initvec

theorem buildSbox_succeed (s : State) : buildSbox (succeed s) = succeed (buildSbox s) := by
  simp only [buildSbox, setSboxTables, succeed]

/-- INITVEC is the two table builders as one command (R170). -/
theorem execAll_gfinit_sbinit (s : State) : execAll [.gfinit, .sbinit] s = exec .initvec s := by
  have gfinit : exec .gfinit s = .next (succeed (buildGfTables s)) := exec_ok rfl
  have sbinit : exec .sbinit (succeed (buildGfTables s)) = .next (succeed (buildSbox (succeed (buildGfTables s)))) :=
    exec_sbinit (buildGfTables_gfValid s)
  have initvec : exec .initvec s = .next (succeed (buildSbox (buildGfTables s))) := exec_ok rfl
  simp only [execAll, gfinit, sbinit, initvec, buildSbox_succeed, succeed_succeed]

variable {s : State}

/-- Rebuilding tables that are built and flagged valid changes nothing (R170). -/
theorem rebuildTables_of_built (h : TablesBuilt s) (hgf : s.gfValid = true) (hsb : s.sbValid = true) :
    rebuildTables s = s := by
  obtain ⟨hlog, hilog⟩ := buildGfTables_of_built h.1
  obtain ⟨hsbox, hisbox⟩ := sboxTables_unique (rebuildTables_built s).2 h.2
  rw [rebuildTables_frame, rebuildTables_log, rebuildTables_ilog, hlog, hilog, hsbox, hisbox]
  nth_rw 1 [← hgf]
  rw [← hsb]

theorem succeed_rebuildTables_frame (s : State) : succeed (rebuildTables s) = { s with
    log := (rebuildTables s).log, ilog := (rebuildTables s).ilog, gfValid := true, sbox := (rebuildTables s).sbox,
    isbox := (rebuildTables s).isbox, sbValid := true, ok := true, fail := false, err := 0 } := by
  conv_lhs => rw [rebuildTables_frame]
  rfl

/-- Settles O42: the rebuild leaves the printed tables, which an active context already has. -/
theorem initvecRebuildsTheTables : Obligations.InitvecRebuildsTheTables := by
  refine ⟨decodeOfEncode .initvec, fun s => ⟨succeed (rebuildTables s), exec_ok rfl, succeed_rebuildTables_frame s,
    tablesBuilt_succeed.2 (rebuildTables_built s), ?log0, ?ilog255, execAll_gfinit_sbinit s, fun hinv h => ?active⟩⟩
  case log0 => rw [succeed_log, rebuildTables_log, (buildGfTables_unwritten s).1]
  case ilog255 => rw [succeed_ilog, rebuildTables_ilog, (buildGfTables_unwritten s).2]
  case active =>
    have hsb := hinv.ctx_sb h
    rw [rebuildTables_of_built (hinv.tablesBuilt h) (hinv.sb_gf hsb) hsb]
    rfl

end Initvec

section Buffer

variable {i : Instr} {s : State}

/-- Settles O43: with a context active the three length checks are left, each reached when those before it pass. -/
theorem bufferChecksInOrder : Obligations.BufferChecksInOrder := by
  intro s i hi
  have hcheck : failureOf i s = (checkCtx s).or (checkLengths s) := by rcases hi with rfl | rfl <;> rfl
  have hneeds : i.needsContext = true := by rcases hi with rfl | rfl <;> rfl
  refine ⟨exec_of_ctxInvalid hneeds, fun h hne => ?unequal, fun h heq hmod => ?unaligned,
    fun h heq hmod hlt => ?tooLong, fun h heq hmod hle => ?legal⟩
  case unequal => exact exec_fail (e := .lengthMismatch) ((failureOf_of_ctxValid hcheck h).trans (if_pos hne))
  case unaligned =>
    exact exec_fail (e := .invalidBlockAlignment)
      ((failureOf_of_ctxValid hcheck h).trans ((if_neg (not_not.2 heq)).trans (if_pos hmod)))
  case tooLong =>
    exact exec_fail (e := .lengthExceedsBuffer) ((failureOf_of_ctxValid hcheck h).trans
      ((if_neg (not_not.2 heq)).trans ((if_neg (not_not.2 hmod)).trans (if_pos hlt))))
  case legal =>
    exact ⟨_, exec_ok ((failureOf_of_ctxValid hcheck h).trans (checkLengths_eq_none.2 ⟨heq, hmod, hle⟩)), rfl⟩

/-- The command `i` runs the transform `f` over the buffer, and `single n` runs it over block `n` alone (R172, R173). -/
structure IsBufferPass (i : Instr) (single : Byte → Instr) (f : State → Matrix → Matrix) : Prop where
  check : ∀ s, failureOf i s = checkBuffer s
  effect : ∀ s, effectOf i s = blockLoop (processBlock f) (s.inlen.toNat / 16) 0 s
  block : ∀ n, IsBlockPass n (single n) f

theorem enc_isBufferPass : IsBufferPass .enc .encblk encryptMatrix := ⟨fun _ => rfl, fun _ => rfl, encblk_isBlockPass⟩

theorem dec_isBufferPass : IsBufferPass .dec .decblk decryptMatrix := ⟨fun _ => rfl, fun _ => rfl, decblk_isBlockPass⟩

variable {single : Byte → Instr} {f : State → Matrix → Matrix} (hf : IsBufferPass i single f)
include hf

/-- The transform of a buffer command reads nothing that a block pass or the success record changes, nor IBUF (R152). -/
theorem IsBufferPass.reads (s : State) (S : Matrix) (ibuf obuf : Memory) (ok fail : Bool) (err : Word) :
    f { s with state := S, ibuf := ibuf, obuf := obuf, ok := ok, fail := fail, err := err } = f s :=
  (hf.block 0).reads s _ rfl rfl rfl rfl rfl rfl

/-- What a buffer command leaves when its checks pass: each output block below INLEN is its transformed input block, STATE
is the last of them, and every other byte is kept (R172, R173, R174). -/
theorem IsBufferPass.spec (h : checkBuffer s = none) : ∃ S out,
    exec i s = .next { s with state := S, obuf := out, ok := true, fail := false, err := 0 } ∧
      (s.inlen = 0 → S = s.state ∧ out = s.obuf) ∧
      (∀ a, s.inlen.toNat ≤ a → memRead out a = memRead s.obuf a) ∧
      (∀ n, n + 1 = s.inlen.toNat / 16 → S = f s (loadMatrix s.ibuf n)) ∧
      (s.obuf.wf = true → out.wf = true ∧ ∀ n < s.inlen.toNat / 16, ∀ k < 16,
        memRead out (16 * n + k) = blockByte (f s (loadMatrix s.ibuf n)) k) := by
  obtain ⟨-, -, aligned, -⟩ := checkBuffer_eq_none.1 h
  have independent : Independent f := fun s S m => hf.reads s S s.ibuf m s.ok s.fail s.err
  obtain ⟨S, out, hrun, hwf, hzero, hlast, hblock, hkept, -⟩ := blockLoop_spec independent (s.inlen.toNat / 16) 0 s
  refine ⟨S, out, ?run, fun hz => hzero (by rw [hz]; rfl), fun a ha => hkept a (by omega),
    fun n hn => ?last, fun hw => ⟨hwf hw, fun n hn k hk => hblock hw n k (Nat.zero_le n) (by omega) hk⟩⟩
  case run =>
    rw [exec_ok ((hf.check s).trans h), hf.effect, hrun]
    rfl
  case last => rw [hlast n hn.symm, Nat.zero_add]

/-- A buffer command does to each block what its block command does to that block from the same state (R172, R173). -/
theorem IsBufferPass.eachBlock (hctx : s.ctxValid = true) (hlen : s.inlen = s.outlen) (hmod : s.inlen.toNat % 16 = 0)
    (hle : s.inlen.toNat ≤ 4096) : ∃ t, exec i s = .next t ∧
      t = { s with state := t.state, obuf := t.obuf, ok := true, fail := false, err := 0 } ∧
      (s.inlen = 0 → t.state = s.state ∧ t.obuf = s.obuf) ∧
      (∀ a, s.inlen.toNat ≤ a → memRead t.obuf a = memRead s.obuf a) ∧
      ∀ n : Byte, n.toNat < s.inlen.toNat / 16 → ∃ u, exec (single n) s = .next u ∧
        (s.obuf.wf = true → ∀ k < 16, memRead t.obuf (16 * n.toNat + k) = memRead u.obuf (16 * n.toNat + k)) ∧
        (n.toNat + 1 = s.inlen.toNat / 16 → t.state = u.state) := by
  obtain ⟨S, out, hrun, hzero, hkept, hlast, hblocks⟩ := hf.spec (checkBuffer_eq_none.2 ⟨hctx, hlen, hmod, hle⟩)
  refine ⟨_, hrun, rfl, hzero, hkept, fun n hn => ?_⟩
  obtain ⟨u, hrun', -, hstate, hout, -⟩ := (hf.block n).spec hctx
  refine ⟨u, hrun', fun hw k hk => ?stored, fun hn => (hlast n.toNat hn).trans hstate.symm⟩
  rw [(hblocks hw).2 n.toNat hn k hk, (hout hw).2 k hk, hstate]

/-- On zero lengths a buffer command runs no block pass (R175). -/
theorem IsBufferPass.exec_of_zero (hctx : s.ctxValid = true) (hin : s.inlen = 0) (hout : s.outlen = 0) :
    exec i s = .next { s with ok := true, fail := false, err := 0 } := by
  obtain ⟨S, out, hrun, hzero, -⟩ := hf.spec
    (checkBuffer_eq_none.2 ⟨hctx, hin.trans hout.symm, by rw [hin]; rfl, by rw [hin]; exact Nat.zero_le _⟩)
  obtain ⟨rfl, rfl⟩ := hzero hin
  exact hrun

end Buffer

/-- Settles O44: ENC runs over the buffer the transform that ENCBLK runs over a block. -/
theorem encProcessesEachBlock : Obligations.EncProcessesEachBlock :=
  ⟨decodeOfEncode .enc, fun _ => enc_isBufferPass.eachBlock⟩

/-- Settles O45: DEC runs over the buffer the transform that DECBLK runs over a block. -/
theorem decProcessesEachBlock : Obligations.DecProcessesEachBlock :=
  ⟨decodeOfEncode .dec, fun _ => dec_isBufferPass.eachBlock⟩

/-- Settles O46: the block loop runs zero times. -/
theorem zeroLengthSucceeds : Obligations.ZeroLengthSucceeds := fun _ h hin hout =>
  ⟨enc_isBufferPass.exec_of_zero h hin hout, dec_isBufferPass.exec_of_zero h hin hout⟩

section RoundTrip

/-- The two buffer commands, in either order, run transforms of which the second undoes the first over built tables
(R152). -/
theorem exists_inverse_bufferPasses {i j : Instr} (hij : (i = .enc ∧ j = .dec) ∨ (i = .dec ∧ j = .enc)) :
    ∃ (a b : Byte → Instr) (f g : State → Matrix → Matrix), IsBufferPass i a f ∧ IsBufferPass j b g ∧
      ∀ (s : State) (S : Matrix), TablesBuilt s → g s (f s S) = S := by
  rcases hij with ⟨rfl, rfl⟩ | ⟨rfl, rfl⟩
  · exact ⟨_, _, _, _, enc_isBufferPass, dec_isBufferPass, fun s S h => decryptMatrix_encryptMatrix h h rfl rfl S⟩
  · exact ⟨_, _, _, _, dec_isBufferPass, enc_isBufferPass, fun s S h => encryptMatrix_decryptMatrix h h rfl rfl S⟩

/-- Settles O47: block by block, the second command loads what the first one stored, and its transform undoes the
first. -/
theorem bufferRoundTrip : Obligations.BufferRoundTrip := by
  intro s i j hij hinv hctx hlen hmod hle
  obtain ⟨_, _, f, g, hf, hg, hundo⟩ := exists_inverse_bufferPasses hij
  have legal : checkBuffer s = none := checkBuffer_eq_none.2 ⟨hctx, hlen, hmod, hle⟩
  obtain ⟨S, out, hrun, -, -, -, hout⟩ := hf.spec legal
  obtain ⟨hw, hstored⟩ := hout hinv.obuf.1
  refine ⟨_, hrun, fun m hm => ?_⟩
  obtain ⟨S', out', hrun', -, -, -, hout'⟩ :=
    hg.spec (s := { s with state := S, ibuf := m, obuf := out, ok := true, fail := false, err := 0 }) legal
  refine ⟨_, hrun', fun a ha => ?_⟩
  have hblock : a / 16 < s.inlen.toNat / 16 := by omega
  have hbyte : a % 16 < 16 := Nat.mod_lt a (by decide)
  have loaded : loadMatrix m (a / 16) = f s (loadMatrix s.ibuf (a / 16)) := matrix_ext_bytes fun b hb => by
    rw [blockByte_loadMatrix m _ hb, blockAddr, hm _ (by omega), hstored _ hblock b hb]
  have restored := (hout' hw).2 (a / 16) hblock (a % 16) hbyte
  rwa [hg.reads, loaded, hundo s _ (hinv.tablesBuilt hctx), blockByte_loadMatrix _ _ hbyte, blockAddr,
    Nat.div_add_mod] at restored

end RoundTrip

end Sys2Proof.Machine
end

section
/-! PROOFS. Failing commands (60_exceptions.md): a command that fails leaves the failure record of its check (R188), and
each check raises the kinds of its rows of R186. -/

namespace Sys2Proof.Machine

section FailureRecord

variable {i : Instr} {s t : State}

/-- A command that ends with FAIL = 1 leaves the failure record of the kind its check raises. -/
theorem exec_failed (h : exec i s = .next t) (hfail : t.fail = true) :
    ∃ e, failureOf i s = some e ∧ t = raise e s := by
  obtain failed | ⟨-, rfl⟩ := exec_cases h
  · exact failed
  · exact absurd hfail Bool.false_ne_true

/-- A command that ends with FAIL = 0 leaves the success record. -/
theorem exec_succeeded (h : exec i s = .next t) (hfail : t.fail = false) : t = succeed (effectOf i s) := by
  obtain ⟨e, -, rfl⟩ | ⟨-, succeeded⟩ := exec_cases h
  · exact absurd hfail.symm Bool.false_ne_true
  · exact succeeded

/-- A command whose check passes ends with OK = 1. -/
theorem exec_ok_of_failureOf_none (hcheck : failureOf i s = none) (h : exec i s = .next t) : t.ok = true := by
  obtain rfl := Host.Outcome.next.inj ((exec_ok hcheck).symm.trans h)
  exact succeed_ok _

/-- Settles O48: a failure is `raise` on the old state, whose code is never 0, and a success ends with `succeed`. -/
theorem failureChangesOnlyTheOutcome : Obligations.FailureChangesOnlyTheOutcome := by
  refine fun i s t h => ⟨fun hfail => ?_, fun hfail => ?_⟩
  · obtain ⟨e, -, rfl⟩ := exec_failed h hfail
    exact ⟨rfl, e.code_ne_zero⟩
  · rw [exec_succeeded h hfail]
    exact ⟨succeed_ok _, succeed_err _⟩

end FailureRecord

section Kinds

variable {s : State} {e : ErrorKind}

/-- A check with one condition raises its one kind. -/
theorem eq_of_check_eq_some {c : Prop} [Decidable c] {k : ErrorKind} (h : (if c then none else some k) = some e) :
    e = k := by
  split at h
  · cases h
  · exact (Option.some.inj h).symm

theorem checkGf_eq_some (h : checkGf s = some e) : e = .tablesNotReady := eq_of_check_eq_some h

theorem checkSb_eq_some (h : checkSb s = some e) : e = .tablesNotReady := eq_of_check_eq_some h

theorem checkCtx_eq_some (h : checkCtx s = some e) : e = .noActiveContext := eq_of_check_eq_some h

theorem checkKeyLength_eq_some (h : checkKeyLength s = some e) : e = .invalidKeyLength := eq_of_check_eq_some h

/-- The checks of R171 on the two lengths raise code 3, 4 or 10. -/
theorem code_of_length_check (h : checkLengths s = some e) : e.code ∈ [3, 4, 10] := by
  unfold checkLengths at h
  split_ifs at h <;> cases h <;> decide

/-- A check that follows the one on CTX_VALID adds its kinds to NoActiveContext. -/
theorem checkCtx_or_eq_some {later : Option ErrorKind} (h : (checkCtx s).or later = some e) :
    e = .noActiveContext ∨ later = some e := by
  obtain h | ⟨-, h⟩ := Option.or_eq_some_iff.1 h
  · exact .inl (checkCtx_eq_some h)
  · exact .inr h

/-- The check on CTX_VALID, followed by a check with one condition on the operand, raises code 6 or 9. -/
theorem code_of_operand_check {c : Prop} [Decidable c]
    (h : (checkCtx s).or (if c then none else some .operandRange) = some e) : e.code ∈ [6, 9] := by
  obtain rfl | h := checkCtx_or_eq_some h
  · decide
  · rw [eq_of_check_eq_some h]
    decide

theorem code_of_buffer_check (h : checkBuffer s = some e) : e.code ∈ [6, 3, 4, 10] := by
  obtain rfl | h := checkCtx_or_eq_some h
  · decide
  · exact List.mem_cons_of_mem 6 (code_of_length_check h)

/-- The check of a command raises only kinds whose rows of R186 name the command. -/
theorem failureOf_code_mem {i : Instr} (h : failureOf i s = some e) : e.code ∈ raisableCodes i := by
  cases i
  case gfinit | ctxrel | initvec => cases h
  case gfmul | gfinv | logrd | ilogrd | sbinit => exact List.mem_singleton.2 (congrArg _ (checkGf_eq_some h))
  case sbox | isbox => exact List.mem_singleton.2 (congrArg _ (checkSb_eq_some h))
  case keyinit => exact List.mem_singleton.2 (congrArg _ (checkKeyLength_eq_some h))
  case ksrd | ldst | stst | ark | encblk | decblk => exact code_of_operand_check h
  case subb | shr | mixc | isubb | ishr | imixc => exact List.mem_singleton.2 (congrArg _ (checkCtx_eq_some h))
  case enc | dec => exact code_of_buffer_check h

end Kinds

/-- The five commands of R186 without a failing path, under their conditions. -/
theorem failureOf_eq_none {i : Instr} {s : State} (h : i ∈ [.gfinit, .ctxrel, .initvec] ∨
    (i = .sbinit ∧ s.gfValid = true) ∨ (i = .keyinit ∧ s.keylen.toNat ∈ [16, 24, 32])) :
    failureOf i s = none := by
  obtain h | ⟨rfl, hgf⟩ | ⟨rfl, hlen⟩ := h
  · simp only [List.mem_cons, List.not_mem_nil, or_false] at h
    obtain rfl | rfl | rfl := h <;> rfl
  · exact checkGf_eq_none.2 hgf
  · exact failureOf_keyinit hlen

/-- A CMD write whose word is no command leaves code 8 (R65, R66). -/
theorem step_illegal_err {w : Word} {s t : State} (hw : ∀ i, decode w ≠ .ok i)
    (h : step (s.withAccess (.writeReg 0x0000 w)) = .next t) : t.err = 8 := by
  obtain ⟨-, hillegal, -⟩ := stepRunsDecodedCommand s w
  cases hd : decode w with
  | ok i => exact absurd hd (hw i)
  | error e =>
    obtain rfl := Host.Outcome.next.inj ((hillegal e hd).symm.trans h)
    rfl

/-- Settles O49: a failure carries the code of a kind its command's check raises, the five commands pass their checks,
and a success leaves code 0. -/
theorem raisedKinds : Obligations.RaisedKinds := by
  refine ⟨fun i s t h hfail => ?codes, fun i s t h hi => exec_ok_of_failureOf_none (failureOf_eq_none hi) h,
    fun i s t h hfail => ?success, fun w s t => step_illegal_err⟩
  case codes =>
    obtain ⟨e, he, rfl⟩ := exec_failed h hfail
    exact failureOf_code_mem he
  case success =>
    rw [exec_succeeded h hfail, succeed_err]

end Sys2Proof.Machine
end

section
/-! PROOFS. The validity flags (70_reset_and_hazards.md): each flag needs the one before it, every command that succeeds
moves them as R213 says, and while all three are 0 only four commands pass their checks (R211). -/

namespace Sys2Proof.Machine

section Flags

/-- The four triples of R213. -/
def legalFlags : List (Bool × Bool × Bool) :=
  [(false, false, false), (true, false, false), (true, true, false), (true, true, true)]

/-- A triple is legal when CTX_VALID implies SB_VALID and SB_VALID implies GF_VALID. -/
theorem mem_legalFlags_iff {gf sb ctx : Bool} :
    (gf, sb, ctx) ∈ legalFlags ↔ (sb = true → gf = true) ∧ (ctx = true → sb = true) := by
  revert gf sb ctx
  decide

/-- The legal triples but (0,0,0) are those with GF_VALID set. -/
theorem ne_zero_iff_gfValid {f : Bool × Bool × Bool} (hf : f ∈ legalFlags) : f ≠ (false, false, false) ↔ f.1 = true := by
  revert f
  decide

theorem validityAfter_mem_legalFlags {i : Instr} {f : Bool × Bool × Bool} (hf : f ∈ legalFlags)
    (hsb : i = .sbinit → f.1 = true) : validityAfter i f ∈ legalFlags := by
  obtain ⟨gf, sb, ctx⟩ := f
  obtain ⟨sbNeedsGf, ctxNeedsSb⟩ := mem_legalFlags_iff.1 hf
  cases i
  case gfinit => exact mem_legalFlags_iff.2 ⟨fun _ => rfl, ctxNeedsSb⟩
  case sbinit => exact mem_legalFlags_iff.2 ⟨fun _ => hsb rfl, fun _ => rfl⟩
  case initvec | keyinit => exact mem_legalFlags_iff.2 ⟨fun _ => rfl, fun _ => rfl⟩
  case ctxrel => exact mem_legalFlags_iff.2 ⟨sbNeedsGf, fun h => absurd h Bool.false_ne_true⟩
  all_goals exact hf

/-- No command clears GF_VALID. -/
theorem validityAfter_gfValid (i : Instr) {f : Bool × Bool × Bool} (h : f.1 = true) : (validityAfter i f).1 = true := by
  cases i
  case gfinit | initvec | keyinit => rfl
  all_goals exact h

end Flags

/-- A run over the buffer keeps the three flags. -/
theorem validity_blockLoop {f : State → Matrix → Matrix} (hf : Independent f) (count blk : Nat) (s : State) :
    validity (blockLoop (processBlock f) count blk s) = validity s := by
  obtain ⟨S, m, hloop⟩ := blockLoop_frame hf count blk s
  rw [hloop]
  rfl

/-- A command whose check passes moves the flags as the table of R213 says. -/
theorem validity_effectOf (i : Instr) (s : State) : validity (effectOf i s) = validityAfter i (validity s) := by
  cases i
  case gfinit | sbinit | initvec | keyinit => simp [validity, effectOf, validityAfter]
  case enc => exact validity_blockLoop encryptMatrix_independent (s.inlen.toNat / 16) 0 s
  case dec => exact validity_blockLoop decryptMatrix_independent (s.inlen.toNat / 16) 0 s
  all_goals rfl

/-- Settles O52: a failure keeps the three flags and a success moves them by `validityAfter`. SBINIT, the one command that
could set a flag before the one it needs, checks GF_VALID, and GF_VALID, once set, stays. -/
theorem validityFlagsStateMachine : Obligations.ValidityFlagsStateMachine := by
  intro i s t hs ht
  obtain ⟨e, -, rfl⟩ | ⟨hcheck, rfl⟩ := exec_cases ht
  · exact ⟨hs, fun hok => absurd hok Bool.false_ne_true, fun _ => rfl, id⟩
  · have moved : validity (succeed (effectOf i s)) = validityAfter i (validity s) := validity_effectOf i s
    have hsb : i = .sbinit → s.gfValid = true := by
      rintro rfl
      exact checkGf_eq_none.1 hcheck
    have legal : validityAfter i (validity s) ∈ legalFlags := validityAfter_mem_legalFlags hs hsb
    rw [moved]
    exact ⟨legal, fun _ => rfl, fun hfail => absurd hfail Bool.false_ne_true, fun hne =>
      (ne_zero_iff_gfValid legal).2 (validityAfter_gfValid i ((ne_zero_iff_gfValid hs).1 hne))⟩

section Reset

variable {i : Instr} {s : State}

/-- While the tables are not built, every command that neither needs the context nor is one of the four of R211 fails its
check on a table. -/
theorem failureOf_of_tablesInvalid (hgf : s.gfValid = false) (hsb : s.sbValid = false) (hctx : i.needsContext = false)
    (hi : i.mnemonic ∉ ["GFINIT", "KEYINIT", "CTXREL", "INITVEC"]) : failureOf i s = some .tablesNotReady := by
  cases i
  case gfinit | keyinit | ctxrel | initvec => exact absurd (by decide) hi
  case gfmul | gfinv | logrd | ilogrd | sbinit => simp [failureOf, checkGf, hgf]
  case sbox | isbox => simp [failureOf, checkSb, hsb]
  all_goals exact absurd hctx.symm Bool.false_ne_true

/-- While the three flags are 0, every command but the four of R211 fails, with code 6 if it needs the context and else
with code 7. -/
theorem exec_of_flagsInvalid (hgf : s.gfValid = false) (hsb : s.sbValid = false) (hctx : s.ctxValid = false)
    (hi : i.mnemonic ∉ ["GFINIT", "KEYINIT", "CTXREL", "INITVEC"]) :
    exec i s = .next { s with ok := false, fail := true, err := if i.needsContext then 6 else 7 } := by
  cases hneeds : i.needsContext with
  | true => exact exec_of_ctxInvalid hneeds hctx
  | false => exact exec_fail (failureOf_of_tablesInvalid hgf hsb hneeds hi)

/-- The three mnemonics of R211 whose commands check nothing. -/
theorem mem_uncheckedCommands (h : i.mnemonic ∈ ["GFINIT", "CTXREL", "INITVEC"]) : i ∈ [.gfinit, .ctxrel, .initvec] := by
  cases i
  case gfinit | ctxrel | initvec => decide
  all_goals simp [Instr.mnemonic] at h

/-- A command whose check passes answers a state with OK = 1. -/
theorem exec_succeeds (h : failureOf i s = none) : ∃ t, exec i s = .next t ∧ t.ok = true :=
  ⟨succeed (effectOf i s), exec_ok h, succeed_ok _⟩

end Reset

/-- Settles O54: with the three flags 0 each check of a command other than the four fails on a flag, and the four have no
check on a flag. -/
theorem afterResetOnlyFourCommandsSucceed : Obligations.AfterResetOnlyFourCommandsSucceed := by
  refine ⟨rfl, fun s hflags => ?_⟩
  obtain ⟨hgf, hsb, hctx⟩ : s.gfValid = false ∧ s.sbValid = false ∧ s.ctxValid = false := by
    simpa [validity] using hflags
  refine ⟨fun i hi => exec_of_flagsInvalid hgf hsb hctx hi,
    fun i hi => exec_succeeds (failureOf_eq_none (.inl (mem_uncheckedCommands hi))),
    fun hlen => exec_succeeds (failureOf_keyinit hlen), fun w => ?_⟩
  obtain ⟨-, hillegal, -⟩ := stepRunsDecodedCommand s w
  exact hillegal

end Sys2Proof.Machine
end

section
/-! PROOFS. The words that the spec writes out (30_encoding.md, 95_test_vectors.md): each is the encoding of its command. -/

namespace Sys2Proof

theorem decode_of_encode_eq {w : Word} {i : Instr} (h : encode i = w) : decode w = .ok i :=
  h ▸ decodeOfEncode i

/-- Settles O5: each printed word is its command's encoding, which O1 decodes to the command. -/
theorem sampleWordsDecode : Obligations.SampleWordsDecode := by
  unfold Obligations.SampleWordsDecode
  and_intros
  all_goals exact decode_of_encode_eq rfl

end Sys2Proof
end
